-- ==== Sys2Proof/Word.lean ====
section
/-! DEFINITION. The two widths DCP-CORE computes with: the 32-bit word of every register and command
(00_scope R7, 10_state R33) and the byte of every buffer (00_scope R12). -/

namespace Sys2Proof

/-- A 32-bit register value or command word. -/
abbrev Word := BitVec 32

/-- A byte of IN, OUT or the BitStream window. -/
abbrev Byte := BitVec 8

end Sys2Proof
end

