-- ==== Sys2Proof/Syntax.lean ====
section
/-! DEFINITION. The ten commands of opcode_table.json, in the table's order (30_encoding R102). A command's
only operand is the 8-bit modifier N (30_encoding R105); commands whose N must be 0 carry none. -/

namespace Sys2Proof

/-- A command of the block. -/
inductive Instr where
  /-- `NOP` (40_bitstream R160). -/
  | nop
  /-- `BS.CLEAR` (40_bitstream R161). -/
  | bsClear
  /-- `BS.WRITE n` (40_bitstream R162). -/
  | bsWrite (count : Byte)
  /-- `BS.READ n` (40_bitstream R163). -/
  | bsRead (count : Byte)
  /-- `BS.FINISH` (40_bitstream R164). -/
  | bsFinish
  /-- `BS.LOAD` (40_bitstream R165). -/
  | bsLoad
  /-- `RLE.ENC` (42_rle R200). -/
  | rleEnc
  /-- `HUF.ENC` (43_huffman R230). -/
  | hufEnc
  /-- `GOL.ENC m` (44_golomb R280). -/
  | golEnc (mode : Byte)
  /-- `LZW.ENC W` (45_lzw R320). -/
  | lzwEnc (width : Byte)
  deriving DecidableEq, Repr

end Sys2Proof
end

