-- ==== Sys2Proof/WellFormed.lean ====
section
/-! DEFINITION. The range checks on the modifier N (30_encoding R103, R104 (c)): one named failure for each
check. A command that fails its check is an illegal command word and completes with ConfigurationError. -/

namespace Sys2Proof

/-- Why a command's modifier is out of range. -/
inductive IllFormed where
  /-- BS.WRITE or BS.READ with a bit count above `COUNT_MAX` = 32. -/
  | countAbove32 (count : Byte)
  /-- GOL.ENC with a mode that is neither 0 (supplied) nor 1 (estimated). -/
  | modeAbove1 (mode : Byte)
  /-- LZW.ENC with a maximum code width outside 9 to 16. -/
  | widthOutside9To16 (width : Byte)
  deriving DecidableEq, Repr

/-- The modifier check of 30_encoding R104 (c). -/
def Instr.check : Instr → Option IllFormed
  | .nop => none
  | .bsClear => none
  | .bsWrite n => if n.toNat ≤ 32 then none else some (.countAbove32 n)
  | .bsRead n => if n.toNat ≤ 32 then none else some (.countAbove32 n)
  | .bsFinish => none
  | .bsLoad => none
  | .rleEnc => none
  | .hufEnc => none
  | .golEnc m => if m.toNat ≤ 1 then none else some (.modeAbove1 m)
  | .lzwEnc w => if 9 ≤ w.toNat ∧ w.toNat ≤ 16 then none else some (.widthOutside9To16 w)

/-- A command whose modifier is in range. -/
abbrev Instr.wellFormed (i : Instr) : Prop := i.check = none

end Sys2Proof
end

