-- ==== Sys2Proof/Decode.lean ====
section
/-! DEFINITION. The command word (30_encoding R100 to R104): its fields, the decoder, the encoder, and the
match and mask of every row of opcode_table.json. A word is identified by OPC alone, then RSV and N are
checked (R101). The range of N is `Instr.check`. -/

namespace Sys2Proof

/-- Field `OPC`, bits 7:0. -/
def opcField (w : Word) : Byte := w.extractLsb' 0 8

/-- Field `N`, bits 15:8. -/
def modField (w : Word) : Byte := w.extractLsb' 8 8

/-- Field `RSV`, bits 31:16. -/
def rsvField (w : Word) : BitVec 16 := w.extractLsb' 16 16

/-- The opcodes of 30_encoding R102. -/
inductive Opcode where
  | nop | bsClear | bsWrite | bsRead | bsFinish | bsLoad | rleEnc | hufEnc | golEnc | lzwEnc
  deriving DecidableEq, Repr

/-- The value of `OPC` for each opcode (30_encoding R102). -/
def Opcode.code : Opcode → Byte
  | .nop => 0x00
  | .bsClear => 0x01
  | .bsWrite => 0x02
  | .bsRead => 0x03
  | .bsFinish => 0x04
  | .bsLoad => 0x05
  | .rleEnc => 0x10
  | .hufEnc => 0x11
  | .golEnc => 0x12
  | .lzwEnc => 0x13

/-- Every opcode, in the order of 30_encoding R102. -/
def Opcode.all : List Opcode :=
  [.nop, .bsClear, .bsWrite, .bsRead, .bsFinish, .bsLoad, .rleEnc, .hufEnc, .golEnc, .lzwEnc]

/-- The opcode with the given `OPC` value, if it is one of the map's (30_encoding R102). -/
def Opcode.find (b : Byte) : Option Opcode := Opcode.all.find? fun o => o.code == b

/-- Why a word is no command of the table. -/
inductive DecodeError where
  /-- R104 (a): `OPC` is not in the opcode map. -/
  | unknownOpcode (opc : Byte)
  /-- R104 (b): `RSV` is not zero. -/
  | reservedBitsSet (rsv : BitVec 16)
  /-- R104 (c), for an opcode whose `N` must be 0. -/
  | modifierNotZero (n : Byte)
  deriving DecidableEq, Repr

/-- A command that takes no modifier: `N` must be 0 (30_encoding R103). -/
def noModifier (i : Instr) (n : Byte) : Except DecodeError Instr :=
  if n = 0 then .ok i else .error (.modifierNotZero n)

/-- The command with the given opcode and modifier (30_encoding R103). -/
def assemble (n : Byte) : Opcode → Except DecodeError Instr
  | .nop => noModifier .nop n
  | .bsClear => noModifier .bsClear n
  | .bsWrite => .ok (.bsWrite n)
  | .bsRead => .ok (.bsRead n)
  | .bsFinish => noModifier .bsFinish n
  | .bsLoad => noModifier .bsLoad n
  | .rleEnc => noModifier .rleEnc n
  | .hufEnc => noModifier .hufEnc n
  | .golEnc => .ok (.golEnc n)
  | .lzwEnc => .ok (.lzwEnc n)

/-- The command a word names, or the first reason it names none, in the order of 30_encoding R104. -/
def decode (w : Word) : Except DecodeError Instr :=
  match Opcode.find (opcField w) with
  | none => .error (.unknownOpcode (opcField w))
  | some o => if rsvField w = 0 then assemble (modField w) o else .error (.reservedBitsSet (rsvField w))

/-- A legal command word: it decodes, and its modifier is in range (30_encoding R104). -/
def legalWord (w : Word) : Bool :=
  match decode w with
  | .ok i => decide i.wellFormed
  | .error _ => false

/-- The opcode of a command. -/
def Instr.opcode : Instr → Opcode
  | .nop => .nop
  | .bsClear => .bsClear
  | .bsWrite _ => .bsWrite
  | .bsRead _ => .bsRead
  | .bsFinish => .bsFinish
  | .bsLoad => .bsLoad
  | .rleEnc => .rleEnc
  | .hufEnc => .hufEnc
  | .golEnc _ => .golEnc
  | .lzwEnc _ => .lzwEnc

/-- The modifier `N` of a command (30_encoding R103). -/
def Instr.modifier : Instr → Byte
  | .bsWrite n => n
  | .bsRead n => n
  | .golEnc m => m
  | .lzwEnc w => w
  | .nop => 0
  | .bsClear => 0
  | .bsFinish => 0
  | .bsLoad => 0
  | .rleEnc => 0
  | .hufEnc => 0

/-- The command word of a command (30_encoding R121): `OPC` in bits 7:0, `N` in bits 15:8, `RSV` zero. -/
def encode (i : Instr) : Word := (0 : BitVec 16) ++ i.modifier ++ i.opcode.code

/-- The `mask` column of opcode_table.json. -/
def Opcode.mask : Opcode → Word
  | .bsWrite => 0xFFFF00FF
  | .bsRead => 0xFFFF00FF
  | .golEnc => 0xFFFF00FF
  | .lzwEnc => 0xFFFF00FF
  | .nop => 0xFFFFFFFF
  | .bsClear => 0xFFFFFFFF
  | .bsFinish => 0xFFFFFFFF
  | .bsLoad => 0xFFFFFFFF
  | .rleEnc => 0xFFFFFFFF
  | .hufEnc => 0xFFFFFFFF

/-- The `match` column of opcode_table.json. -/
def Opcode.pattern : Opcode → Word
  | .nop => 0x00000000
  | .bsClear => 0x00000001
  | .bsWrite => 0x00000002
  | .bsRead => 0x00000003
  | .bsFinish => 0x00000004
  | .bsLoad => 0x00000005
  | .rleEnc => 0x00000010
  | .hufEnc => 0x00000011
  | .golEnc => 0x00000012
  | .lzwEnc => 0x00000013

/-- The command the decoder reads from a word whose bits are `w`, numbered as opcode_table.json numbers
them; every bit at or above `nbits` is 0. Every command is one 32-bit word (30_encoding R101). -/
def decodeTableWord (nbits w : Nat) : Option Instr :=
  if w % 2 ^ nbits < 2 ^ 32 then
    match decode (BitVec.ofNat 32 (w % 2 ^ nbits)) with
    | .ok i => some i
    | .error _ => none
  else none

end Sys2Proof
end

