-- ==== Sys2Proof/Config.lean ====
section
/-! DEFINITION. What the spec leaves OPEN (00_scope R7; 92_eei_decisions, OPEN parameters) and the free
values of a read the spec leaves unspecified (93_implementation_defined U2, U3). No constant here has a
body: nothing can be proved of which value it has. -/

namespace Sys2Proof

/-- The parameters of 00_scope R7 that an implementation or a platform fixes. -/
structure Params where
  /-- `IN_CAP`, size of the input buffer in bytes. -/
  inCap : Nat
  /-- `OUT_CAP`, size of the payload buffer in bytes. -/
  outCap : Nat
  /-- `BS_CAP`, size of the BitStream backing buffer in bytes. -/
  bsCap : Nat
  /-- `DCP_BASE`, the host address of block address 0 (20_memory R81). -/
  dcpBase : Nat
  deriving DecidableEq, Repr

/-- The bounds 00_scope R7 gives the three capacities. -/
abbrev Params.wf (p : Params) : Prop :=
  (1 ≤ p.inCap ∧ p.inCap ≤ 2 ^ 28) ∧ (9 ≤ p.outCap ∧ p.outCap ≤ 2 ^ 28) ∧
    (4 ≤ p.bsCap ∧ p.bsCap ≤ 2 ^ 28)

namespace Config

/-- OPEN: decides `IN_CAP` within its bounds. -/
opaque inCapDraw : Nat

/-- OPEN: decides `OUT_CAP` within its bounds. -/
opaque outCapDraw : Nat

/-- OPEN: decides `BS_CAP` within its bounds. -/
opaque bsCapDraw : Nat

/-- OPEN: `DCP_BASE` (20_memory R81). -/
opaque dcpBase : Nat

/-- OPEN: `LATENCY`, the host turns between an accept and its completion step, one draw per accept
(70_reset R456). Finite, with no bound. -/
opaque latency : Nat → Nat

/-- The value of an unspecified byte a host read returns, one draw per byte read (93 U2, U3). -/
opaque freeByte : Nat → Byte

/-- The parameters of the machine that resets. Each capacity is any value within the bounds of
00_scope R7, unknown which. -/
def params : Params :=
  { inCap := inCapDraw % 2 ^ 28 + 1
    outCap := outCapDraw % (2 ^ 28 - 8) + 9
    bsCap := bsCapDraw % (2 ^ 28 - 3) + 4
    dcpBase := dcpBase }

end Config

end Sys2Proof
end

