-- ==== Sys2Proof/Machine/State.lean ====
section
/-! DEFINITION. The state of DCP-CORE (10_state R30), the inputs the host and the platform make, the two ways
a step can stop, and the state after reset (10_state R50). CMD, BS_WPOS, BS_RPOS, the reserved registers
and the BSW window hold nothing of their own (10_state R34, R42, R43; 20_memory R76) and are no fields. -/

namespace Sys2Proof.Machine

/-- `engine` (10_state R48). -/
inductive Engine where
  /-- No command is in flight. -/
  | idle
  /-- The command with word `w` has been accepted and has not completed. -/
  | busy (w : Word)
  deriving DecidableEq, Repr

/-- The architectural BitStream `BS` (10_state R40). -/
structure BitStream where
  /-- The bits written so far, in order; the write cursor is their number. -/
  bits : List Bool
  /-- The read cursor. -/
  rpos : Nat
  deriving DecidableEq, Repr

/-- A buffer: its bytes that hold a value, addresses strictly rising. An unlisted byte holds none: it is
UNWRITTEN in IN and UNSPECIFIED in OUT (10_state R44, R45). -/
abbrev Memory := List Host.Cell

/-- The error kinds of 60_exceptions R410. -/
inductive ErrorKind where
  | configuration | emptyInput | corruptPayload | underrun | capacity
  deriving DecidableEq, Repr

/-- What comes to the block from outside: one host access (20_memory R80), the polling loop WAIT
(30_encoding R122), or a pulse of the reset input (70_reset R450). Addresses are the host's own
(20_memory R81). -/
inductive HostEvent where
  /-- A host write of `width` bytes; a narrower access carries the low bytes of `data`. -/
  | write (width addr : Nat) (data : Word)
  /-- A host read of `width` bytes. -/
  | read (width addr : Nat)
  /-- `R32 STATUS`, again and again until bit 0 reads 0. -/
  | poll
  /-- The platform's reset input. -/
  | reset
  deriving DecidableEq, Repr

/-- The state of the machine. The first ten fields are the block's own (10_state R30); `params` is its
configuration, which no step changes; the last four are the model's. -/
structure State where
  /-- `engine` (10_state R48). -/
  engine : Engine
  /-- `STATUS` (10_state R35). -/
  status : Word
  /-- `ERRINFO` (10_state R36). -/
  errinfo : Word
  /-- `ARG0` (10_state R37). -/
  arg0 : Word
  /-- `RESULT` (10_state R38). -/
  result : Word
  /-- `IN_LEN` (10_state R39). -/
  inLen : Word
  /-- `OUT_LEN` (10_state R41). -/
  outLen : Word
  /-- `BS` (10_state R40). -/
  bs : BitStream
  /-- `IN` (10_state R44), by offset. -/
  input : Memory
  /-- `OUT` (10_state R45), by offset. -/
  output : Memory
  /-- The OPEN parameters of 00_scope R7, fixed for the machine. -/
  params : Params
  /-- MODEL: host turns left before the completion step of a busy engine (70_reset R456). -/
  wait : Nat
  /-- MODEL: index of the next free value. -/
  fresh : Nat
  /-- MODEL: what host and platform do next, in order (20_memory R83). -/
  pending : List HostEvent
  /-- MODEL: the values the host's reads returned, newest first. -/
  replies : List Word
  deriving DecidableEq, Repr

/-- Why a step stops with a fault. -/
inductive Fault where
  /-- A command read the UNWRITTEN byte of IN at this offset. Raised by BS.LOAD and the four encodes; the
  spec gives the case no result and asks a model to fault (60_exceptions R417, 93 U4). SAFE: a run that
  faults supports no claim about what the block does there. -/
  | unwrittenInput (offset : Nat)
  deriving DecidableEq, Repr

/-- Why a step is refused. -/
inductive Refusal where
  /-- The instruction has no meaning yet; raised by no arm, since every instruction has one. SAFE. -/
  | notModelled (mnemonic : String)
  deriving DecidableEq, Repr

/-- The state after reset of a machine with the given parameters (10_state R50). The model's own fields
start at 0 and empty (log 13). -/
def State.resetWith (p : Params) : State :=
  { engine := .idle
    status := 0x00000000
    errinfo := 0x00000000
    arg0 := 0x00000000
    result := 0x00000000
    inLen := 0x00000000
    outLen := 0x00000000
    bs := { bits := [], rpos := 0 }
    input := []
    output := []
    params := p
    wait := 0
    fresh := 0
    pending := []
    replies := [] }

/-- The machine right after reset, with the OPEN parameters at unknown values within their bounds. -/
def State.reset : State := State.resetWith Config.params

end Sys2Proof.Machine
end

