-- ==== Sys2Proof/Machine/Flags.lean ====
section
/-! DEFINITION. STATUS, the block's only flags (10_state R35, R49): its fields and the words that accept,
success and failure write (40_bitstream R150, R151; 60_exceptions R410, R412). -/

namespace Sys2Proof.Machine

/-- `code(E)` (60_exceptions R410). -/
def ErrorKind.code : ErrorKind → Nat
  | .configuration => 1
  | .emptyInput => 2
  | .corruptPayload => 3
  | .underrun => 4
  | .capacity => 5

/-- STATUS after accept: BUSY (40_bitstream R150). -/
def statusBusy : Word := 0x00000001

/-- STATUS after success: DONE (40_bitstream R151). -/
def statusDone : Word := 0x00000002

/-- STATUS after failure: ERR and ERRCODE (60_exceptions R412). -/
def statusError (e : ErrorKind) : Word := 0x00000004 ||| BitVec.ofNat 32 (e.code <<< 8)

/-- Field `BUSY`, bit 0 (10_state R35). -/
def busyFlag (status : Word) : Bool := status.getLsbD 0

/-- Field `DONE`, bit 1 (10_state R35). -/
def doneFlag (status : Word) : Bool := status.getLsbD 1

/-- Field `ERR`, bit 2 (10_state R35). -/
def errFlag (status : Word) : Bool := status.getLsbD 2

/-- Field `ERRCODE`, bits 10:8 (10_state R35). -/
def errcodeField (status : Word) : BitVec 3 := status.extractLsb' 8 3

end Sys2Proof.Machine
end

