-- ==== Sys2Proof/Machine/Bits.lean ====
section
/-! DEFINITION. Bit and byte sequences (00_scope R10 to R12, 40_bitstream R155). Stream bit i is bit
7 - (i mod 8) of byte i div 8. -/

namespace Sys2Proof.Machine

/-- `ceil8(n)`, the bytes that n bits take (00_scope R10). -/
def ceil8 (n : Nat) : Nat := (n + 7) / 8

/-- `bitlen(v)`, the bits of the numeral of v without leading zeros (00_scope R10). -/
def bitlen (v : Nat) : Nat := if v = 0 then 0 else Nat.log2 v + 1

/-- `clog2(b)` for b at least 1, the least k with 2^k at least b (00_scope R10). -/
def clog2 (b : Nat) : Nat := bitlen (b - 1)

/-- `msb_bits(v, n)`, the low n bits of v, most significant first (00_scope R11). -/
def msbBits (v : Nat) : Nat → List Bool
  | 0 => []
  | n + 1 => v.testBit n :: msbBits v n

/-- `val(s)`, the number whose numeral is s, first bit most significant (00_scope R11). -/
def bitsVal (s : List Bool) : Nat := s.foldl (fun v b => 2 * v + b.toNat) 0

/-- `be_n(v)`, v as n bytes, most significant first (00_scope R12). -/
def beBytes (v : Nat) : Nat → List Byte
  | 0 => []
  | n + 1 => BitVec.ofNat 8 (v / 256 ^ n) :: beBytes v n

/-- `unbe(bytes)`, the inverse of `be` (00_scope R12). -/
def unbe (bytes : List Byte) : Nat := bytes.foldl (fun v b => 256 * v + b.toNat) 0

/-- Byte j of `pack(s)`; positions at or past the end contribute 0, so a byte past the end is 0
(00_scope R12, 20_memory R76). -/
def streamByte (s : List Bool) (j : Nat) : Byte :=
  BitVec.ofNat 8 (bitsVal ((List.range 8).map fun i => s.getD (8 * j + i) false))

/-- `pack(s)`, the bits as bytes, the last one zero-padded (00_scope R12). -/
def pack (s : List Bool) : List Byte := (List.range (ceil8 s.length)).map (streamByte s)

/-- The first c bits of a byte sequence, most significant first within each byte (40_bitstream R165,
48_reference_decoders R363). -/
def unpack (bytes : List Byte) (c : Nat) : List Bool :=
  (List.range c).map fun i => (bytes.getD (i / 8) 0).getLsbD (7 - i % 8)

end Sys2Proof.Machine
end

