-- ==== Sys2Proof/Machine/Ops.lean ====
section
/-! DEFINITION. The shared operations every command ends in: success, failure (the block's whole "trap
entry", 60_exceptions R425), the capacity check of an encode, reset and accept. There is no return from a
trap: ERR stays until the next accept clears it (60_exceptions R426). -/

namespace Sys2Proof.Machine

/-- The outcome of a step of this machine. -/
abbrev Result := Host.Outcome State Fault Refusal

/-- `complete()` (40_bitstream R151). -/
def State.complete (s : State) : State := { s with engine := .idle, status := statusDone }

/-- `raise E(w)`: failed completion with no other effect (60_exceptions R412, R413, R415). -/
def State.raise (e : ErrorKind) (w : Word) (s : State) : State :=
  { s with engine := .idle, status := statusError e, errinfo := w }

/-- Failed completion of a legal encode: OUT_LEN becomes 0 and every byte of OUT unspecified
(60_exceptions R414). -/
def State.raiseEncode (e : ErrorKind) (w : Word) (s : State) : State :=
  { s.raise e w with outLen := 0, output := [] }

/-- Accept of a command word (40_bitstream R150). The model also draws the host turns until its
completion step (70_reset R456). -/
def State.accept (w : Word) (s : State) : State :=
  { s with engine := .busy w, status := statusBusy, wait := Config.latency s.fresh,
           fresh := s.fresh + 1 }

/-- Reset of the block (70_reset R450, R451): everything of its own at the values of 10_state R50.
Configuration, the inputs still to come, the host's replies and the free values stand outside it. -/
def State.resetPulse (s : State) : State :=
  { State.resetWith s.params with fresh := s.fresh, pending := s.pending, replies := s.replies }

/-- The modifier check of 30_encoding R104 (c) before a command's own effect: an illegal word fails with
ConfigurationError and no other effect (60_exceptions R413, R416). -/
def checked (i : Instr) (s : State) (run : Result) : Result :=
  match i.check with
  | some _ => .next (s.raise .configuration (encode i))
  | none => run

/-- Success of an encode with payload P: OUT holds P and nothing else, OUT_LEN its length
(30_encoding R110; 10_state R41, R45). -/
def State.storePayload (P : List Byte) (s : State) : State :=
  { s.complete with outLen := BitVec.ofNat 32 P.length, output := Memory.ofBytes 0 P }

/-- The capacity check of an encode, then its success (30_encoding R113). -/
def State.finishEncode (w : Word) (P : List Byte) (s : State) : State :=
  if P.length > s.params.outCap then s.raiseEncode .capacity w else s.storePayload P

end Sys2Proof.Machine
end

