-- ==== Sys2Proof/Machine/BitStream.lean ====
section
/-! DEFINITION. NOP and the BitStream commands (40_bitstream R160 to R165). -/

namespace Sys2Proof.Machine

/-- The write cursor `wpos` (10_state R40). -/
abbrev BitStream.wpos (b : BitStream) : Nat := b.bits.length

/-- `NOP` (40_bitstream R160). -/
def execNop (s : State) : Result := .next s.complete

/-- `BS.CLEAR` (40_bitstream R161). -/
def execBsClear (s : State) : Result := .next { s.complete with bs := { bits := [], rpos := 0 } }

/-- `BS.WRITE n` (40_bitstream R162). -/
def execBsWrite (n : Byte) (s : State) : Result :=
  checked (.bsWrite n) s <|
    if s.bs.wpos + n.toNat > 8 * s.params.bsCap then .next (s.raise .capacity (encode (.bsWrite n)))
    else .next { s.complete with bs := { s.bs with bits := s.bs.bits ++ msbBits s.arg0.toNat n.toNat } }

/-- `BS.READ n` (40_bitstream R163). -/
def execBsRead (n : Byte) (s : State) : Result :=
  checked (.bsRead n) s <|
    if s.bs.rpos + n.toNat > s.bs.wpos then .next (s.raise .underrun (encode (.bsRead n)))
    else
      .next { s.complete with
        result := BitVec.ofNat 32 (bitsVal ((s.bs.bits.drop s.bs.rpos).take n.toNat))
        bs := { s.bs with rpos := s.bs.rpos + n.toNat } }

/-- `BS.FINISH` (40_bitstream R164). -/
def execBsFinish (s : State) : Result :=
  .next { s.complete with result := BitVec.ofNat 32 s.bs.wpos }

/-- `BS.LOAD` (40_bitstream R165; the UNWRITTEN case after all three checks, 60_exceptions R417). -/
def execBsLoad (s : State) : Result :=
  if s.inLen.toNat > s.params.inCap then .next (s.raise .configuration (encode .bsLoad))
  else if s.arg0.toNat > 8 * s.inLen.toNat then .next (s.raise .configuration (encode .bsLoad))
  else if s.arg0.toNat > 8 * s.params.bsCap then .next (s.raise .capacity (encode .bsLoad))
  else
    match s.input.readBytes 0 (ceil8 s.arg0.toNat) with
    | .error a => .fault (.unwrittenInput a)
    | .ok bytes => .next { s.complete with bs := { bits := unpack bytes s.arg0.toNat, rpos := 0 } }

end Sys2Proof.Machine
end

