-- ==== Sys2Proof/Machine/Operands.lean ====
section
/-! DEFINITION. Operand assembly (30_encoding R105): the input of an encode, in the order of checks of
60_exceptions R416 and R417, and the frame every encode runs in. -/

namespace Sys2Proof.Machine

/-- An encode of word `w`, where `payload` gives the payload of an input or the error kind its own checks
raise. First IN_LEN against IN_CAP, then the input is formed (a byte that is UNWRITTEN faults), then the
codec's own checks, then the capacity check (60_exceptions R416, R417). -/
def encodeWith (w : Word) (payload : List Byte → Except ErrorKind (List Byte)) (s : State) : Result :=
  if s.inLen.toNat > s.params.inCap then .next (s.raiseEncode .configuration w)
  else
    match s.input.readBytes 0 s.inLen.toNat with
    | .error a => .fault (.unwrittenInput a)
    | .ok x =>
      match payload x with
      | .error e => .next (s.raiseEncode e w)
      | .ok P => .next (s.finishEncode w P)

end Sys2Proof.Machine
end

