-- ==== Sys2Proof/Machine/Payload.lean ====
section
/-! DEFINITION. The payload container (30_encoding R110 to R112) and the algorithm ids (R111). -/

namespace Sys2Proof.Machine

/-- The codecs of the block (30_encoding R111). -/
inductive Codec where
  | rle | huffman | golomb | lzw
  deriving DecidableEq, Repr

/-- `ALG(c)` (30_encoding R111). -/
def Codec.algorithmId : Codec → Byte
  | .rle => 0x01
  | .huffman => 0x02
  | .golomb => 0x03
  | .lzw => 0x04

/-- The payload of an input of n bytes (30_encoding R110). -/
def container (c : Codec) (n : Nat) (metadata body : List Byte) : List Byte :=
  c.algorithmId :: beBytes n 4 ++ beBytes metadata.length 4 ++ metadata ++ body

/-- The payload of a bit-packed body: the metadata begins with `body_bits` (30_encoding R112). -/
def packedContainer (c : Codec) (n : Nat) (rest : List Byte) (s : List Bool) : List Byte :=
  container c n (beBytes s.length 4 ++ rest) (pack s)

end Sys2Proof.Machine
end

