-- ==== Sys2Proof/Machine/Golomb.lean ====
section
/-! DEFINITION. GOL.ENC (44_golomb R280 to R288). -/

namespace Sys2Proof.Machine

/-- `ESTIMATE(x)`: 0.69 times the mean, rounded to nearest, halves up, at least 1 (44_golomb R283). -/
def golombEstimate (x : List Byte) : Nat :=
  if x.length = 0 then 1
  else max 1 ((69 * (x.map BitVec.toNat).sum + 50 * x.length) / (100 * x.length))

/-- The divisor: ARG0 in mode 0, where 0 is a ConfigurationError, the estimate in mode 1
(44_golomb R280, R282, R283). -/
def golombDivisor (mode : Byte) (arg0 : Word) (x : List Byte) : Except ErrorKind Nat :=
  if mode = 0 then (if arg0.toNat = 0 then .error .configuration else .ok arg0.toNat)
  else .ok (golombEstimate x)

/-- The unary part: q ones, then a zero (44_golomb R286). -/
def unaryBits (q : Nat) : List Bool := List.replicate q true ++ [false]

/-- The truncated-binary part of a remainder r below b (44_golomb R287). -/
def truncatedBits (b r : Nat) : List Bool :=
  if r < 2 ^ clog2 b - b then msbBits r (clog2 b - 1) else msbBits (r + (2 ^ clog2 b - b)) (clog2 b)

/-- `GCODE` of a value: quotient in unary, then remainder in truncated binary (44_golomb R284, R288). -/
def golombCode (b v : Nat) : List Bool := unaryBits (v / b) ++ truncatedBits b (v % b)

/-- The private stream of an input (44_golomb R281, R288). -/
def golombBody (b : Nat) (x : List Byte) : List Bool := x.flatMap fun v => golombCode b v.toNat

/-- The GOL.ENC payload: body_bits, b, and the packed codes (44_golomb R285). -/
def golombPayload (b : Nat) (x : List Byte) : List Byte :=
  packedContainer .golomb x.length (beBytes b 4) (golombBody b x)

/-- The divisor check, then the payload (44_golomb R280). -/
def golombEncode (mode : Byte) (arg0 : Word) (x : List Byte) : Except ErrorKind (List Byte) :=
  match golombDivisor mode arg0 x with
  | .error e => .error e
  | .ok b => .ok (golombPayload b x)

/-- `GOL.ENC m` (44_golomb R280). -/
def execGolEnc (m : Byte) (s : State) : Result :=
  checked (.golEnc m) s <| encodeWith (encode (.golEnc m)) (golombEncode m s.arg0) s

end Sys2Proof.Machine
end

