-- ==== Sys2Proof/Machine/Huffman.lean ====
section
/-! DEFINITION. HUF.ENC (43_huffman R230 to R241): frequencies, the tree, the path codes, the payload. -/

namespace Sys2Proof.Machine

/-- The Huffman tree: an internal node owns exactly two children, a leaf holds one byte value
(43_huffman R235). -/
inductive HuffTree where
  | leaf (symbol : Byte)
  | node (left right : HuffTree)
  deriving DecidableEq, Repr

/-- A node of the queue with its key: frequency, then insertion number (43_huffman R233). -/
structure HuffNode where
  freq : Nat
  num : Nat
  tree : HuffTree
  deriving DecidableEq, Repr

/-- `FREQ(x)` at a byte value (43_huffman R231). -/
def frequency (x : List Byte) (s : Byte) : Nat := x.count s

/-- Every byte value, ascending. -/
def allBytes : List Byte := (List.range 256).map (BitVec.ofNat 8)

/-- The present symbols S, ascending (43_huffman R232). -/
def symbols (x : List Byte) : List Byte := allBytes.filter fun s => decide (0 < frequency x s)

/-- Node A comes before node B (43_huffman R233). -/
def HuffNode.before (a b : HuffNode) : Bool :=
  decide (a.freq < b.freq) || (decide (a.freq = b.freq) && decide (a.num < b.num))

/-- The minimum of a queue by 43_huffman R233, and the queue without it. -/
def popMin : List HuffNode → Option (HuffNode × List HuffNode)
  | [] => none
  | a :: q =>
    match popMin q with
    | none => some (a, [])
    | some (m, rest) => if a.before m then some (a, q) else some (m, a :: rest)

/-- The leaves, inserted in ascending symbol order and numbered from 0 (43_huffman R232). -/
def leaves (x : List Byte) : List HuffNode :=
  (symbols x).zipIdx.map fun p => { freq := frequency x p.1, num := p.2, tree := .leaf p.1 }

/-- `steps` combining steps, the next insertion number being t (43_huffman R234): the first node removed
goes left, the second right. -/
def combine : Nat → Nat → List HuffNode → List HuffNode
  | 0, _, q => q
  | steps + 1, t, q =>
    match popMin q with
    | none => []
    | some (a, q₁) =>
      match popMin q₁ with
      | none => [a]
      | some (b, q₂) =>
        combine steps (t + 1)
          ({ freq := a.freq + b.freq, num := t, tree := .node a.tree b.tree } :: q₂)

/-- `PATHS(root)`: each leaf's symbol with the edge bits on its path, left 0, right 1, the root's edge
first (43_huffman R239). -/
def HuffTree.paths : HuffTree → List (Byte × List Bool)
  | .leaf s => [(s, [])]
  | .node l r =>
    l.paths.map (fun p => (p.1, false :: p.2)) ++ r.paths.map (fun p => (p.1, true :: p.2))

/-- The path codes of k at least 2 symbols: exactly k - 1 combining steps, numbered from k
(43_huffman R234, R235, R239). -/
def treeCodes (x : List Byte) : List (Byte × List Bool) :=
  match combine ((symbols x).length - 1) (symbols x).length (leaves x) with
  | root :: _ => root.tree.paths
  | [] => []

/-- The code of a symbol in a list of codes. -/
def codeIn (codes : List (Byte × List Bool)) (s : Byte) : List Bool := (codes.lookup s).getD []

/-- The code table, symbols ascending: empty for no symbol, the code "0" for one, the tree paths for more
(43_huffman R230, R237 to R239). -/
def codeTable (x : List Byte) : List (Byte × List Bool) :=
  match symbols x with
  | [] => []
  | [s] => [(s, [false])]
  | S =>
    let codes := treeCodes x
    S.map fun s => (s, codeIn codes s)

/-- One entry of the serialized table: symbol, code length, code bits (43_huffman R241). -/
def tableEntry (e : Byte × List Bool) : List Byte := e.1 :: BitVec.ofNat 8 e.2.length :: pack e.2

/-- The private stream: the code of each input byte, in input order (43_huffman R240). -/
def hufBody (x : List Byte) : List Bool :=
  let table := codeTable x
  x.flatMap (codeIn table)

/-- The HUF.ENC payload of an input (43_huffman R230, R241). -/
def hufPayload (x : List Byte) : List Byte :=
  packedContainer .huffman x.length
    (beBytes (codeTable x).length 2 ++ (codeTable x).flatMap tableEntry) (hufBody x)

/-- `HUF.ENC` (43_huffman R230). -/
def execHufEnc (s : State) : Result := encodeWith (encode .hufEnc) (fun x => .ok (hufPayload x)) s

end Sys2Proof.Machine
end

