-- ==== Sys2Proof/Machine/Lzw.lean ====
section
/-! DEFINITION. LZW.ENC (45_lzw R320 to R327). The dictionary is the list of its sequences in the order of
their codes, so the next free code is its length (45_lzw R321, R328). -/

namespace Sys2Proof.Machine

/-- The initial dictionary: the 256 one-byte sequences, code c for byte c (45_lzw R321). -/
def lzwInitial : List (List Byte) := (List.range 256).map fun c => [BitVec.ofNat 8 c]

/-- Insertion with the full policy: nothing is inserted once 2^W entries stand (45_lzw R323, R327). -/
def lzwInsert (W : Nat) (D : List (List Byte)) (e : List Byte) : List (List Byte) :=
  if D.length < 2 ^ W then D ++ [e] else D

/-- `D[e]`, the code of a sequence in the dictionary (45_lzw R322). -/
def lzwCode (D : List (List Byte)) (e : List Byte) : Nat := D.findIdx fun d => d == e

/-- What the scan holds between two input bytes: `D`, `cur` and the codes emitted so far (45_lzw R320). -/
structure LzwState where
  dictionary : List (List Byte)
  current : List Byte
  codes : List Nat
  deriving DecidableEq, Repr

/-- The scan before the first input byte (45_lzw R321, R322). -/
def lzwStart : LzwState := { dictionary := lzwInitial, current := [], codes := [] }

/-- The scan of one input byte (45_lzw R322, R323). -/
def lzwStep (W : Nat) (t : LzwState) (c : Byte) : LzwState :=
  if t.dictionary.contains (t.current ++ [c]) then { t with current := t.current ++ [c] }
  else
    { dictionary := lzwInsert W t.dictionary (t.current ++ [c])
      current := [c]
      codes := t.codes ++ [lzwCode t.dictionary t.current] }

/-- The scan after the given input bytes (45_lzw R322). -/
def lzwScan (W : Nat) (x : List Byte) : LzwState := x.foldl (lzwStep W) lzwStart

/-- The codes emitted for an input: those of the scan, then that of a nonempty last sequence
(45_lzw R324). -/
def lzwCodes (W : Nat) (x : List Byte) : List Nat :=
  let t := lzwScan W x
  if t.current.isEmpty then t.codes else t.codes ++ [lzwCode t.dictionary t.current]

/-- `WIDTH(k, W)`: the bits of the k-th emitted code (45_lzw R325). -/
def lzwWidth (k W : Nat) : Nat := bitlen (min (256 + k) (2 ^ W) - 1)

/-- The codes from position k on, each in its width, most significant bit first (45_lzw R325). -/
def lzwPut (W k : Nat) : List Nat → List Bool
  | [] => []
  | c :: codes => msbBits c (lzwWidth k W) ++ lzwPut W (k + 1) codes

/-- The private stream of an input (45_lzw R320). -/
def lzwBody (W : Nat) (x : List Byte) : List Bool := lzwPut W 0 (lzwCodes W x)

/-- The LZW.ENC payload: body_bits, W, overflow policy 0 (stop growing), and the packed codes
(45_lzw R326). -/
def lzwPayload (W : Nat) (x : List Byte) : List Byte :=
  packedContainer .lzw x.length [BitVec.ofNat 8 W, 0x00] (lzwBody W x)

/-- `LZW.ENC W` (45_lzw R320). -/
def execLzwEnc (w : Byte) (s : State) : Result :=
  checked (.lzwEnc w) s <|
    encodeWith (encode (.lzwEnc w)) (fun x => .ok (lzwPayload w.toNat x)) s

end Sys2Proof.Machine
end

