-- ==== Sys2Proof/Machine/Rle.lean ====
section
/-! DEFINITION. RLE.ENC (42_rle R200 to R204). -/

namespace Sys2Proof.Machine

/-- The maximal runs of the input, in input order, as value and length (42_rle R201). -/
def runs : List Byte → List (Byte × Nat)
  | [] => []
  | v :: x =>
    match runs x with
    | [] => [(v, 1)]
    | (v', r) :: rest => if v = v' then (v, r + 1) :: rest else (v, 1) :: (v', r) :: rest

/-- The chunks of a run of length r at least 1: q of length 255, then one of 1 to 255 (42_rle R202). -/
def runChunks (run : Byte × Nat) : List (Byte × Nat) :=
  List.replicate ((run.2 - 1) / 255) (run.1, 255) ++ [(run.1, run.2 - 255 * ((run.2 - 1) / 255))]

/-- A chunk as its two bytes: value, then run length (42_rle R203). -/
def chunkBytes (c : Byte × Nat) : List Byte := [c.1, BitVec.ofNat 8 c.2]

/-- The chunks of an input, in order (42_rle R200). -/
def rleChunks (x : List Byte) : List (Byte × Nat) := (runs x).flatMap runChunks

/-- The RLE payload of an input: no metadata, the chunks as body (42_rle R203). -/
def rlePayload (x : List Byte) : List Byte :=
  container .rle x.length [] ((rleChunks x).flatMap chunkBytes)

/-- `RLE.ENC` (42_rle R200). -/
def execRleEnc (s : State) : Result := encodeWith (encode .rleEnc) (fun x => .ok (rlePayload x)) s

end Sys2Proof.Machine
end

