-- ==== Sys2Proof/Machine/Dispatch.lean ====
section
/-! DEFINITION. The meaning of each command: the effect of its completion step (40_bitstream R152). -/

namespace Sys2Proof.Machine

def exec (i : Instr) (s : State) : Host.Outcome State Fault Refusal :=
  match i with
  | .nop => Sys2Proof.Machine.execNop s
  | .bsClear => Sys2Proof.Machine.execBsClear s
  | .bsWrite n => Sys2Proof.Machine.execBsWrite n s
  | .bsRead n => Sys2Proof.Machine.execBsRead n s
  | .bsFinish => Sys2Proof.Machine.execBsFinish s
  | .bsLoad => Sys2Proof.Machine.execBsLoad s
  | .rleEnc => Sys2Proof.Machine.execRleEnc s
  | .hufEnc => Sys2Proof.Machine.execHufEnc s
  | .golEnc m => Sys2Proof.Machine.execGolEnc m s
  | .lzwEnc w => Sys2Proof.Machine.execLzwEnc w s

end Sys2Proof.Machine
end

