-- ==== Sys2Proof/Machine/HostBus.lean ====
section
/-! DEFINITION. The host's accesses (20_memory R70 to R76, 10_state R33 to R51): the four spaces, the register
map, what a read returns and what a write does, and the effect of one host event. -/

namespace Sys2Proof.Machine

/-- The spaces of 20_memory R70; `inert` are 0x4 to 0xF. -/
inductive Space where
  | reg | input | output | bsw | inert
  deriving DecidableEq, Repr

/-- The space bits 31:28 of a block address select (20_memory R70). -/
def spaceOf (a : Word) : Space :=
  match (a.extractLsb' 28 4).toNat with
  | 0 => .reg
  | 1 => .input
  | 2 => .output
  | 3 => .bsw
  | _ => .inert

/-- The offset within its space, bits 27:0 (20_memory R70). -/
def offsetOf (a : Word) : Nat := (a.extractLsb' 0 28).toNat

/-- The registers of 10_state R33. -/
inductive Reg where
  | cmd | status | errinfo | arg0 | result | inLen | outLen | bsWpos | bsRpos
  deriving DecidableEq, Repr

/-- The register offsets of 10_state R33. -/
def Reg.offset : Reg → Nat
  | .cmd => 0x00
  | .status => 0x04
  | .errinfo => 0x08
  | .arg0 => 0x0C
  | .result => 0x10
  | .inLen => 0x14
  | .outLen => 0x18
  | .bsWpos => 0x1C
  | .bsRpos => 0x20

/-- Every register, by rising offset. -/
def Reg.all : List Reg :=
  [.cmd, .status, .errinfo, .arg0, .result, .inLen, .outLen, .bsWpos, .bsRpos]

/-- The register at an offset; none at the reserved offsets 0x24 to 0x3C (10_state R33, R43). -/
def Reg.atOffset (off : Nat) : Option Reg := Reg.all.find? fun r => r.offset == off

/-- What a register reads as (10_state R34 to R42); CMD reads zero, the two cursors are views of BS. -/
def State.regValue (s : State) : Reg → Word
  | .cmd => 0x00000000
  | .status => s.status
  | .errinfo => s.errinfo
  | .arg0 => s.arg0
  | .result => s.result
  | .inLen => s.inLen
  | .outLen => s.outLen
  | .bsWpos => BitVec.ofNat 32 s.bs.bits.length
  | .bsRpos => BitVec.ofNat 32 s.bs.rpos

/-- A host write of a register (10_state R34, R37, R39, R51): CMD accepts while IDLE and drops while BUSY
(70_reset R454), ARG0 and IN_LEN store while IDLE and ignore while BUSY (70_reset R453), the read-only
registers ignore every write. -/
def State.writeReg (s : State) (v : Word) : Reg → State
  | .cmd => if s.engine = .idle then s.accept v else s
  | .arg0 => if s.engine = .idle then { s with arg0 := v } else s
  | .inLen => if s.engine = .idle then { s with inLen := v } else s
  | .status => s
  | .errinfo => s
  | .result => s
  | .outLen => s
  | .bsWpos => s
  | .bsRpos => s

/-- A register access is defined (20_memory R71). -/
def regDefined (width off : Nat) : Bool := decide (width = 4 ∧ off % 4 = 0 ∧ off < 0x40)

/-- A window access of a space of the given size is defined (20_memory R73). -/
def windowDefined (width off size : Nat) : Bool :=
  decide ((width = 1 ∨ width = 2 ∨ width = 4) ∧ off % width = 0 ∧ off + width ≤ size)

/-- An IN byte a host read sees; an UNWRITTEN one is a free value (20_memory R74, 93 U3). -/
def State.inputByte (s : State) (draw off : Nat) : Byte :=
  match s.input.read off with
  | some b => b
  | none => Config.freeByte draw

/-- An OUT byte a host read sees: the payload below OUT_LEN while IDLE, else a free value
(20_memory R75, 93 U2). -/
def State.outputByte (s : State) (draw off : Nat) : Byte :=
  if s.engine = .idle ∧ off < s.outLen.toNat then
    match s.output.read off with
    | some b => b
    | none => Config.freeByte draw
  else Config.freeByte draw

/-- A BSW byte a host read sees: the packed stream while IDLE, zero past its end, a free value while BUSY
(20_memory R76, 93 U2). -/
def State.bswByte (s : State) (draw off : Nat) : Byte :=
  if s.engine = .idle then streamByte s.bs.bits off else Config.freeByte draw

/-- The value of a defined window read, big-endian: byte j of the access is draw number j of it
(20_memory R73). -/
def windowValue (byte : Nat → Nat → Byte) (fresh width off : Nat) : Word :=
  BitVec.ofNat 32 (unbe ((List.range width).map fun j => byte (fresh + j) (off + j)))

/-- The value a host read returns (20_memory R71 to R76); an inert read returns zero (R72). -/
def State.readValue (s : State) (width : Nat) (a : Word) : Word :=
  match spaceOf a with
  | .reg =>
    if regDefined width (offsetOf a) then
      match Reg.atOffset (offsetOf a) with
      | some r => s.regValue r
      | none => 0x00000000
    else 0x00000000
  | .input =>
    if windowDefined width (offsetOf a) s.params.inCap then
      windowValue s.inputByte s.fresh width (offsetOf a)
    else 0x00000000
  | .output =>
    if windowDefined width (offsetOf a) s.params.outCap then
      windowValue s.outputByte s.fresh width (offsetOf a)
    else 0x00000000
  | .bsw =>
    if windowDefined width (offsetOf a) s.params.bsCap then
      windowValue s.bswByte s.fresh width (offsetOf a)
    else 0x00000000
  | .inert => 0x00000000

/-- A host read of a block address: the host gets the value; of the state only the model's own fields
change (20_memory R80, 10_state R51). -/
def State.busRead (s : State) (width : Nat) (a : Word) : State :=
  { s with replies := s.readValue width a :: s.replies, fresh := s.fresh + width }

/-- A host write of a block address (20_memory R71 to R76). OUT, BSW and the inert addresses ignore it. -/
def State.busWrite (s : State) (width : Nat) (a : Word) (data : Word) : State :=
  match spaceOf a with
  | .reg =>
    if regDefined width (offsetOf a) then
      match Reg.atOffset (offsetOf a) with
      | some r => s.writeReg data r
      | none => s
    else s
  | .input =>
    if windowDefined width (offsetOf a) s.params.inCap = true ∧ s.engine = .idle then
      { s with input := s.input.writeBytes (offsetOf a) (beBytes data.toNat width) }
    else s
  | .output => s
  | .bsw => s
  | .inert => s

/-- The block address of a host address, if the access reaches the block (20_memory R81). -/
def Params.blockAddress (p : Params) (hostAddr : Nat) : Option Word :=
  if p.dcpBase ≤ hostAddr ∧ hostAddr < p.dcpBase + 2 ^ 32 then
    some (BitVec.ofNat 32 (hostAddr - p.dcpBase))
  else none

/-- The block address of STATUS (10_state R33). -/
def statusAddress : Word := 0x00000004

/-- One turn of WAIT: a read of STATUS, and the loop stays while bit 0 read 1 (30_encoding R122). -/
def State.pollTurn (s : State) : State :=
  if busyFlag s.status then
    { s.busRead 4 statusAddress with pending := .poll :: s.pending }
  else s.busRead 4 statusAddress

/-- The effect of one host event. An access that does not reach the block leaves it as it is. -/
def State.perform (s : State) : HostEvent → State
  | .write width addr data =>
    match Params.blockAddress s.params addr with
    | some a => s.busWrite width a data
    | none => s
  | .read width addr =>
    match Params.blockAddress s.params addr with
    | some a => s.busRead width a
    | none => s
  | .poll => s.pollTurn
  | .reset => s.resetPulse

/-- One host turn: the first pending event happens; with none pending the host does nothing. -/
def State.hostTurn (s : State) : State :=
  match s.pending with
  | [] => s
  | e :: rest => ({ s with pending := rest } : State).perform e

end Sys2Proof.Machine
end

