-- ==== Sys2Proof/Machine/Cycle.lean ====
section
/-! DEFINITION. Who takes the next step (00_scope R6, 70_reset R456) and the engine's completion step
(40_bitstream R152). -/

namespace Sys2Proof.Machine

/-- The completion step of `engine = BUSY(w)`: the command w names, or the failure of an illegal word
(40_bitstream R152; 30_encoding R104; 60_exceptions R413). -/
def completionStep (w : Word) (s : State) : Result :=
  match decode w with
  | .ok i => exec i s
  | .error _ => .next (s.raise .configuration w)

/-- One step of the machine: a host turn while IDLE, a host turn while a busy engine has latency left, and
the completion step once it has none. -/
def cycle (s : State) : Result :=
  match s.engine with
  | .idle => .next s.hostTurn
  | .busy w =>
    match s.wait with
    | 0 => completionStep w s
    | k + 1 => .next ({ s with wait := k } : State).hostTurn

/-- The word an instruction's bits make, numbered as opcode_table.json numbers them: every command is one
32-bit word (30_encoding R101). -/
def tableWord (nbits w : Nat) : Word := BitVec.ofNat 32 (w % 2 ^ nbits)

end Sys2Proof.Machine
end

