-- ==== Sys2Proof/Machine/Step.lean ====
section
/-! DEFINITION. The step of the machine, and the state in which a given command word is the one to run. -/

namespace Sys2Proof.Machine

/-- One step: of the host or of the engine (00_scope R6). -/
def step (s : State) : Host.Outcome State Fault Refusal := cycle s

/-- The state in which the engine has accepted the given word and takes its completion step next: what a
host write of that word to CMD leads to (40_bitstream R150), with no latency left (70_reset R456). -/
def State.withFetchWord (s : State) (nbits w : Nat) : State :=
  { s with engine := .busy (tableWord nbits w), status := statusBusy, wait := 0 }

end Sys2Proof.Machine
end

