-- ==== Sys2Proof/Machine/HostProgram.lean ====
section
/-! DEFINITION. The host notation of 30_encoding R120 to R122: each line as the host events it stands for, at
the host addresses of a block placed at `base` (20_memory R81). -/

namespace Sys2Proof.Machine

/-- `W32 REG, v`. -/
def hostW32 (base : Nat) (r : Reg) (v : Word) : List HostEvent := [.write 4 (base + r.offset) v]

/-- `R32 REG`. -/
def hostR32 (base : Nat) (r : Reg) : List HostEvent := [.read 4 (base + r.offset)]

/-- The block address of offset 0 of a window (20_memory R70). -/
def Space.origin : Space → Nat
  | .reg => 0x00000000
  | .input => 0x10000000
  | .output => 0x20000000
  | .bsw => 0x30000000
  | .inert => 0x40000000

/-- `W8 S+a, v`, `W16 S+a, v`, `W32 S+a, v`, by width in bytes. -/
def hostStore (base : Nat) (S : Space) (width a : Nat) (v : Word) : List HostEvent :=
  [.write width (base + S.origin + a) v]

/-- `R8 S+a`, `R16 S+a`, `R32 S+a`, by width in bytes. -/
def hostLoad (base : Nat) (S : Space) (width a : Nat) : List HostEvent :=
  [.read width (base + S.origin + a)]

/-- `CMD m n`: a write of the command's word to CMD (30_encoding R121). -/
def hostCmd (base : Nat) (i : Instr) : List HostEvent := hostW32 base .cmd (encode i)

/-- `WAIT` (30_encoding R122). -/
def hostWait : List HostEvent := [.poll]

/-- The byte writes of LOADIN, from offset a on. -/
def hostLoadBytes (base a : Nat) : List Byte → List HostEvent
  | [] => []
  | b :: bs => hostStore base .input 1 a (b.setWidth 32) ++ hostLoadBytes base (a + 1) bs

/-- `LOADIN b0 … b(k-1)` (30_encoding R122). -/
def hostLoadIn (base : Nat) (bytes : List Byte) : List HostEvent :=
  hostLoadBytes base 0 bytes ++ hostW32 base .inLen (BitVec.ofNat 32 bytes.length)

/-- `BS.PUT v, n` (30_encoding R122). -/
def hostBsPut (base : Nat) (v : Word) (n : Byte) : List HostEvent :=
  hostW32 base .arg0 v ++ hostCmd base (.bsWrite n) ++ hostWait

/-- `BS.GET n` (30_encoding R122). -/
def hostBsGet (base : Nat) (n : Byte) : List HostEvent :=
  hostCmd base (.bsRead n) ++ hostWait ++ hostR32 base .result

end Sys2Proof.Machine
end

