-- ==== Sys2Proof/Machine/RefDecoders.lean ====
section
/-! DEFINITION. The reference decoders (48_reference_decoders R360 to R372): functions of a payload, no
commands and no steps of the machine. Each fails with the first check its pseudocode reaches (R372). -/

namespace Sys2Proof.Machine

/-- The errors a decoder returns (48 R360). -/
inductive DecodeFailure where
  | corruptPayload | underrun
  deriving DecidableEq, Repr

/-- A decoder's result: the whole output or one error, never a part of the output (48 R361). -/
abbrev Decoded (α : Type) := Except DecodeFailure α

/-- `PARSE(P, a)`: original length, metadata and body of a payload that carries algorithm id a (48 R362). -/
def parsePayload (P : List Byte) (a : Byte) : Decoded (Nat × List Byte × List Byte) :=
  if P.length < 9 then .error .corruptPayload
  else if P.getD 0 0 ≠ a then .error .corruptPayload
  else
    let n := unbe ((P.drop 1).take 4)
    let m := unbe ((P.drop 5).take 4)
    if 9 + m > P.length then .error .corruptPayload
    else .ok (n, (P.drop 9).take m, P.drop (9 + m))

/-- `BODYBITS(meta, body)`: the bit sequence of a bit-packed body (48 R363). -/
def bodyBits (metadata body : List Byte) : Decoded (List Bool) :=
  let nb := unbe (metadata.take 4)
  if body.length < ceil8 nb then .error .underrun
  else if body.length > ceil8 nb then .error .corruptPayload
  else .ok (unpack body nb)

/-- `READ(t, m)` on the bits still unread: the value of the next m and what is left (48 R363). -/
def readBits (t : List Bool) (m : Nat) : Decoded (Nat × List Bool) :=
  if t.length < m then .error .underrun else .ok (bitsVal (t.take m), t.drop m)

/-- The pairs of an RLE body expanded after the output y so far, for original length n (48 R364). -/
def rleExpand (n : Nat) : List Byte → List Byte → Decoded (List Byte)
  | v :: r :: rest, y =>
    if r = 0 then .error .corruptPayload
    else if (y ++ List.replicate r.toNat v).length > n then .error .corruptPayload
    else rleExpand n rest (y ++ List.replicate r.toNat v)
  | [_], _ => .error .underrun
  | [], y => if y.length ≠ n then .error .corruptPayload else .ok y

/-- `DEC_RLE` (48 R364). -/
def decRle (P : List Byte) : Decoded (List Byte) :=
  match parsePayload P Codec.rle.algorithmId with
  | .error e => .error e
  | .ok (n, metadata, body) =>
    if metadata.length ≠ 0 then .error .corruptPayload
    else if body.length % 2 = 1 then .error .underrun
    else rleExpand n body []

/-- The entries of a serialized code table, `last` the symbol before; all of the bytes are used
(48 R365). -/
def parseTable : Nat → Option Byte → List Byte → Decoded (List (Byte × List Bool))
  | 0, _, m => if m.isEmpty then .ok [] else .error .corruptPayload
  | k + 1, last, sym :: len :: m =>
    if (last.any fun l => decide (sym.toNat ≤ l.toNat)) then .error .corruptPayload
    else if len = 0 then .error .corruptPayload
    else if ceil8 len.toNat > m.length then .error .corruptPayload
    else if ((unpack m (8 * ceil8 len.toNat)).drop len.toNat).any id then .error .corruptPayload
    else
      match parseTable k (some sym) (m.drop (ceil8 len.toNat)) with
      | .error e => .error e
      | .ok table => .ok ((sym, unpack m len.toNat) :: table)
  | _ + 1, _, _ => .error .corruptPayload

/-- No code of the table is a prefix of another entry's code (48 R365). -/
def prefixFree : List (Byte × List Bool) → Bool
  | [] => true
  | e :: table =>
    (table.all fun f => !(e.2.isPrefixOf f.2) && !(f.2.isPrefixOf e.2)) && prefixFree table

/-- A child of a node of the trie of the codes (48 R366). A node is the list of the entries below it, each
with the rest of its code; a child with no entry does not exist. -/
def trieChild (bit : Bool) (node : List (Byte × List Bool)) : List (Byte × List Bool) :=
  node.filterMap fun e =>
    match e.2 with
    | b :: rest => if b = bit then some (e.1, rest) else none
    | [] => none

/-- The symbol of a node that is a leaf: one where a code ends (48 R366). -/
def leafSymbol (node : List (Byte × List Bool)) : Option Byte :=
  (node.find? fun e => e.2.isEmpty).map Prod.fst

/-- One walk from a node to a leaf (48 R367): its symbol and the bits left. -/
def walkTrie : List (Byte × List Bool) → List Bool → Decoded (Byte × List Bool)
  | _, [] => .error .underrun
  | node, bit :: t =>
    let child := trieChild bit node
    if child.isEmpty then .error .corruptPayload
    else
      match leafSymbol child with
      | some s => .ok (s, t)
      | none => walkTrie child t

/-- n walks from the root (48 R367). -/
def walkMany (root : List (Byte × List Bool)) : Nat → List Bool → Decoded (List Byte)
  | 0, _ => .ok []
  | n + 1, t =>
    match walkTrie root t with
    | .error e => .error e
    | .ok (s, t') =>
      match walkMany root n t' with
      | .error e => .error e
      | .ok y => .ok (s :: y)

/-- `DEC_HUF` (48 R365 to R367). -/
def decHuf (P : List Byte) : Decoded (List Byte) :=
  match parsePayload P Codec.huffman.algorithmId with
  | .error e => .error e
  | .ok (n, metadata, body) =>
    if metadata.length < 6 then .error .corruptPayload
    else if unbe ((metadata.drop 4).take 2) > 256 then .error .corruptPayload
    else
      match parseTable (unbe ((metadata.drop 4).take 2)) none (metadata.drop 6) with
      | .error e => .error e
      | .ok table =>
        if prefixFree table = false then .error .corruptPayload
        else if n > 0 ∧ table.isEmpty then .error .corruptPayload
        else
          match bodyBits metadata body with
          | .error e => .error e
          | .ok t => walkMany table n t

/-- The unary part of a Golomb code, q ones read so far: a run no byte could need is corrupt (48 R368). -/
def readUnary (b : Nat) : Nat → List Bool → Decoded (Nat × List Bool)
  | _, [] => .error .underrun
  | q, false :: t => .ok (q, t)
  | q, true :: t => if (q + 1) * b > 255 then .error .corruptPayload else readUnary b (q + 1) t

/-- The remainder of a Golomb code (48 R368). -/
def readRemainder (b : Nat) (t : List Bool) : Decoded (Nat × List Bool) :=
  if clog2 b = 0 then .ok (0, t)
  else
    match readBits t (clog2 b - 1) with
    | .error e => .error e
    | .ok (z, t') =>
      if z < 2 ^ clog2 b - b then .ok (z, t')
      else
        match readBits t' 1 with
        | .error e => .error e
        | .ok (last, t'') => .ok (2 * z + last - (2 ^ clog2 b - b), t'')

/-- One value of a Golomb body (48 R368). -/
def readGolomb (b : Nat) (t : List Bool) : Decoded (Byte × List Bool) :=
  match readUnary b 0 t with
  | .error e => .error e
  | .ok (q, t') =>
    match readRemainder b t' with
    | .error e => .error e
    | .ok (r, t'') =>
      if q * b + r > 255 then .error .corruptPayload else .ok (BitVec.ofNat 8 (q * b + r), t'')

/-- n values of a Golomb body (48 R368). -/
def readGolombs (b : Nat) : Nat → List Bool → Decoded (List Byte)
  | 0, _ => .ok []
  | n + 1, t =>
    match readGolomb b t with
    | .error e => .error e
    | .ok (v, t') =>
      match readGolombs b n t' with
      | .error e => .error e
      | .ok y => .ok (v :: y)

/-- `DEC_GOL` (48 R368). -/
def decGol (P : List Byte) : Decoded (List Byte) :=
  match parsePayload P Codec.golomb.algorithmId with
  | .error e => .error e
  | .ok (n, metadata, body) =>
    if metadata.length ≠ 8 then .error .corruptPayload
    else if unbe (metadata.drop 4) = 0 then .error .corruptPayload
    else
      match bodyBits metadata body with
      | .error e => .error e
      | .ok t => readGolombs (unbe (metadata.drop 4)) n t

/-- The sequence a code names in the decoder's dictionary D, `prev` the sequence before: the KwKwK case
names the entry being defined (48 R369). -/
def lzwEntry (W : Nat) (D : List (List Byte)) (prev : Option (List Byte)) (code : Nat) :
    Decoded (List Byte) :=
  match prev with
  | none => if code ≥ 256 then .error .corruptPayload else .ok (D.getD code [])
  | some p =>
    if code < D.length then .ok (D.getD code [])
    else if code = D.length ∧ D.length < 2 ^ W then .ok (p ++ p.take 1)
    else .error .corruptPayload

/-- The decoder's dictionary after entry e follows `prev` (48 R369, R371). -/
def lzwGrow (W : Nat) (D : List (List Byte)) (prev : Option (List Byte)) (e : List Byte) :
    List (List Byte) :=
  match prev with
  | none => D
  | some p => lzwInsert W D (p ++ e.take 1)

/-- The loop of DEC_LZW: at most `fuel` codes, the next being the k-th, until n bytes stand in y
(48 R369). Every code adds a byte, so fuel n is enough. -/
def lzwUnscan (W n : Nat) :
    Nat → Nat → List (List Byte) → Option (List Byte) → List Byte → List Bool → Decoded (List Byte)
  | 0, _, _, _, y, _ => .ok y
  | fuel + 1, k, D, prev, y, t =>
    if y.length ≥ n then .ok y
    else
      match readBits t (lzwWidth k W) with
      | .error e => .error e
      | .ok (code, t') =>
        match lzwEntry W D prev code with
        | .error e => .error e
        | .ok e =>
          if (y ++ e).length > n then .error .corruptPayload
          else lzwUnscan W n fuel (k + 1) (lzwGrow W D prev e) (some e) (y ++ e) t'

/-- `DEC_LZW` (48 R369). -/
def decLzw (P : List Byte) : Decoded (List Byte) :=
  match parsePayload P Codec.lzw.algorithmId with
  | .error e => .error e
  | .ok (n, metadata, body) =>
    if metadata.length ≠ 6 then .error .corruptPayload
    else if (metadata.getD 4 0).toNat < 9 ∨ (metadata.getD 4 0).toNat > 16 then .error .corruptPayload
    else if metadata.getD 5 0 ≠ 0x00 then .error .corruptPayload
    else
      match bodyBits metadata body with
      | .error e => .error e
      | .ok t => lzwUnscan (metadata.getD 4 0).toNat n n 0 lzwInitial none [] t

end Sys2Proof.Machine
end

