-- ==== Sys2Proof/Safety.lean ====
section
/-! DEFINITION. What claims about the machine are stated with: the host's duty before a command
(70_reset R462), the invariant of every state the machine runs through, and runs of several commands. -/

namespace Sys2Proof.Machine

/-- IN bytes 0 to n - 1 have all been written since the last reset (10_state R44). -/
abbrev State.inputWritten (s : State) (n : Nat) : Prop := ∀ a, a < n → (s.input.read a).isSome

/-- How many bytes of IN, from offset 0, an encode reads: IN_LEN once its IN_LEN check passes
(60_exceptions R416, R417; 20_memory R77). -/
def State.encodeExtent (s : State) : Nat := if s.inLen.toNat ≤ s.params.inCap then s.inLen.toNat else 0

/-- How many bytes of IN, from offset 0, command i reads at its completion step. A command that its earlier
checks end reads none (20_memory R77; 60_exceptions R416, R417). -/
def State.readExtent (s : State) : Instr → Nat
  | .nop => 0
  | .bsClear => 0
  | .bsWrite _ => 0
  | .bsRead _ => 0
  | .bsFinish => 0
  | .bsLoad =>
    if s.inLen.toNat ≤ s.params.inCap ∧ s.arg0.toNat ≤ 8 * s.inLen.toNat ∧
        s.arg0.toNat ≤ 8 * s.params.bsCap then (s.arg0.toNat + 7) / 8 else 0
  | .rleEnc => s.encodeExtent
  | .hufEnc => s.encodeExtent
  | .golEnc m => if m.toNat ≤ 1 then s.encodeExtent else 0
  | .lzwEnc w => if 9 ≤ w.toNat ∧ w.toNat ≤ 16 then s.encodeExtent else 0

/-- The host's duty before command i: every IN byte the command reads is written (70_reset R462). -/
abbrev State.duty (s : State) (i : Instr) : Prop := s.inputWritten (s.readExtent i)

/-- STATUS agrees with the engine and holds one of the words the block writes (10_state R35, R50;
40_bitstream R150, R151; 60_exceptions R410 to R412). -/
abbrev State.statusOk (s : State) : Prop :=
  if s.engine = .idle then
    s.status = 0x00000000 ∨ s.status = 0x00000002 ∨ s.status = 0x00000104 ∨
      s.status = 0x00000404 ∨ s.status = 0x00000504
  else s.status = 0x00000001

/-- The BitStream invariant of 10_state R40. -/
abbrev State.bsOk (s : State) : Prop :=
  s.bs.rpos ≤ s.bs.bits.length ∧ s.bs.bits.length ≤ 8 * s.params.bsCap

/-- IN is in canonical form and holds bytes of its own offsets only (10_state R44). -/
abbrev State.inputOk (s : State) : Prop :=
  s.input.wf ∧ ∀ c ∈ s.input, c.1 < s.params.inCap

/-- OUT holds exactly the bytes 0 to OUT_LEN - 1, and OUT_LEN is 0 or the length of a payload
(10_state R41, R45; 30_encoding R113). -/
abbrev State.outputOk (s : State) : Prop :=
  s.output.map Prod.fst = List.range s.outLen.toNat ∧
    (s.outLen.toNat = 0 ∨ 9 ≤ s.outLen.toNat ∧ s.outLen.toNat ≤ s.params.outCap)

/-- The invariant of the machine. -/
abbrev State.Inv (s : State) : Prop :=
  s.params.wf ∧ s.statusOk ∧ s.bsOk ∧ s.inputOk ∧ s.outputOk

/-- The machine has nothing left to do: IDLE, and the host's program at its end. For a program that writes
WAIT after every CMD this is the end state of 70_reset R463. DESIGN CHOICE (log 21), unsafe: R463 gives a
program that ends right after a CMD write no end state, and this takes the state after that command's
completion step. No statement uses it. -/
abbrev State.halted (s : State) : Prop := s.engine = .idle ∧ s.pending = []

/-- The state in which the host's turn takes place, if the next step is one: the state itself while IDLE,
one latency turn less while BUSY (70_reset R456). -/
def State.atHostTurn (s : State) : Option State :=
  match s.engine with
  | .idle => some s
  | .busy _ =>
    match s.wait with
    | 0 => none
    | k + 1 => some { s with wait := k }

/-- A word is legal by 30_encoding R103 and R104, in numbers: RSV, OPC and N as the quotients and
remainders of the word. -/
abbrev ruleLegal (w : Word) : Prop :=
  w.toNat / 65536 = 0 ∧
    ((w.toNat % 256 ∈ [0x00, 0x01, 0x04, 0x05, 0x10, 0x11] ∧ w.toNat / 256 % 256 = 0) ∨
      (w.toNat % 256 ∈ [0x02, 0x03] ∧ w.toNat / 256 % 256 ≤ 32) ∨
      (w.toNat % 256 = 0x12 ∧ w.toNat / 256 % 256 ≤ 1) ∨
      (w.toNat % 256 = 0x13 ∧ 9 ≤ w.toNat / 256 % 256 ∧ w.toNat / 256 % 256 ≤ 16))

/-- The four encode commands. -/
def isEncode : Instr → Bool
  | .rleEnc => true
  | .hufEnc => true
  | .golEnc _ => true
  | .lzwEnc _ => true
  | .nop => false
  | .bsClear => false
  | .bsWrite _ => false
  | .bsRead _ => false
  | .bsFinish => false
  | .bsLoad => false

/-- The reference decoder of the payload an encode writes (48_reference_decoders R370). -/
def matchingDecoder : Instr → Option (List Byte → Decoded (List Byte))
  | .rleEnc => some decRle
  | .hufEnc => some decHuf
  | .golEnc _ => some decGol
  | .lzwEnc _ => some decLzw
  | .nop => none
  | .bsClear => none
  | .bsWrite _ => none
  | .bsRead _ => none
  | .bsFinish => none
  | .bsLoad => none

/-- The words STATUS holds after an error the command can raise (60_exceptions R411, R412). -/
def failureStatuses : Instr → List Word
  | .nop => [0x00000104]
  | .bsClear => [0x00000104]
  | .bsFinish => [0x00000104]
  | .bsWrite _ => [0x00000104, 0x00000504]
  | .bsRead _ => [0x00000104, 0x00000404]
  | .bsLoad => [0x00000104, 0x00000504]
  | .rleEnc => [0x00000104, 0x00000504]
  | .hufEnc => [0x00000104, 0x00000504]
  | .golEnc _ => [0x00000104, 0x00000504]
  | .lzwEnc _ => [0x00000104, 0x00000504]

/-- A use of the host's stream: a host write of ARG0 and a BS.WRITE, or a BS.READ (40_bitstream R166). -/
inductive StreamUse where
  | write (count : Byte) (value : Word)
  | read (count : Byte)
  deriving DecidableEq, Repr

/-- The writes of a sequence of uses, in order. -/
def writesOf : List StreamUse → List (Byte × Word)
  | [] => []
  | .write n v :: rest => (n, v) :: writesOf rest
  | .read _ :: rest => writesOf rest

/-- The counts of the reads of a sequence of uses, in order. -/
def readsOf : List StreamUse → List Byte
  | [] => []
  | .write _ _ :: rest => readsOf rest
  | .read n :: rest => n :: readsOf rest

/-- A sequence of uses run one after the other: what the reads leave in RESULT, and the last state; none
if a command fails (40_bitstream R166). -/
def runUses : List StreamUse → State → Option (List Word × State)
  | [], s => some ([], s)
  | .write n v :: rest, s =>
    match exec (.bsWrite n) { s with arg0 := v } with
    | .next t => if t.status = 0x00000002 then runUses rest t else none
    | .fault _ => none
    | .refused _ => none
  | .read n :: rest, s =>
    match exec (.bsRead n) s with
    | .next t =>
      if t.status = 0x00000002 then (runUses rest t).map fun r => (t.result :: r.1, r.2) else none
    | .fault _ => none
    | .refused _ => none

end Sys2Proof.Machine
end

