-- ==== Sys2Proof/Certificates/Slice0/Obligations.lean ====
section
/-! DEFINITION. The statements for the provers, each a rule of spec/ or what follows from its rules. -/

open Sys2Proof Sys2Proof.Machine

/-! ## The command word -/

/-- 30_encoding R100 to R103: the word of a command, with every value of its modifier, decodes to that
command. -/
def Obligations.EncodedCommandDecodesToItself : Prop := ∀ i : Instr, decode (encode i) = .ok i

/-- 30_encoding R100, R101: a word that decodes is the one word of its command, so no bit of it is
dropped; the model records `encode i` as ERRINFO on the strength of this (log 8). -/
def Obligations.DecodedWordIsTheCommandsWord : Prop :=
  ∀ (w : Word) (i : Instr), decode w = .ok i → encode i = w

/-- 30_encoding R102, opcode_table.json: a word matches a row's mask and match exactly when it decodes to a
command with that row's opcode. -/
def Obligations.WordMatchesRowIffItDecodesToIt : Prop :=
  ∀ (w : Word) (o : Opcode), w &&& o.mask = o.pattern ↔ ∃ i, decode w = .ok i ∧ i.opcode = o

/-- 30_encoding R103, R104: the decoder and the modifier check accept exactly the legal words of the
opcode map. -/
def Obligations.LegalWordsAreThoseOfTheRule : Prop := ∀ w : Word, legalWord w = true ↔ ruleLegal w

/-- 30_encoding R102, R121: words written out from the opcode map and the assembler's examples. -/
def Obligations.SampleWordsDecode : Prop :=
  decode 0x00000000 = .ok .nop ∧ decode 0x00000502 = .ok (.bsWrite 5) ∧
    decode 0x00000005 = .ok .bsLoad ∧ decode 0x00000011 = .ok .hufEnc ∧
    decode 0x00000112 = .ok (.golEnc 1) ∧ decode 0x00000C13 = .ok (.lzwEnc 12)

/-! ## The step and the command cycle -/

/-- 40_bitstream R152: at the completion step the machine runs the command that the accepted word names. -/
def Obligations.CompletionStepRunsTheDecodedCommand : Prop :=
  ∀ (s : State) (w : Word) (i : Instr),
    s.engine = .busy w → s.wait = 0 → decode w = .ok i → step s = exec i s

/-- 30_encoding R104, 60_exceptions R413: an illegal command word, whatever its OPC, fails with
ConfigurationError at its completion step and changes only engine, STATUS and ERRINFO. -/
def Obligations.IllegalWordFailsAndChangesNothingElse : Prop :=
  ∀ (s : State) (w : Word), s.engine = .busy w → s.wait = 0 → ¬ ruleLegal w →
    step s = .next { s with engine := .idle, status := 0x00000104, errinfo := w }

/-- 40_bitstream R150: a host write of a word to CMD while IDLE accepts it, legal or not; nothing else of the
block changes. The latency it draws is free (log 2). -/
def Obligations.CmdWriteWhileIdleAccepts : Prop :=
  ∀ (s : State) (w : Word) (rest : List HostEvent),
    s.engine = .idle → s.pending = .write 4 s.params.dcpBase w :: rest →
      ∃ k, step s = .next { s with
        engine := .busy w, status := 0x00000001, wait := k, fresh := s.fresh + 1, pending := rest }

/-- 70_reset R453, R454: while BUSY every host write, to CMD, ARG0, IN_LEN, IN or anywhere else, has no
effect; a host write to a read-only register has none at any time. -/
def Obligations.WritesWhileBusyAreIgnored : Prop :=
  (∀ (s : State) (w : Word) (k width addr : Nat) (v : Word) (rest : List HostEvent),
      s.engine = .busy w → s.wait = k + 1 → s.pending = .write width addr v :: rest →
        step s = .next { s with wait := k, pending := rest }) ∧
    ∀ (s u : State) (off : Nat) (v : Word) (rest : List HostEvent), s.atHostTurn = some u →
      off ∈ [0x04, 0x08, 0x10, 0x18, 0x1C, 0x20] →
      s.pending = .write 4 (s.params.dcpBase + off) v :: rest →
        step s = .next { u with pending := rest }

/-- 10_state R48, 20_memory R84, 40_bitstream R152: a busy machine that is not reset comes to its completion
step after its latency, with the command word, STATUS, every register, BS, IN and OUT as they were; only
the model's own fields differ. -/
def Obligations.BusyWindowKeepsStateAndEnds : Prop :=
  ∀ (s : State) (w : Word), s.engine = .busy w → HostEvent.reset ∉ s.pending →
    ∃ t : State, Sys2Proof.core.run s.wait s = .next t ∧
      t = { s with wait := 0, fresh := t.fresh, pending := t.pending, replies := t.replies }

/-- 70_reset R450, R451, 10_state R50: a reset pulse, while IDLE or BUSY, gives the reset state in one step;
a command in flight is abandoned with none of its effects. What stands outside the block is kept (log 15). -/
def Obligations.ResetPulseGivesResetState : Prop :=
  ∀ (s u : State) (rest : List HostEvent),
    s.atHostTurn = some u → s.pending = .reset :: rest →
      step s = .next
        { engine := .idle, status := 0x00000000, errinfo := 0x00000000, arg0 := 0x00000000,
          result := 0x00000000, inLen := 0x00000000, outLen := 0x00000000,
          bs := { bits := [], rpos := 0 }, input := [], output := [], params := u.params, wait := 0,
          fresh := u.fresh, pending := rest, replies := u.replies }

/-- 10_state R50: the values State.reset gives the block's own state, and what the reserved offsets read in
any state. -/
def Obligations.ResetValuesAreThoseOfTheRule : Prop :=
  State.reset.engine = .idle ∧ State.reset.status = 0x00000000 ∧ State.reset.errinfo = 0x00000000 ∧
    State.reset.arg0 = 0x00000000 ∧ State.reset.result = 0x00000000 ∧
    State.reset.inLen = 0x00000000 ∧ State.reset.outLen = 0x00000000 ∧
    State.reset.bs = { bits := [], rpos := 0 } ∧
    State.reset.regValue .bsWpos = 0x00000000 ∧ State.reset.regValue .bsRpos = 0x00000000 ∧
    (∀ a, State.reset.input.read a = none) ∧ (∀ a, State.reset.output.read a = none) ∧
    ∀ (s : State) (off : Nat), off ∈ [0x24, 0x28, 0x2C, 0x30, 0x34, 0x38, 0x3C] →
      s.readValue 4 (BitVec.ofNat 32 off) = 0x00000000

/-! ## The invariant -/

/-- The invariant holds at reset (00_scope R7, 10_state R35, R40, R41, R44, R45, R50). -/
def Obligations.InvariantHoldsAtReset : Prop := State.reset.Inv

/-- Every step keeps the invariant: STATUS agrees with the engine and holds a word the block writes
(10_state R35, 60_exceptions R410), 0 ≤ rpos ≤ wpos ≤ 8 × BS_CAP (10_state R40), IN and OUT are in
canonical form within their sizes, OUT holds exactly bytes 0 to OUT_LEN - 1 and OUT_LEN is 0 or a payload's
length (10_state R41, R45), and the capacities keep their bounds (00_scope R7). -/
def Obligations.EveryStepKeepsTheInvariant : Prop :=
  ∀ s t : State, s.Inv → step s = .next t → t.Inv

/-- 10_state R35, 60_exceptions R410: in every state of the invariant at most one of BUSY, DONE and ERR is 1,
BUSY is 1 exactly when the engine is BUSY, ERRCODE is 0 when ERR is 0 and 1, 4 or 5 when ERR is 1, and the
reserved bits read 0. -/
def Obligations.StatusFlagsAreExclusive : Prop :=
  ∀ s : State, s.Inv →
    (busyFlag s.status = true ↔ ∃ w, s.engine = .busy w) ∧
      (busyFlag s.status = true → doneFlag s.status = false ∧ errFlag s.status = false) ∧
      (doneFlag s.status = true → errFlag s.status = false) ∧
      (errFlag s.status = false → errcodeField s.status = 0) ∧
      (errFlag s.status = true → (errcodeField s.status).toNat ∈ [1, 4, 5]) ∧
      s.status &&& 0xFFFFF8F8 = 0

/-! ## Host accesses -/

/-- 10_state R33 to R42, R51; 70_reset R455: what a 4-byte read of each register returns, while IDLE and
while BUSY. -/
def Obligations.RegisterReadsReturnTheRegisters : Prop :=
  ∀ (s u : State) (off : Nat) (v : Word) (rest : List HostEvent), s.atHostTurn = some u →
    (off, v) ∈ [(0x00, (0x00000000 : Word)), (0x04, s.status), (0x08, s.errinfo), (0x0C, s.arg0),
      (0x10, s.result), (0x14, s.inLen), (0x18, s.outLen),
      (0x1C, BitVec.ofNat 32 s.bs.bits.length), (0x20, BitVec.ofNat 32 s.bs.rpos)] →
    s.pending = .read 4 (s.params.dcpBase + off) :: rest →
      step s = .next { u with pending := rest, fresh := u.fresh + 4, replies := v :: u.replies }

/-- 10_state R37, R39: a host write of ARG0 or IN_LEN while IDLE stores the written word, and nothing else
changes. -/
def Obligations.OperandWritesWhileIdleStoreTheWord : Prop :=
  ∀ (s : State) (v : Word) (rest : List HostEvent), s.engine = .idle →
    (s.pending = .write 4 (s.params.dcpBase + 0x0C) v :: rest →
        step s = .next { s with arg0 := v, pending := rest }) ∧
      (s.pending = .write 4 (s.params.dcpBase + 0x14) v :: rest →
        step s = .next { s with inLen := v, pending := rest })

/-- 10_state R43: the reserved offsets read zero and ignore writes, while IDLE and while BUSY. -/
def Obligations.ReservedRegistersReadZeroAndIgnoreWrites : Prop :=
  ∀ (s u : State) (off : Nat) (v : Word) (rest : List HostEvent), s.atHostTurn = some u →
    off ∈ [0x24, 0x28, 0x2C, 0x30, 0x34, 0x38, 0x3C] →
    (s.pending = .read 4 (s.params.dcpBase + off) :: rest →
        step s = .next
          { u with pending := rest, fresh := u.fresh + 4, replies := 0x00000000 :: u.replies }) ∧
      (s.pending = .write 4 (s.params.dcpBase + off) v :: rest →
        step s = .next { u with pending := rest })

/-- 20_memory R71, R72, R73: an inert access, one to the register space that is no aligned 4-byte access
below 0x40, one to a window that breaks R73, or one to spaces 0x4 to 0xF, reads zero and changes no
state of the block. Addresses are block addresses below 2^32 placed at DCP_BASE (R81). -/
def Obligations.InertAccessesReadZeroAndChangeNothing : Prop :=
  ∀ (s u : State) (width a : Nat) (v : Word) (rest : List HostEvent), s.atHostTurn = some u →
    a < 2 ^ 32 →
    (a / 2 ^ 28 = 0 ∧ ¬ (width = 4 ∧ a % 4 = 0 ∧ a < 0x40) ∨
      (∃ size, (a / 2 ^ 28, size) ∈
          [(1, s.params.inCap), (2, s.params.outCap), (3, s.params.bsCap)] ∧
        ¬ ((width = 1 ∨ width = 2 ∨ width = 4) ∧ a % 2 ^ 28 % width = 0 ∧
          a % 2 ^ 28 + width ≤ size)) ∨
      4 ≤ a / 2 ^ 28) →
    (s.pending = .read width (s.params.dcpBase + a) :: rest →
        ∃ f, step s = .next
          { u with pending := rest, fresh := f, replies := 0x00000000 :: u.replies }) ∧
      (s.pending = .write width (s.params.dcpBase + a) v :: rest →
        step s = .next { u with pending := rest })

/-- 20_memory R75, R76: host writes to the OUT and BSW windows are ignored, whatever their width and
offset. -/
def Obligations.OutAndBswWritesAreIgnored : Prop :=
  ∀ (s u : State) (width a : Nat) (v : Word) (rest : List HostEvent), s.atHostTurn = some u →
    a / 2 ^ 28 ∈ [2, 3] → s.pending = .write width (s.params.dcpBase + a) v :: rest →
      step s = .next { u with pending := rest }

/-- 20_memory R80, 10_state R51: no host read, of any width and address, changes anything but the model's
own fields; it returns at most one value. An unspecified byte of it is a free value (log 6). -/
def Obligations.HostReadsHaveNoSideEffects : Prop :=
  ∀ (s u : State) (width addr : Nat) (rest : List HostEvent), s.atHostTurn = some u →
    s.pending = .read width addr :: rest →
      ∃ (f : Nat) (r : List Word), r.length ≤ 1 ∧
        step s = .next { u with pending := rest, fresh := f, replies := r ++ u.replies }

/-- 20_memory R73, R74: a defined host write of IN while IDLE stores its bytes, the most significant one at
the lowest offset; every other byte of IN and everything else stays. -/
def Obligations.InWindowWriteStoresBigEndianBytes : Prop :=
  ∀ (s : State) (n a : Nat) (v : Word) (rest : List HostEvent), s.params.wf → s.engine = .idle →
    (n = 1 ∨ n = 2 ∨ n = 4) → a % n = 0 → a + n ≤ s.params.inCap →
    s.pending = .write n (s.params.dcpBase + 0x10000000 + a) v :: rest →
      ∃ m : Memory, step s = .next { s with input := m, pending := rest } ∧
        (∀ j, j < n → m.read (a + j) = some (v.extractLsb' (8 * (n - 1 - j)) 8)) ∧
        ∀ b, b < a ∨ a + n ≤ b → m.read b = s.input.read b

/-- 20_memory R73, R74, R75: a defined host read of IN bytes that are written, or of OUT bytes below OUT_LEN
while IDLE, returns them as one big-endian value. -/
def Obligations.WindowReadsReturnBigEndianBytes : Prop :=
  ∀ (s u : State) (n a : Nat) (b : Nat → Byte) (rest : List HostEvent), s.params.wf →
    s.atHostTurn = some u → (n = 1 ∨ n = 2 ∨ n = 4) → a % n = 0 →
    (a + n ≤ s.params.inCap → (∀ j, j < n → s.input.read (a + j) = some (b j)) →
        s.pending = .read n (s.params.dcpBase + 0x10000000 + a) :: rest →
        step s = .next { u with pending := rest, fresh := u.fresh + n,
                                replies := BitVec.ofNat 32
                                  (((List.range n).map fun j => (b j).toNat * 256 ^ (n - 1 - j)).sum) ::
                                    u.replies }) ∧
      (a + n ≤ s.params.outCap → s.engine = .idle → a + n ≤ s.outLen.toNat →
        (∀ j, j < n → s.output.read (a + j) = some (b j)) →
        s.pending = .read n (s.params.dcpBase + 0x20000000 + a) :: rest →
        step s = .next { u with pending := rest, fresh := u.fresh + n,
                                replies := BitVec.ofNat 32
                                  (((List.range n).map fun j => (b j).toNat * 256 ^ (n - 1 - j)).sum) ::
                                    u.replies })

/-- 20_memory R76, 40_bitstream R155: while IDLE a defined host read of the BSW window returns, from its
most significant bit down, stream bits 8a, 8a + 1, …, and zero past the last written bit. -/
def Obligations.BswWindowReadsStreamBitsZeroPadded : Prop :=
  ∀ (s : State) (n a : Nat) (rest : List HostEvent), s.params.wf → s.engine = .idle →
    (n = 1 ∨ n = 2 ∨ n = 4) → a % n = 0 → a + n ≤ s.params.bsCap →
    s.pending = .read n (s.params.dcpBase + 0x30000000 + a) :: rest →
      ∃ v : Word,
        step s = .next { s with pending := rest, fresh := s.fresh + n, replies := v :: s.replies } ∧
        ∀ i, i < 32 → v.getLsbD i = (decide (i < 8 * n) && s.bs.bits.getD (8 * a + (8 * n - 1 - i)) false)

/-- 30_encoding R122: one turn of WAIT reads STATUS once; the loop goes on exactly while bit 0 reads 1. -/
def Obligations.WaitPollsStatusUntilNotBusy : Prop :=
  ∀ (s u : State) (rest : List HostEvent), s.atHostTurn = some u → s.pending = .poll :: rest →
    step s = .next { u with
      fresh := u.fresh + 4, replies := s.status :: u.replies,
      pending := if s.status.getLsbD 0 then .poll :: rest else rest }

/-! ## What every command keeps -/

/-- 10_state R37, R38, R39, R41, R44, R46: no command writes ARG0, IN_LEN or IN; encodes leave BS and RESULT;
NOP and the BitStream commands leave OUT and OUT_LEN; only BS.READ and BS.FINISH write RESULT. -/
def Obligations.CommandsKeepWhatTheyMayNotWrite : Prop :=
  ∀ (i : Instr) (s t : State), exec i s = .next t →
    t.arg0 = s.arg0 ∧ t.inLen = s.inLen ∧ t.input = s.input ∧ t.params = s.params ∧
      t.pending = s.pending ∧ t.replies = s.replies ∧ t.fresh = s.fresh ∧ t.wait = s.wait ∧
      (isEncode i = true → t.bs = s.bs) ∧
      (isEncode i = false → t.output = s.output ∧ t.outLen = s.outLen) ∧
      ((∀ n, i ≠ .bsRead n) → i ≠ .bsFinish → t.result = s.result)

/-- 40_bitstream R151, 60_exceptions R411, R412, R415: a command ends IDLE, either with DONE and ERRINFO
kept, or with ERR, the code of a kind the command can raise, and its own word in ERRINFO. -/
def Obligations.CommandsEndInDoneOrTheirOwnErrors : Prop :=
  ∀ (i : Instr) (s t : State), exec i s = .next t →
    t.engine = .idle ∧
      (t.status = 0x00000002 ∧ t.errinfo = s.errinfo ∨
        t.status ∈ failureStatuses i ∧ t.errinfo = encode i)

/-- 60_exceptions R417, 70_reset R462: a command has a next state exactly when every IN byte it reads has
been written; it is never refused. -/
def Obligations.CommandsCompleteIffTheirInputIsWritten : Prop :=
  ∀ (i : Instr) (s : State),
    (s.duty i ↔ ∃ t, exec i s = .next t) ∧ ∀ r, exec i s ≠ .refused r

/-- 60_exceptions R417: a legal encode whose IN_LEN passes its check faults at the first UNWRITTEN byte of
its input; a BS.LOAD that passes its three checks faults at the first UNWRITTEN byte it reads. -/
def Obligations.ReadingUnwrittenInputFaults : Prop :=
  ∀ (i : Instr) (s : State) (a : Nat), a < s.readExtent i → s.input.read a = none →
    (∀ b, b < a → (s.input.read b).isSome) → exec i s = .fault (.unwrittenInput a)

/-! ## NOP and the BitStream commands -/

/-- 40_bitstream R160: NOP completes and changes nothing else, so it clears a stale ERR and keeps ERRINFO;
a word with OPC 0 and any other bit set fails with ConfigurationError. -/
def Obligations.NopOnlyCompletes : Prop :=
  (∀ s : State, exec .nop s = .next { s with engine := .idle, status := 0x00000002 }) ∧
    encode .nop = 0x00000000 ∧
    ∀ (s : State) (w : Word), w.toNat % 256 = 0x00 → w ≠ 0x00000000 → s.engine = .busy w →
      s.wait = 0 → step s = .next { s with engine := .idle, status := 0x00000104, errinfo := w }

/-- 40_bitstream R161: BS.CLEAR empties the stream and both cursors; RESULT and everything else stay. -/
def Obligations.BsClearEmptiesTheStream : Prop :=
  (∀ s : State, exec .bsClear s =
      .next { s with engine := .idle, status := 0x00000002, bs := { bits := [], rpos := 0 } }) ∧
    encode .bsClear = 0x00000001 ∧
    ∀ (s : State) (w : Word), w.toNat % 256 = 0x01 → w ≠ 0x00000001 → s.engine = .busy w →
      s.wait = 0 → step s = .next { s with engine := .idle, status := 0x00000104, errinfo := w }

/-- 40_bitstream R162: BS.WRITE n appends bits n - 1 down to 0 of ARG0, fails with CapacityError when the
stream would pass 8 × BS_CAP bits, and with ConfigurationError when n is above 32. -/
def Obligations.BsWriteAppendsLowBitsOfArg0 : Prop :=
  ∀ (s : State) (n : Byte), encode (.bsWrite n) = BitVec.ofNat 32 (2 + 256 * n.toNat) ∧
    (n.toNat ≤ 32 → s.bs.bits.length + n.toNat ≤ 8 * s.params.bsCap →
        exec (.bsWrite n) s = .next { s with
          engine := .idle, status := 0x00000002,
          bs := { bits := s.bs.bits ++
                    (List.range n.toNat).map fun i => s.arg0.getLsbD (n.toNat - 1 - i)
                  rpos := s.bs.rpos } }) ∧
      (n.toNat ≤ 32 → 8 * s.params.bsCap < s.bs.bits.length + n.toNat →
        exec (.bsWrite n) s = .next { s with
          engine := .idle, status := 0x00000504, errinfo := BitVec.ofNat 32 (2 + 256 * n.toNat) }) ∧
      (32 < n.toNat →
        exec (.bsWrite n) s = .next { s with
          engine := .idle, status := 0x00000104, errinfo := BitVec.ofNat 32 (2 + 256 * n.toNat) })

/-- 40_bitstream R163: BS.READ n returns the next n bits, the first one read most significant, with zeros
above, and moves the read cursor; it fails with UnderrunError when fewer remain and with
ConfigurationError when n is above 32. -/
def Obligations.BsReadReturnsTheNextBits : Prop :=
  ∀ (s : State) (n : Byte), encode (.bsRead n) = BitVec.ofNat 32 (3 + 256 * n.toNat) ∧
    (n.toNat ≤ 32 → s.bs.rpos + n.toNat ≤ s.bs.bits.length →
        ∃ v : Word,
          exec (.bsRead n) s = .next { s with
            engine := .idle, status := 0x00000002, result := v,
            bs := { bits := s.bs.bits, rpos := s.bs.rpos + n.toNat } } ∧
          ∀ j, j < 32 → v.getLsbD j =
            (decide (j < n.toNat) && s.bs.bits.getD (s.bs.rpos + (n.toNat - 1 - j)) false)) ∧
      (n.toNat ≤ 32 → s.bs.bits.length < s.bs.rpos + n.toNat →
        exec (.bsRead n) s = .next { s with
          engine := .idle, status := 0x00000404, errinfo := BitVec.ofNat 32 (3 + 256 * n.toNat) }) ∧
      (32 < n.toNat →
        exec (.bsRead n) s = .next { s with
          engine := .idle, status := 0x00000104, errinfo := BitVec.ofNat 32 (3 + 256 * n.toNat) })

/-- 40_bitstream R164: BS.FINISH returns the number of bits written and leaves the stream open and as it
is. -/
def Obligations.BsFinishReturnsTheBitCount : Prop :=
  (∀ s : State, exec .bsFinish s =
      .next { s with
        engine := .idle, status := 0x00000002, result := BitVec.ofNat 32 s.bs.bits.length }) ∧
    encode .bsFinish = 0x00000004 ∧
    ∀ (s : State) (w : Word), w.toNat % 256 = 0x04 → w ≠ 0x00000004 → s.engine = .busy w →
      s.wait = 0 → step s = .next { s with engine := .idle, status := 0x00000104, errinfo := w }

/-- 40_bitstream R165: BS.LOAD makes the first ARG0 bits of IN the stream, read from the start; its three
checks come in order, ConfigurationError for IN_LEN over IN_CAP, ConfigurationError for more bits than
IN_LEN bytes hold, CapacityError for more than 8 × BS_CAP bits. -/
def Obligations.BsLoadMakesInputBitsTheStream : Prop :=
  ∀ s : State, encode .bsLoad = 0x00000005 ∧
    (s.inLen.toNat ≤ s.params.inCap → s.arg0.toNat ≤ 8 * s.inLen.toNat →
        s.arg0.toNat ≤ 8 * s.params.bsCap → s.inputWritten ((s.arg0.toNat + 7) / 8) →
        exec .bsLoad s = .next { s with
          engine := .idle, status := 0x00000002,
          bs := { bits := (List.range s.arg0.toNat).map fun i =>
                    ((s.input.read (i / 8)).getD 0).getLsbD (7 - i % 8)
                  rpos := 0 } }) ∧
      (s.params.inCap < s.inLen.toNat →
        exec .bsLoad s = .next { s with
          engine := .idle, status := 0x00000104, errinfo := 0x00000005 }) ∧
      (s.inLen.toNat ≤ s.params.inCap → 8 * s.inLen.toNat < s.arg0.toNat →
        exec .bsLoad s = .next { s with
          engine := .idle, status := 0x00000104, errinfo := 0x00000005 }) ∧
      (s.inLen.toNat ≤ s.params.inCap → s.arg0.toNat ≤ 8 * s.inLen.toNat →
        8 * s.params.bsCap < s.arg0.toNat →
        exec .bsLoad s = .next { s with
          engine := .idle, status := 0x00000504, errinfo := 0x00000005 })

/-- 40_bitstream R166: after a BS.CLEAR, reads with the counts of the writes, interleaved anywhere, return the
written values modulo 2^count in order, and BS.FINISH returns the sum of the counts. -/
def Obligations.ReadsReturnWhatWasWritten : Prop :=
  ∀ (s c t : State) (uses : List StreamUse) (results : List Word), s.params.wf →
    exec .bsClear s = .next c → runUses uses c = some (results, t) →
    readsOf uses <+: (writesOf uses).map Prod.fst →
      results = ((writesOf uses).take results.length).map
          (fun p => BitVec.ofNat 32 (p.2.toNat % 2 ^ p.1.toNat)) ∧
        results.length = (readsOf uses).length ∧
        ∃ f, exec .bsFinish t = .next f ∧
          f.result.toNat = ((writesOf uses).map fun p => p.1.toNat).sum

/-! ## The encodes -/

/-- 42_rle R200, R203, R205; 30_encoding R113; 48_reference_decoders R364, R370: for a written input of n bytes
the RLE payload takes at most 9 + 2n bytes, and where it fits OUT_CAP, RLE.ENC succeeds: OUT holds exactly
that payload and OUT_LEN its length, and nothing else changes. The payload is id 1, n, an empty metadata
and the chunks, and DEC_RLE gives the input back. -/
def Obligations.RleEncodeWritesADecodablePayload : Prop :=
  ∀ (s : State) (x : List Byte), s.inLen.toNat = x.length → x.length ≤ s.params.inCap →
    (∀ a, a < x.length → s.input.read a = x[a]?) →
      (rlePayload x).length ≤ 9 + 2 * x.length ∧
        ((rlePayload x).length ≤ s.params.outCap →
          ∃ m : Memory,
            exec .rleEnc s = .next { s with
              engine := .idle, status := 0x00000002,
              outLen := BitVec.ofNat 32 (rlePayload x).length, output := m } ∧
            (∀ a, m.read a = (rlePayload x)[a]?) ∧
            rlePayload x = 0x01 :: beBytes x.length 4 ++ [0x00, 0x00, 0x00, 0x00] ++
              (rleChunks x).flatMap (fun c => [c.1, BitVec.ofNat 8 c.2]) ∧
            decRle (rlePayload x) = .ok x)

/-- 43_huffman R230, R241, R243; 30_encoding R113; 70_reset R462; 48_reference_decoders R370: for a written
input of n bytes the Huffman payload takes at most 8719 + 32n bytes, and where it fits OUT_CAP, HUF.ENC
succeeds: OUT holds exactly that payload and OUT_LEN its length, and nothing else changes. The payload is
id 2, n, the metadata's length, the body's bit count, the number of symbols, the table's entries and the
packed body, and DEC_HUF gives the input back. -/
def Obligations.HufEncodeWritesADecodablePayload : Prop :=
  ∀ (s : State) (x : List Byte), s.params.wf → s.inLen.toNat = x.length →
    x.length ≤ s.params.inCap → (∀ a, a < x.length → s.input.read a = x[a]?) →
      (hufPayload x).length ≤ 8719 + 32 * x.length ∧
        ((hufPayload x).length ≤ s.params.outCap →
          ∃ m : Memory,
            exec .hufEnc s = .next { s with
              engine := .idle, status := 0x00000002,
              outLen := BitVec.ofNat 32 (hufPayload x).length, output := m } ∧
            (∀ a, m.read a = (hufPayload x)[a]?) ∧
            hufPayload x = 0x02 :: beBytes x.length 4 ++
              beBytes (6 + ((codeTable x).flatMap tableEntry).length) 4 ++
              beBytes (hufBody x).length 4 ++ beBytes (codeTable x).length 2 ++
              (codeTable x).flatMap tableEntry ++ pack (hufBody x) ∧
            decHuf (hufPayload x) = .ok x)

/-- 44_golomb R280, R282, R283, R285, R289; 30_encoding R113; 48_reference_decoders R368, R370: for a written
input of n bytes, with the divisor b that is ARG0 in mode 0, where ARG0 is not 0, and the estimate in
mode 1, the Golomb payload takes at most 17 + 32n bytes, and where it fits OUT_CAP, GOL.ENC succeeds: OUT
holds exactly that payload and OUT_LEN its length, and nothing else changes. The payload is id 3, n, a
metadata length of 8, the body's bit count, b and the packed codes, and DEC_GOL gives the input back. -/
def Obligations.GolEncodeWritesADecodablePayload : Prop :=
  ∀ (s : State) (m : Byte) (b : Nat) (x : List Byte), s.params.wf →
    (m.toNat = 0 ∧ s.arg0.toNat ≠ 0 ∧ b = s.arg0.toNat ∨ m.toNat = 1 ∧ b = golombEstimate x) →
    s.inLen.toNat = x.length → x.length ≤ s.params.inCap →
    (∀ a, a < x.length → s.input.read a = x[a]?) →
      (golombPayload b x).length ≤ 17 + 32 * x.length ∧
        ((golombPayload b x).length ≤ s.params.outCap →
          ∃ o : Memory,
            exec (.golEnc m) s = .next { s with
              engine := .idle, status := 0x00000002,
              outLen := BitVec.ofNat 32 (golombPayload b x).length, output := o } ∧
            (∀ a, o.read a = (golombPayload b x)[a]?) ∧
            golombPayload b x = 0x03 :: beBytes x.length 4 ++ [0x00, 0x00, 0x00, 0x08] ++
              beBytes (golombBody b x).length 4 ++ beBytes b 4 ++ pack (golombBody b x) ∧
            decGol (golombPayload b x) = .ok x)

/-- 45_lzw R320, R326, R329; 30_encoding R113; 48_reference_decoders R369, R370: for a written input of n bytes
and W from 9 to 16 the LZW payload takes at most 15 + 2n bytes, and where it fits OUT_CAP, LZW.ENC W
succeeds: OUT holds exactly that payload and OUT_LEN its length, and nothing else changes. The payload is
id 4, n, a metadata length of 6, the body's bit count, W, the overflow policy 0 and the packed codes, and
DEC_LZW gives the input back. -/
def Obligations.LzwEncodeWritesADecodablePayload : Prop :=
  ∀ (s : State) (W : Byte) (x : List Byte), s.params.wf → 9 ≤ W.toNat → W.toNat ≤ 16 →
    s.inLen.toNat = x.length → x.length ≤ s.params.inCap →
    (∀ a, a < x.length → s.input.read a = x[a]?) →
      (lzwPayload W.toNat x).length ≤ 15 + 2 * x.length ∧
        ((lzwPayload W.toNat x).length ≤ s.params.outCap →
          ∃ m : Memory,
            exec (.lzwEnc W) s = .next { s with
              engine := .idle, status := 0x00000002,
              outLen := BitVec.ofNat 32 (lzwPayload W.toNat x).length, output := m } ∧
            (∀ a, m.read a = (lzwPayload W.toNat x)[a]?) ∧
            lzwPayload W.toNat x = 0x04 :: beBytes x.length 4 ++ [0x00, 0x00, 0x00, 0x06] ++
              beBytes (lzwBody W.toNat x).length 4 ++ [W, 0x00] ++ pack (lzwBody W.toNat x) ∧
            decLzw (lzwPayload W.toNat x) = .ok x)

/-- 48_reference_decoders R370: whatever OUT_CAP is, the payload a successful encode writes decodes to the
input with the matching decoder. -/
def Obligations.EverySuccessfulEncodeRoundTrips : Prop :=
  ∀ (i : Instr) (d : List Byte → Decoded (List Byte)) (s t : State) (x : List Byte), s.params.wf →
    matchingDecoder i = some d → s.inLen.toNat = x.length →
    (∀ a, a < x.length → s.input.read a = x[a]?) → exec i s = .next t → t.status = 0x00000002 →
      ∃ P : List Byte, (∀ a, t.output.read a = P[a]?) ∧ t.outLen.toNat = P.length ∧ d P = .ok x

/-- 60_exceptions R414, R416, R421: a legal encode with IN_LEN over IN_CAP fails with ConfigurationError,
OUT_LEN becomes 0 and OUT holds nothing; nothing else changes. -/
def Obligations.EncodeWithOversizeInLenFails : Prop :=
  ∀ (s : State) (i : Instr) (w : Word), s.params.inCap < s.inLen.toNat →
    ((i, w) = (Instr.rleEnc, (0x00000010 : Word)) ∨ (i, w) = (.hufEnc, 0x00000011) ∨
      (∃ m : Byte, m.toNat ≤ 1 ∧ (i, w) = (.golEnc m, BitVec.ofNat 32 (0x12 + 256 * m.toNat))) ∨
      ∃ W : Byte, 9 ≤ W.toNat ∧ W.toNat ≤ 16 ∧
        (i, w) = (.lzwEnc W, BitVec.ofNat 32 (0x13 + 256 * W.toNat))) →
    exec i s = .next { s with
      engine := .idle, status := 0x00000104, errinfo := w, outLen := 0x00000000, output := [] }

/-- 30_encoding R113, 60_exceptions R414, R422: a legal encode whose payload is longer than OUT_CAP fails with
CapacityError, OUT_LEN becomes 0 and OUT holds nothing; nothing else changes. -/
def Obligations.EncodeOverCapacityFails : Prop :=
  ∀ (s : State) (x : List Byte), s.inLen.toNat = x.length → x.length ≤ s.params.inCap →
    (∀ a, a < x.length → s.input.read a = x[a]?) →
    (s.params.outCap < (rlePayload x).length →
        exec .rleEnc s = .next { s with
          engine := .idle, status := 0x00000504, errinfo := 0x00000010, outLen := 0x00000000,
          output := [] }) ∧
      (s.params.outCap < (hufPayload x).length →
        exec .hufEnc s = .next { s with
          engine := .idle, status := 0x00000504, errinfo := 0x00000011, outLen := 0x00000000,
          output := [] }) ∧
      (s.arg0.toNat ≠ 0 → s.params.outCap < (golombPayload s.arg0.toNat x).length →
        exec (.golEnc 0) s = .next { s with
          engine := .idle, status := 0x00000504, errinfo := 0x00000012, outLen := 0x00000000,
          output := [] }) ∧
      (s.params.outCap < (golombPayload (golombEstimate x) x).length →
        exec (.golEnc 1) s = .next { s with
          engine := .idle, status := 0x00000504, errinfo := 0x00000112, outLen := 0x00000000,
          output := [] }) ∧
      ∀ W : Byte, 9 ≤ W.toNat → W.toNat ≤ 16 → s.params.outCap < (lzwPayload W.toNat x).length →
        exec (.lzwEnc W) s = .next { s with
          engine := .idle, status := 0x00000504, errinfo := BitVec.ofNat 32 (0x13 + 256 * W.toNat),
          outLen := 0x00000000, output := [] }

/-- 44_golomb R280, R282; 60_exceptions R416: GOL.ENC in mode 0 with ARG0 = 0 fails with ConfigurationError as
a failed encode, on empty input too. -/
def Obligations.GolEncodeWithZeroDivisorFails : Prop :=
  ∀ s : State, s.arg0 = 0x00000000 → s.inLen.toNat ≤ s.params.inCap →
    s.inputWritten s.inLen.toNat →
      exec (.golEnc 0) s = .next { s with
        engine := .idle, status := 0x00000104, errinfo := 0x00000012, outLen := 0x00000000,
        output := [] }

/-- 30_encoding R104 (c), 60_exceptions R413, R416: GOL.ENC with a mode above 1 and LZW.ENC with a width
outside 9 to 16 fail with ConfigurationError before any other check and leave OUT_LEN and OUT. -/
def Obligations.EncodeWithBadModifierChangesNothingElse : Prop :=
  (∀ (s : State) (m : Byte), 1 < m.toNat →
      exec (.golEnc m) s = .next { s with
        engine := .idle, status := 0x00000104, errinfo := BitVec.ofNat 32 (0x12 + 256 * m.toNat) }) ∧
    ∀ (s : State) (W : Byte), (W.toNat < 9 ∨ 16 < W.toNat) →
      exec (.lzwEnc W) s = .next { s with
        engine := .idle, status := 0x00000104, errinfo := BitVec.ofNat 32 (0x13 + 256 * W.toNat) }

/-- 42_rle R204, 43_huffman R238, 44_golomb R280 and R285, 45_lzw R324, 60_exceptions R419: with IN_LEN = 0
every encode succeeds and writes its empty payload; no codec fails for want of input. -/
def Obligations.EmptyInputEncodesToTheEmptyPayload : Prop :=
  ∀ (s : State) (i : Instr) (P : List Byte), s.inLen = 0x00000000 → P.length ≤ s.params.outCap →
    (i = .rleEnc ∧ P = [0x01, 0x00, 0x00, 0x00, 0x00, 0x00, 0x00, 0x00, 0x00] ∨
      i = .hufEnc ∧ P = [0x02, 0x00, 0x00, 0x00, 0x00, 0x00, 0x00, 0x00, 0x06, 0x00, 0x00, 0x00, 0x00,
        0x00, 0x00] ∨
      i = .golEnc 0 ∧ s.arg0 ≠ 0x00000000 ∧
        P = [0x03, 0x00, 0x00, 0x00, 0x00, 0x00, 0x00, 0x00, 0x08, 0x00, 0x00, 0x00, 0x00,
          s.arg0.extractLsb' 24 8, s.arg0.extractLsb' 16 8, s.arg0.extractLsb' 8 8,
          s.arg0.extractLsb' 0 8] ∨
      i = .golEnc 1 ∧
        P = [0x03, 0x00, 0x00, 0x00, 0x00, 0x00, 0x00, 0x00, 0x08, 0x00, 0x00, 0x00, 0x00, 0x00, 0x00,
          0x00, 0x01] ∨
      ∃ W : Byte, 9 ≤ W.toNat ∧ W.toNat ≤ 16 ∧ i = .lzwEnc W ∧
        P = [0x04, 0x00, 0x00, 0x00, 0x00, 0x00, 0x00, 0x00, 0x06, 0x00, 0x00, 0x00, 0x00, W, 0x00]) →
      ∃ m : Memory,
        exec i s = .next { s with
          engine := .idle, status := 0x00000002, outLen := BitVec.ofNat 32 P.length, output := m } ∧
        ∀ a, m.read a = P[a]?

/-- 30_encoding R114: what a successful encode leaves in OUT, OUT_LEN and STATUS depends on the command word,
the input bytes and, for GOL.ENC mode 0, ARG0 alone; on one machine, nothing else of the state matters. -/
def Obligations.EncodesDependOnlyOnTheirOperands : Prop :=
  ∀ (i : Instr) (s s' t : State), isEncode i = true → s.params = s'.params → s.inLen = s'.inLen →
    (∀ a, a < s.inLen.toNat → s.input.read a = s'.input.read a) →
    (i = .golEnc 0 → s.arg0 = s'.arg0) → exec i s = .next t → t.status = 0x00000002 →
      ∃ t', exec i s' = .next t' ∧ t'.status = t.status ∧ t'.outLen = t.outLen ∧
        t'.output = t.output

/-! ## What the codecs compute -/

/-- 42_rle R201: the input splits into maximal runs in exactly one way, and `runs` is that split. -/
def Obligations.RunsAreTheOneMaximalSplit : Prop :=
  ∀ (x : List Byte) (L : List (Byte × Nat)),
    ((L.flatMap fun p => List.replicate p.2 p.1) = x ∧ (∀ p ∈ L, 1 ≤ p.2) ∧
        L.IsChain (fun p q => p.1 ≠ q.1)) ↔ L = runs x

/-- 42_rle R205, R206: the body is the chunks as pairs of bytes, so its length is even; every chunk's length
is 1 to 255, adjacent chunks share a value only after a length of 255, and the chunks expand to the
input. The payload takes 9 bytes and two for each 255 bytes of a run or part of them, so between
9 + 2 ceil(n / 255) and 9 + 2n bytes for n at least 1. -/
def Obligations.RleBodyFormAndPayloadLength : Prop :=
  ∀ x : List Byte,
    (rlePayload x).drop 9 = (rleChunks x).flatMap (fun c => [c.1, BitVec.ofNat 8 c.2]) ∧
      (∀ c ∈ rleChunks x, 1 ≤ c.2 ∧ c.2 ≤ 255) ∧
      (rleChunks x).IsChain (fun c d => c.1 = d.1 → c.2 = 255) ∧
      ((rleChunks x).flatMap fun c => List.replicate c.2 c.1) = x ∧
      (rlePayload x).length = 9 + 2 * ((runs x).map fun p => (p.2 + 254) / 255).sum ∧
      (1 ≤ x.length →
        9 + 2 * ((x.length + 254) / 255) ≤ (rlePayload x).length ∧
          (rlePayload x).length ≤ 9 + 2 * x.length)

/-- 43_huffman R242: no code of the table HUF.ENC writes is a prefix of another, and for two or more symbols
the code is complete: the sum of 2^(-length) is 1, here multiplied by 2^255. -/
def Obligations.HuffmanTableIsPrefixFreeAndComplete : Prop :=
  ∀ x : List Byte,
    (codeTable x).Pairwise (fun e f => ¬ e.2 <+: f.2 ∧ ¬ f.2 <+: e.2) ∧
      (2 ≤ (codeTable x).length →
        ((codeTable x).map fun e => 2 ^ (255 - e.2.length)).sum = 2 ^ 255)

/-- 43_huffman R232, R237, R239, R243: the table lists exactly the byte values of the input, ascending; code
lengths are 1 to k - 1 for k symbols, or 1 for one symbol. -/
def Obligations.HuffmanTableSymbolsAndLengths : Prop :=
  ∀ x : List Byte,
    ((codeTable x).map fun e => e.1.toNat).Pairwise (· < ·) ∧
      (∀ v : Byte, v ∈ (codeTable x).map Prod.fst ↔ v ∈ x) ∧ (codeTable x).length ≤ 256 ∧
      ∀ e ∈ codeTable x, 1 ≤ e.2.length ∧ e.2.length ≤ max 1 ((codeTable x).length - 1)

/-- 43_huffman R244, its first sentence: a symbol that occurs more often never gets a longer code. -/
def Obligations.HuffmanFrequentSymbolsGetNoLongerCodes : Prop :=
  ∀ x : List Byte, ∀ e ∈ codeTable x, ∀ f ∈ codeTable x,
    x.count f.1 < x.count e.1 → e.2.length ≤ f.2.length

/-- 43_huffman R240, R243: the body is the codes of the input bytes in order, `body_bits` is the sum over the
symbols of frequency times code length, and the metadata takes at most 8710 bytes. -/
def Obligations.HuffmanBodyAndMetadataLengths : Prop :=
  ∀ x : List Byte,
    hufBody x = x.flatMap (fun v => ((codeTable x).lookup v).getD []) ∧
    (hufBody x).length = ((codeTable x).map fun e => x.count e.1 * e.2.length).sum ∧
      6 + ((codeTable x).flatMap tableEntry).length ≤ 8710

/-- 44_golomb R283: GOL.ENC in mode 1 codes with the estimated divisor; it is 1 on empty input, and else 0.69
times the mean rounded to the nearest integer with halves up, or 1 if that is 0; it is at most 176. -/
def Obligations.GolombEstimateIsTheRoundedMean : Prop :=
  (∀ (arg0 : Word) (x : List Byte),
      golombEncode 1 arg0 x = .ok (golombPayload (golombEstimate x) x)) ∧
    golombEstimate [] = 1 ∧
    ∀ x : List Byte, x ≠ [] →
      1 ≤ golombEstimate x ∧ golombEstimate x ≤ 176 ∧
        69 * (x.map BitVec.toNat).sum + 50 * x.length < 100 * x.length * (golombEstimate x + 1) ∧
        (golombEstimate x = 1 ∨
          100 * x.length * golombEstimate x ≤ 69 * (x.map BitVec.toNat).sum + 50 * x.length)

/-- 44_golomb R284, R286 to R289: the code of a value, with k the least number with b ≤ 2^k: the quotient as
ones and a zero, then the remainder in k - 1 bits when it is below 2^k - b, else the remainder plus
2^k - b in k bits; and the lengths and bounds of codes and payloads. -/
def Obligations.GolombCodeBitsAndLength : Prop :=
  ∀ b v k : Nat, 1 ≤ b → b ≤ 2 ^ k → (∀ j, b ≤ 2 ^ j → k ≤ j) →
    (v % b < 2 ^ k - b →
        golombCode b v = List.replicate (v / b) true ++ false ::
          ((List.range (k - 1)).map fun i => (v % b).testBit (k - 2 - i)) ∧
        (golombCode b v).length = v / b + 1 + (k - 1)) ∧
      (2 ^ k - b ≤ v % b →
        golombCode b v = List.replicate (v / b) true ++ false ::
          ((List.range k).map fun i => (v % b + (2 ^ k - b)).testBit (k - 1 - i)) ∧
        (golombCode b v).length = v / b + 1 + k) ∧
      (v ≤ 255 → b < 2 ^ 32 → (golombCode b v).length ≤ 256) ∧
      (golombCode 1 255).length = 256 ∧
      ∀ x : List Byte,
        golombBody b x = x.flatMap (fun v => golombCode b v.toNat) ∧
          (golombPayload b x).length = 17 + ((golombBody b x).length + 7) / 8 ∧
          (b < 2 ^ 32 → (golombBody b x).length ≤ 256 * x.length)

/-- 44_golomb R290: for every divisor the codes of all values are prefix-free, and the reference decoder
recovers every byte value from its code, whatever follows. -/
def Obligations.GolombCodesArePrefixFreeAndInvertible : Prop :=
  ∀ b : Nat, 1 ≤ b →
    (∀ v v' : Nat, golombCode b v <+: golombCode b v' → v = v') ∧
      ∀ (v : Byte) (rest : List Bool), readGolomb b (golombCode b v.toNat ++ rest) = .ok (v, rest)

/-- 45_lzw R325: a code's width is the number of bits of the largest code in a dictionary of
min(256 + k, 2^W) entries; it is never above W and is W once 256 + k reaches 2^W. The body is the emitted
codes, each in its width, most significant bit first. -/
def Obligations.LzwWidthIsThatOfTheLargestCode : Prop :=
  ∀ k W : Nat, 9 ≤ W → W ≤ 16 →
    (∀ x : List Byte, lzwBody W x = (lzwCodes W x).zipIdx.flatMap fun p =>
      (List.range (lzwWidth p.2 W)).map fun i => p.1.testBit (lzwWidth p.2 W - 1 - i)) ∧
    min (256 + k) (2 ^ W) - 1 < 2 ^ lzwWidth k W ∧
      2 ^ (lzwWidth k W - 1) ≤ min (256 + k) (2 ^ W) - 1 ∧ lzwWidth k W ≤ W ∧
      (2 ^ W ≤ 256 + k → lzwWidth k W = W)

/-- 45_lzw R321, R322, R323, R324: the input splits into one sequence for each emitted code; the dictionary
before the k-th code is the 256 one-byte sequences and, for each code before it, its sequence with the
next input byte, cut off at 2^W entries; the k-th code is the place of its sequence there, and the sequence
with the next input byte is not there, so each sequence is as long as the dictionary allows. -/
def Obligations.LzwCodesNameTheLongestEntries : Prop :=
  ∀ (W : Nat) (x : List Byte), 9 ≤ W → W ≤ 16 →
    ∃ parts : List (List Byte), parts.flatten = x ∧ (∀ p ∈ parts, p ≠ []) ∧
      parts.length = (lzwCodes W x).length ∧
      ∀ k p c D, parts[k]? = some p → (lzwCodes W x)[k]? = some c →
        D = ((List.range 256).map (fun b => [BitVec.ofNat 8 b]) ++ (List.range k).map fun j =>
              parts.getD j [] ++ (parts.getD (j + 1) []).take 1).take (2 ^ W) →
        D[c]? = some p ∧ ∀ q, parts[k + 1]? = some q → p ++ q.take 1 ∉ D

/-- 45_lzw R329, 48_reference_decoders R371: after any first part y of the input the encoder's dictionary holds
256 entries and one for each code emitted so far, up to 2^W and never more; at most n codes are emitted
and at least one when n is at least 1; the k-th is below min(256 + k, 2^W), so it fits its width; the
stream takes at most 16n bits and the payload 15 + 2n bytes; and no insertion of the encoder or of
DEC_LZW takes a dictionary past 2^W entries. -/
def Obligations.LzwBounds : Prop :=
  ∀ (W : Nat) (x : List Byte), 9 ≤ W → W ≤ 16 →
    (∀ y, y <+: x →
        (lzwScan W y).dictionary.length = min (256 + (lzwScan W y).codes.length) (2 ^ W) ∧
          (lzwScan W y).dictionary.length ≤ 2 ^ W ∧ (lzwScan W y).codes <+: lzwCodes W x) ∧
      (lzwCodes W x).length ≤ x.length ∧ (1 ≤ x.length → 1 ≤ (lzwCodes W x).length) ∧
      (∀ k c, (lzwCodes W x)[k]? = some c → c < min (256 + k) (2 ^ W) ∧ c < 2 ^ lzwWidth k W) ∧
      (lzwBody W x).length ≤ 16 * x.length ∧ (lzwPayload W x).length ≤ 15 + 2 * x.length ∧
      lzwInitial.length ≤ 2 ^ W ∧
      ∀ (D : List (List Byte)) (prev : Option (List Byte)) (e : List Byte), D.length ≤ 2 ^ W →
        (lzwInsert W D e).length ≤ 2 ^ W ∧ (lzwGrow W D prev e).length ≤ 2 ^ W

/-- 48_reference_decoders R362, R372: every decoder answers CorruptPayloadError to a payload shorter than the
9-byte header, with another algorithm id, or with its metadata cut short. -/
def Obligations.DecodersRefuseBadContainers : Prop :=
  ∀ (i : Instr) (d : List Byte → Decoded (List Byte)) (P : List Byte) (id : Byte),
    (i, id) ∈ [(Instr.rleEnc, (0x01 : Byte)), (.hufEnc, 0x02), (.golEnc 0, 0x03),
      (.lzwEnc 12, 0x04)] →
    matchingDecoder i = some d →
    (P.length < 9 ∨ P[0]? ≠ some id ∨ P.length < 9 + unbe ((P.drop 5).take 4)) →
      d P = .error .corruptPayload
end

