-- ==== Sys2Proof/Laws/State.lean ====
section
/-! SUPPORT. One lemma per field per update of the state, each true by rfl, so that no proof unfolds a record
update; and the same for the cases the two conditional operations end in. -/

namespace Sys2Proof.Machine

@[simp] theorem State.complete_engine (s : State) : s.complete.engine = .idle := rfl
@[simp] theorem State.complete_status (s : State) : s.complete.status = statusDone := rfl
@[simp] theorem State.complete_errinfo (s : State) : s.complete.errinfo = s.errinfo := rfl
@[simp] theorem State.complete_arg0 (s : State) : s.complete.arg0 = s.arg0 := rfl
@[simp] theorem State.complete_result (s : State) : s.complete.result = s.result := rfl
@[simp] theorem State.complete_inLen (s : State) : s.complete.inLen = s.inLen := rfl
@[simp] theorem State.complete_outLen (s : State) : s.complete.outLen = s.outLen := rfl
@[simp] theorem State.complete_bs (s : State) : s.complete.bs = s.bs := rfl
@[simp] theorem State.complete_input (s : State) : s.complete.input = s.input := rfl
@[simp] theorem State.complete_output (s : State) : s.complete.output = s.output := rfl
@[simp] theorem State.complete_params (s : State) : s.complete.params = s.params := rfl
@[simp] theorem State.complete_wait (s : State) : s.complete.wait = s.wait := rfl
@[simp] theorem State.complete_fresh (s : State) : s.complete.fresh = s.fresh := rfl
@[simp] theorem State.complete_pending (s : State) : s.complete.pending = s.pending := rfl
@[simp] theorem State.complete_replies (s : State) : s.complete.replies = s.replies := rfl

@[simp] theorem State.raise_engine (e : ErrorKind) (w : Word) (s : State) : (s.raise e w).engine = .idle := rfl
@[simp] theorem State.raise_status (e : ErrorKind) (w : Word) (s : State) : (s.raise e w).status = statusError e := rfl
@[simp] theorem State.raise_errinfo (e : ErrorKind) (w : Word) (s : State) : (s.raise e w).errinfo = w := rfl
@[simp] theorem State.raise_arg0 (e : ErrorKind) (w : Word) (s : State) : (s.raise e w).arg0 = s.arg0 := rfl
@[simp] theorem State.raise_result (e : ErrorKind) (w : Word) (s : State) : (s.raise e w).result = s.result := rfl
@[simp] theorem State.raise_inLen (e : ErrorKind) (w : Word) (s : State) : (s.raise e w).inLen = s.inLen := rfl
@[simp] theorem State.raise_outLen (e : ErrorKind) (w : Word) (s : State) : (s.raise e w).outLen = s.outLen := rfl
@[simp] theorem State.raise_bs (e : ErrorKind) (w : Word) (s : State) : (s.raise e w).bs = s.bs := rfl
@[simp] theorem State.raise_input (e : ErrorKind) (w : Word) (s : State) : (s.raise e w).input = s.input := rfl
@[simp] theorem State.raise_output (e : ErrorKind) (w : Word) (s : State) : (s.raise e w).output = s.output := rfl
@[simp] theorem State.raise_params (e : ErrorKind) (w : Word) (s : State) : (s.raise e w).params = s.params := rfl
@[simp] theorem State.raise_wait (e : ErrorKind) (w : Word) (s : State) : (s.raise e w).wait = s.wait := rfl
@[simp] theorem State.raise_fresh (e : ErrorKind) (w : Word) (s : State) : (s.raise e w).fresh = s.fresh := rfl
@[simp] theorem State.raise_pending (e : ErrorKind) (w : Word) (s : State) : (s.raise e w).pending = s.pending := rfl
@[simp] theorem State.raise_replies (e : ErrorKind) (w : Word) (s : State) : (s.raise e w).replies = s.replies := rfl

@[simp] theorem State.raiseEncode_engine (e : ErrorKind) (w : Word) (s : State) : (s.raiseEncode e w).engine = .idle := rfl
@[simp] theorem State.raiseEncode_status (e : ErrorKind) (w : Word) (s : State) : (s.raiseEncode e w).status = statusError e := rfl
@[simp] theorem State.raiseEncode_errinfo (e : ErrorKind) (w : Word) (s : State) : (s.raiseEncode e w).errinfo = w := rfl
@[simp] theorem State.raiseEncode_arg0 (e : ErrorKind) (w : Word) (s : State) : (s.raiseEncode e w).arg0 = s.arg0 := rfl
@[simp] theorem State.raiseEncode_result (e : ErrorKind) (w : Word) (s : State) : (s.raiseEncode e w).result = s.result := rfl
@[simp] theorem State.raiseEncode_inLen (e : ErrorKind) (w : Word) (s : State) : (s.raiseEncode e w).inLen = s.inLen := rfl
@[simp] theorem State.raiseEncode_outLen (e : ErrorKind) (w : Word) (s : State) : (s.raiseEncode e w).outLen = 0 := rfl
@[simp] theorem State.raiseEncode_bs (e : ErrorKind) (w : Word) (s : State) : (s.raiseEncode e w).bs = s.bs := rfl
@[simp] theorem State.raiseEncode_input (e : ErrorKind) (w : Word) (s : State) : (s.raiseEncode e w).input = s.input := rfl
@[simp] theorem State.raiseEncode_output (e : ErrorKind) (w : Word) (s : State) : (s.raiseEncode e w).output = [] := rfl
@[simp] theorem State.raiseEncode_params (e : ErrorKind) (w : Word) (s : State) : (s.raiseEncode e w).params = s.params := rfl
@[simp] theorem State.raiseEncode_wait (e : ErrorKind) (w : Word) (s : State) : (s.raiseEncode e w).wait = s.wait := rfl
@[simp] theorem State.raiseEncode_fresh (e : ErrorKind) (w : Word) (s : State) : (s.raiseEncode e w).fresh = s.fresh := rfl
@[simp] theorem State.raiseEncode_pending (e : ErrorKind) (w : Word) (s : State) : (s.raiseEncode e w).pending = s.pending := rfl
@[simp] theorem State.raiseEncode_replies (e : ErrorKind) (w : Word) (s : State) : (s.raiseEncode e w).replies = s.replies := rfl

@[simp] theorem State.accept_engine (w : Word) (s : State) : (s.accept w).engine = .busy w := rfl
@[simp] theorem State.accept_status (w : Word) (s : State) : (s.accept w).status = statusBusy := rfl
@[simp] theorem State.accept_errinfo (w : Word) (s : State) : (s.accept w).errinfo = s.errinfo := rfl
@[simp] theorem State.accept_arg0 (w : Word) (s : State) : (s.accept w).arg0 = s.arg0 := rfl
@[simp] theorem State.accept_result (w : Word) (s : State) : (s.accept w).result = s.result := rfl
@[simp] theorem State.accept_inLen (w : Word) (s : State) : (s.accept w).inLen = s.inLen := rfl
@[simp] theorem State.accept_outLen (w : Word) (s : State) : (s.accept w).outLen = s.outLen := rfl
@[simp] theorem State.accept_bs (w : Word) (s : State) : (s.accept w).bs = s.bs := rfl
@[simp] theorem State.accept_input (w : Word) (s : State) : (s.accept w).input = s.input := rfl
@[simp] theorem State.accept_output (w : Word) (s : State) : (s.accept w).output = s.output := rfl
@[simp] theorem State.accept_params (w : Word) (s : State) : (s.accept w).params = s.params := rfl
@[simp] theorem State.accept_wait (w : Word) (s : State) : (s.accept w).wait = Config.latency s.fresh := rfl
@[simp] theorem State.accept_fresh (w : Word) (s : State) : (s.accept w).fresh = s.fresh + 1 := rfl
@[simp] theorem State.accept_pending (w : Word) (s : State) : (s.accept w).pending = s.pending := rfl
@[simp] theorem State.accept_replies (w : Word) (s : State) : (s.accept w).replies = s.replies := rfl

@[simp] theorem State.storePayload_engine (P : List Byte) (s : State) : (s.storePayload P).engine = .idle := rfl
@[simp] theorem State.storePayload_status (P : List Byte) (s : State) : (s.storePayload P).status = statusDone := rfl
@[simp] theorem State.storePayload_errinfo (P : List Byte) (s : State) : (s.storePayload P).errinfo = s.errinfo := rfl
@[simp] theorem State.storePayload_arg0 (P : List Byte) (s : State) : (s.storePayload P).arg0 = s.arg0 := rfl
@[simp] theorem State.storePayload_result (P : List Byte) (s : State) : (s.storePayload P).result = s.result := rfl
@[simp] theorem State.storePayload_inLen (P : List Byte) (s : State) : (s.storePayload P).inLen = s.inLen := rfl
@[simp] theorem State.storePayload_outLen (P : List Byte) (s : State) : (s.storePayload P).outLen = BitVec.ofNat 32 P.length := rfl
@[simp] theorem State.storePayload_bs (P : List Byte) (s : State) : (s.storePayload P).bs = s.bs := rfl
@[simp] theorem State.storePayload_input (P : List Byte) (s : State) : (s.storePayload P).input = s.input := rfl
@[simp] theorem State.storePayload_output (P : List Byte) (s : State) : (s.storePayload P).output = Memory.ofBytes 0 P := rfl
@[simp] theorem State.storePayload_params (P : List Byte) (s : State) : (s.storePayload P).params = s.params := rfl
@[simp] theorem State.storePayload_wait (P : List Byte) (s : State) : (s.storePayload P).wait = s.wait := rfl
@[simp] theorem State.storePayload_fresh (P : List Byte) (s : State) : (s.storePayload P).fresh = s.fresh := rfl
@[simp] theorem State.storePayload_pending (P : List Byte) (s : State) : (s.storePayload P).pending = s.pending := rfl
@[simp] theorem State.storePayload_replies (P : List Byte) (s : State) : (s.storePayload P).replies = s.replies := rfl

@[simp] theorem State.resetPulse_engine (s : State) : s.resetPulse.engine = .idle := rfl
@[simp] theorem State.resetPulse_status (s : State) : s.resetPulse.status = 0 := rfl
@[simp] theorem State.resetPulse_errinfo (s : State) : s.resetPulse.errinfo = 0 := rfl
@[simp] theorem State.resetPulse_arg0 (s : State) : s.resetPulse.arg0 = 0 := rfl
@[simp] theorem State.resetPulse_result (s : State) : s.resetPulse.result = 0 := rfl
@[simp] theorem State.resetPulse_inLen (s : State) : s.resetPulse.inLen = 0 := rfl
@[simp] theorem State.resetPulse_outLen (s : State) : s.resetPulse.outLen = 0 := rfl
@[simp] theorem State.resetPulse_bs (s : State) : s.resetPulse.bs = { bits := [], rpos := 0 } := rfl
@[simp] theorem State.resetPulse_input (s : State) : s.resetPulse.input = [] := rfl
@[simp] theorem State.resetPulse_output (s : State) : s.resetPulse.output = [] := rfl
@[simp] theorem State.resetPulse_params (s : State) : s.resetPulse.params = s.params := rfl
@[simp] theorem State.resetPulse_wait (s : State) : s.resetPulse.wait = 0 := rfl
@[simp] theorem State.resetPulse_fresh (s : State) : s.resetPulse.fresh = s.fresh := rfl
@[simp] theorem State.resetPulse_pending (s : State) : s.resetPulse.pending = s.pending := rfl
@[simp] theorem State.resetPulse_replies (s : State) : s.resetPulse.replies = s.replies := rfl

@[simp] theorem State.busRead_engine (s : State) (width : Nat) (a : Word) : (s.busRead width a).engine = s.engine := rfl
@[simp] theorem State.busRead_status (s : State) (width : Nat) (a : Word) : (s.busRead width a).status = s.status := rfl
@[simp] theorem State.busRead_errinfo (s : State) (width : Nat) (a : Word) : (s.busRead width a).errinfo = s.errinfo := rfl
@[simp] theorem State.busRead_arg0 (s : State) (width : Nat) (a : Word) : (s.busRead width a).arg0 = s.arg0 := rfl
@[simp] theorem State.busRead_result (s : State) (width : Nat) (a : Word) : (s.busRead width a).result = s.result := rfl
@[simp] theorem State.busRead_inLen (s : State) (width : Nat) (a : Word) : (s.busRead width a).inLen = s.inLen := rfl
@[simp] theorem State.busRead_outLen (s : State) (width : Nat) (a : Word) : (s.busRead width a).outLen = s.outLen := rfl
@[simp] theorem State.busRead_bs (s : State) (width : Nat) (a : Word) : (s.busRead width a).bs = s.bs := rfl
@[simp] theorem State.busRead_input (s : State) (width : Nat) (a : Word) : (s.busRead width a).input = s.input := rfl
@[simp] theorem State.busRead_output (s : State) (width : Nat) (a : Word) : (s.busRead width a).output = s.output := rfl
@[simp] theorem State.busRead_params (s : State) (width : Nat) (a : Word) : (s.busRead width a).params = s.params := rfl
@[simp] theorem State.busRead_wait (s : State) (width : Nat) (a : Word) : (s.busRead width a).wait = s.wait := rfl
@[simp] theorem State.busRead_fresh (s : State) (width : Nat) (a : Word) : (s.busRead width a).fresh = s.fresh + width := rfl
@[simp] theorem State.busRead_pending (s : State) (width : Nat) (a : Word) : (s.busRead width a).pending = s.pending := rfl
@[simp] theorem State.busRead_replies (s : State) (width : Nat) (a : Word) : (s.busRead width a).replies = s.readValue width a :: s.replies := rfl

@[simp] theorem State.withFetchWord_engine (s : State) (nbits w : Nat) : (s.withFetchWord nbits w).engine = .busy (tableWord nbits w) := rfl
@[simp] theorem State.withFetchWord_status (s : State) (nbits w : Nat) : (s.withFetchWord nbits w).status = statusBusy := rfl
@[simp] theorem State.withFetchWord_errinfo (s : State) (nbits w : Nat) : (s.withFetchWord nbits w).errinfo = s.errinfo := rfl
@[simp] theorem State.withFetchWord_arg0 (s : State) (nbits w : Nat) : (s.withFetchWord nbits w).arg0 = s.arg0 := rfl
@[simp] theorem State.withFetchWord_result (s : State) (nbits w : Nat) : (s.withFetchWord nbits w).result = s.result := rfl
@[simp] theorem State.withFetchWord_inLen (s : State) (nbits w : Nat) : (s.withFetchWord nbits w).inLen = s.inLen := rfl
@[simp] theorem State.withFetchWord_outLen (s : State) (nbits w : Nat) : (s.withFetchWord nbits w).outLen = s.outLen := rfl
@[simp] theorem State.withFetchWord_bs (s : State) (nbits w : Nat) : (s.withFetchWord nbits w).bs = s.bs := rfl
@[simp] theorem State.withFetchWord_input (s : State) (nbits w : Nat) : (s.withFetchWord nbits w).input = s.input := rfl
@[simp] theorem State.withFetchWord_output (s : State) (nbits w : Nat) : (s.withFetchWord nbits w).output = s.output := rfl
@[simp] theorem State.withFetchWord_params (s : State) (nbits w : Nat) : (s.withFetchWord nbits w).params = s.params := rfl
@[simp] theorem State.withFetchWord_wait (s : State) (nbits w : Nat) : (s.withFetchWord nbits w).wait = 0 := rfl
@[simp] theorem State.withFetchWord_fresh (s : State) (nbits w : Nat) : (s.withFetchWord nbits w).fresh = s.fresh := rfl
@[simp] theorem State.withFetchWord_pending (s : State) (nbits w : Nat) : (s.withFetchWord nbits w).pending = s.pending := rfl
@[simp] theorem State.withFetchWord_replies (s : State) (nbits w : Nat) : (s.withFetchWord nbits w).replies = s.replies := rfl

end Sys2Proof.Machine
end

