-- ==== Sys2Proof/Laws/Bits.lean ====
section
/-! SUPPORT. The laws of bit and byte sequences: lengths, and each conversion undone by its inverse. -/

namespace Sys2Proof.Machine

@[simp] theorem msbBits_length (v n : Nat) : (msbBits v n).length = n := by
  induction n with
  | zero => rfl
  | succ n ih => simp [msbBits, ih]

@[simp] theorem beBytes_length (v n : Nat) : (beBytes v n).length = n := by
  induction n with
  | zero => rfl
  | succ n ih => simp [beBytes, ih]

@[simp] theorem pack_length (s : List Bool) : (pack s).length = ceil8 s.length := by simp [pack]

@[simp] theorem unpack_length (bytes : List Byte) (c : Nat) : (unpack bytes c).length = c := by
  simp [unpack]

/-- The bit of `msb_bits(v, n)` at each position: bit n - 1 - i of v. -/
theorem msbBits_eq_map (v n : Nat) :
    msbBits v n = (List.range n).map fun i => v.testBit (n - 1 - i) := by
  induction n with
  | zero => rfl
  | succ n ih =>
    rw [msbBits, ih, List.range_succ_eq_map, List.map_cons, List.map_map]
    congr 1
    refine List.map_congr_left fun i _ => ?_
    simp only [Function.comp]
    congr 1
    omega

theorem foldl_bits (s : List Bool) (v : Nat) :
    s.foldl (fun v b => 2 * v + b.toNat) v = v * 2 ^ s.length + bitsVal s := by
  induction s generalizing v with
  | nil => simp [bitsVal]
  | cons b s ih =>
    simp only [List.foldl_cons, bitsVal, List.length_cons]
    rw [ih, ih (2 * 0 + b.toNat)]
    ring

@[simp] theorem bitsVal_nil : bitsVal [] = 0 := rfl

theorem bitsVal_cons (b : Bool) (s : List Bool) :
    bitsVal (b :: s) = b.toNat * 2 ^ s.length + bitsVal s := by
  simp only [bitsVal, List.foldl_cons]
  rw [foldl_bits]
  simp [bitsVal]

theorem bitsVal_append (s t : List Bool) : bitsVal (s ++ t) = bitsVal s * 2 ^ t.length + bitsVal t := by
  rw [bitsVal, List.foldl_append, foldl_bits]
  rfl

theorem bitsVal_lt (s : List Bool) : bitsVal s < 2 ^ s.length := by
  induction s with
  | nil => simp
  | cons b s ih =>
    rw [bitsVal_cons, List.length_cons, Nat.pow_succ]
    cases b <;> (simp; omega)

/-- The value of the low n bits of v is v modulo 2^n. -/
theorem bitsVal_msbBits (v n : Nat) : bitsVal (msbBits v n) = v % 2 ^ n := by
  induction n with
  | zero => simp [msbBits, Nat.mod_one]
  | succ n ih =>
    rw [msbBits, bitsVal_cons, ih, msbBits_length, Nat.mod_pow_succ, Nat.testBit_eq_decide_div_mod_eq]
    rcases Nat.mod_two_eq_zero_or_one (v / 2 ^ n) with h | h <;> simp [h] <;> ring

theorem foldl_bytes (s : List Byte) (v : Nat) :
    s.foldl (fun v b => 256 * v + b.toNat) v = v * 256 ^ s.length + unbe s := by
  induction s generalizing v with
  | nil => simp [unbe]
  | cons b s ih =>
    simp only [List.foldl_cons, unbe, List.length_cons]
    rw [ih, ih (256 * 0 + b.toNat)]
    ring

theorem unbe_cons (b : Byte) (s : List Byte) : unbe (b :: s) = b.toNat * 256 ^ s.length + unbe s := by
  simp only [unbe, List.foldl_cons]
  rw [foldl_bytes]
  simp [unbe]

/-- `unbe` undoes `be`: the number modulo 256^n. -/
theorem unbe_beBytes (v n : Nat) : unbe (beBytes v n) = v % 256 ^ n := by
  induction n with
  | zero => simp [beBytes, unbe, Nat.mod_one]
  | succ n ih =>
    rw [beBytes, unbe_cons, ih, beBytes_length, Nat.mod_pow_succ, BitVec.toNat_ofNat]
    ring

theorem msbBits_getElem? (v n i : Nat) :
    (msbBits v n)[i]? = if i < n then some (v.testBit (n - 1 - i)) else none := by
  rw [msbBits_eq_map, List.getElem?_map]
  by_cases h : i < n
  · simp [h]
  · simp [h]

/-- Bit j of the value of a sequence, counting from the least significant. -/
theorem testBit_bitsVal (s : List Bool) (j : Nat) :
    (bitsVal s).testBit j = if j < s.length then s.getD (s.length - 1 - j) false else false := by
  induction s with
  | nil => simp
  | cons b s ih =>
    have hlt := bitsVal_lt s
    rw [bitsVal_cons, Nat.mul_comm, Nat.testBit_two_pow_mul_add _ hlt, ih]
    simp only [List.length_cons]
    by_cases h : j < s.length
    · rw [if_pos h, if_pos h, if_pos (by omega)]
      rw [show s.length + 1 - 1 - j = (s.length - 1 - j) + 1 by omega]
      simp
    · rw [if_neg h]
      by_cases h' : j = s.length
      · subst h'
        cases b <;> simp
      · rw [if_neg (by omega)]
        have hb : b.toNat < 2 ^ (j - s.length) := by
          have h2 : 2 ^ 1 ≤ 2 ^ (j - s.length) := Nat.pow_le_pow_right (by omega) (by omega)
          cases b <;> simp <;> omega
        rw [Nat.testBit_lt_two_pow hb]

/-- Bit k of byte j of a packed stream (40_bitstream R155). -/
theorem streamByte_getLsbD (s : List Bool) (j k : Nat) (h : k < 8) :
    (streamByte s j).getLsbD k = s.getD (8 * j + (7 - k)) false := by
  rw [streamByte, BitVec.getLsbD_ofNat, testBit_bitsVal]
  simp only [h, List.length_map, List.length_range, decide_true, Bool.true_and, if_true]
  rw [List.getD_eq_getElem?_getD, List.getElem?_map]
  simp [show 7 - k < 8 by omega]

/-- Unpacking undoes packing. -/
theorem unpack_pack (s : List Bool) : unpack (pack s) s.length = s := by
  refine List.ext_getElem (by simp) fun i h1 h2 => ?_
  have hi : i / 8 < ceil8 s.length := by simp only [ceil8]; omega
  simp only [unpack, List.getElem_map, List.getElem_range, pack]
  rw [List.getD_eq_getElem?_getD, List.getElem?_map]
  simp only [List.getElem?_range hi, Option.map_some, Option.getD_some]
  rw [streamByte_getLsbD _ _ _ (by omega), show 8 * (i / 8) + (7 - (7 - i % 8)) = i by omega]
  simp [h2]

end Sys2Proof.Machine
end

