-- ==== Sys2Proof/Laws/Ops.lean ====
section
/-! SUPPORT. For each shared operation of the machine, once, everything it can do. -/

namespace Sys2Proof.Machine

/-- The modifier check either lets a command run or fails its word with no other effect. -/
theorem checked_cases (i : Instr) (s : State) (run : Result) :
    (i.wellFormed ∧ checked i s run = run) ∨
      (¬ i.wellFormed ∧ checked i s run = .next (s.raise .configuration (encode i))) := by
  unfold checked Instr.wellFormed
  cases h : i.check
  · exact .inl ⟨rfl, rfl⟩
  · exact .inr ⟨by simp, rfl⟩

theorem checked_of_wellFormed {i : Instr} (h : i.wellFormed) (s : State) (run : Result) :
    checked i s run = run := by
  rcases checked_cases i s run with ⟨_, h'⟩ | ⟨h', _⟩
  · exact h'
  · exact absurd h h'

theorem checked_of_not_wellFormed {i : Instr} (h : ¬ i.wellFormed) (s : State) (run : Result) :
    checked i s run = .next (s.raise .configuration (encode i)) := by
  rcases checked_cases i s run with ⟨h', _⟩ | ⟨_, h'⟩
  · exact absurd h' h
  · exact h'

/-- A payload is stored if it fits and is a capacity error if not. -/
theorem finishEncode_cases (w : Word) (P : List Byte) (s : State) :
    (P.length ≤ s.params.outCap ∧ s.finishEncode w P = s.storePayload P) ∨
      (s.params.outCap < P.length ∧ s.finishEncode w P = s.raiseEncode .capacity w) := by
  unfold State.finishEncode
  split
  · exact .inr ⟨by omega, rfl⟩
  · exact .inl ⟨by omega, rfl⟩

/-- Everything an encode can do: the IN_LEN error, the fault on an UNWRITTEN byte, the codec's own error,
or the end of an encode of the input that stands in IN. -/
theorem encodeWith_cases (w : Word) (payload : List Byte → Except ErrorKind (List Byte)) (s : State) :
    (s.params.inCap < s.inLen.toNat ∧
        encodeWith w payload s = .next (s.raiseEncode .configuration w)) ∨
      (s.inLen.toNat ≤ s.params.inCap ∧ ∃ a,
        s.input.readBytes 0 s.inLen.toNat = .error a ∧
        encodeWith w payload s = .fault (.unwrittenInput a)) ∨
      (s.inLen.toNat ≤ s.params.inCap ∧ ∃ x e,
        s.input.readBytes 0 s.inLen.toNat = .ok x ∧ payload x = .error e ∧
        encodeWith w payload s = .next (s.raiseEncode e w)) ∨
      (s.inLen.toNat ≤ s.params.inCap ∧ ∃ x P,
        s.input.readBytes 0 s.inLen.toNat = .ok x ∧ payload x = .ok P ∧
        encodeWith w payload s = .next (s.finishEncode w P)) := by
  unfold encodeWith
  by_cases h : s.inLen.toNat > s.params.inCap
  · exact .inl ⟨h, by simp [h]⟩
  · have h' : s.inLen.toNat ≤ s.params.inCap := by omega
    cases hx : s.input.readBytes 0 s.inLen.toNat with
    | error a => exact .inr (.inl ⟨h', a, rfl, by simp [h]⟩)
    | ok x =>
      cases hP : payload x with
      | error e => exact .inr (.inr (.inl ⟨h', x, e, rfl, hP, by simp [h, hP]⟩))
      | ok P => exact .inr (.inr (.inr ⟨h', x, P, rfl, hP, by simp [h, hP]⟩))

/-- The input of an encode in terms of its bytes: what IN holds at offsets 0 to IN_LEN - 1. -/
theorem encodeWith_of_input (w : Word) (payload : List Byte → Except ErrorKind (List Byte))
    {s : State} {x : List Byte} (hl : s.inLen.toNat = x.length) (hc : x.length ≤ s.params.inCap)
    (hx : ∀ a, a < x.length → s.input.read a = x[a]?) :
    encodeWith w payload s =
      match payload x with
      | .error e => .next (s.raiseEncode e w)
      | .ok P => .next (s.finishEncode w P) := by
  have hr : s.input.readBytes 0 s.inLen.toNat = .ok x := by
    rw [hl]
    exact Memory.readBytes_eq fun j hj => by simpa using hx j hj
  unfold encodeWith
  exact (if_neg (by omega)).trans (by cases hP : payload x <;> simp [hr, hP])

/-- The effect of a register write: an accept, a stored operand, or nothing. -/
theorem writeReg_cases (s : State) (v : Word) (r : Reg) :
    s.writeReg v r = s ∨ (s.engine = .idle ∧ s.writeReg v r = s.accept v) ∨
      (s.engine = .idle ∧ s.writeReg v r = { s with arg0 := v }) ∨
      (s.engine = .idle ∧ s.writeReg v r = { s with inLen := v }) := by
  cases r <;> simp only [State.writeReg]
  all_goals by_cases h : s.engine = .idle <;> simp [h]

/-- The effect of a host write: nothing, a register's write, or bytes stored inside IN while IDLE. -/
theorem busWrite_cases (s : State) (width : Nat) (a data : Word) :
    s.busWrite width a data = s ∨ (∃ r, s.busWrite width a data = s.writeReg data r) ∨
      (s.engine = .idle ∧ offsetOf a + width ≤ s.params.inCap ∧ s.busWrite width a data =
        { s with input := s.input.writeBytes (offsetOf a) (beBytes data.toNat width) }) := by
  unfold State.busWrite
  split
  · split
    · split
      · exact .inr (.inl ⟨_, rfl⟩)
      · exact .inl rfl
    · exact .inl rfl
  · split
    · rename_i h
      exact .inr (.inr ⟨h.2, (of_decide_eq_true h.1).2.2, rfl⟩)
    · exact .inl rfl
  · exact .inl rfl
  · exact .inl rfl
  · exact .inl rfl

/-- While BUSY a host write has no effect (70_reset R453, R454). -/
theorem busWrite_of_busy {s : State} {w : Word} (h : s.engine = .busy w) (width : Nat) (a data : Word) :
    s.busWrite width a data = s := by
  rcases busWrite_cases s width a data with h' | ⟨r, h'⟩ | ⟨h', _⟩
  · exact h'
  · rcases writeReg_cases s data r with h'' | ⟨h'', _⟩ | ⟨h'', _⟩ | ⟨h'', _⟩
    · exact h'.trans h''
    all_goals simp [h] at h''
  · simp [h] at h'

/-- A WAIT turn reads STATUS once and stays pending while BUSY. -/
theorem pollTurn_cases (s : State) :
    (busyFlag s.status = true ∧
        s.pollTurn = { s.busRead 4 statusAddress with pending := .poll :: s.pending }) ∨
      (busyFlag s.status = false ∧ s.pollTurn = s.busRead 4 statusAddress) := by
  unfold State.pollTurn
  cases h : busyFlag s.status
  · exact .inr ⟨rfl, by simp⟩
  · exact .inl ⟨rfl, by simp⟩

/-- Everything a host turn can do. -/
theorem perform_cases (s : State) (e : HostEvent) :
    s.perform e = s ∨ (∃ width a data, s.perform e = s.busWrite width a data) ∨
      (∃ width a, s.perform e = s.busRead width a) ∨ (e = .poll ∧ s.perform e = s.pollTurn) ∨
      (e = .reset ∧ s.perform e = s.resetPulse) := by
  cases e with
  | write width addr data =>
    cases h : Params.blockAddress s.params addr with
    | none => exact .inl (by simp [State.perform, h])
    | some a => exact .inr (.inl ⟨width, a, data, by simp [State.perform, h]⟩)
  | read width addr =>
    cases h : Params.blockAddress s.params addr with
    | none => exact .inl (by simp [State.perform, h])
    | some a => exact .inr (.inr (.inl ⟨width, a, by simp [State.perform, h]⟩))
  | poll => exact .inr (.inr (.inr (.inl ⟨rfl, rfl⟩)))
  | reset => exact .inr (.inr (.inr (.inr ⟨rfl, rfl⟩)))

/-- Everything the completion step can do. -/
theorem completionStep_cases (w : Word) (s : State) :
    (∃ i, decode w = .ok i ∧ completionStep w s = exec i s) ∨
      (∃ e, decode w = .error e ∧ completionStep w s = .next (s.raise .configuration w)) := by
  unfold completionStep
  cases h : decode w with
  | ok i => exact .inl ⟨i, rfl, rfl⟩
  | error e => exact .inr ⟨e, rfl, rfl⟩

/-- Everything a step can do: a host turn while IDLE or while latency is left, or the completion step. -/
theorem step_cases (s : State) :
    (∃ u, s.atHostTurn = some u ∧ step s = .next u.hostTurn) ∨
      (∃ w, s.engine = .busy w ∧ s.wait = 0 ∧ step s = completionStep w s) := by
  unfold step cycle State.atHostTurn
  cases he : s.engine with
  | idle => exact .inl ⟨s, rfl, rfl⟩
  | busy w =>
    cases hw : s.wait with
    | zero => exact .inr ⟨w, rfl, rfl, rfl⟩
    | succ k => exact .inl ⟨{ s with wait := k }, by rw [he], by rw [he]⟩

/-- A step at a host turn is that host turn. -/
theorem step_of_hostTurn {s u : State} (h : s.atHostTurn = some u) : step s = .next u.hostTurn := by
  rcases step_cases s with ⟨u', h', hs⟩ | ⟨w, he, hw, _⟩
  · rw [h'] at h
    rw [hs, Option.some.inj h]
  · simp [State.atHostTurn, he, hw] at h

/-- What a host turn starts from: the state, with one latency turn used up if the engine is busy. -/
theorem atHostTurn_cases {s u : State} (h : s.atHostTurn = some u) :
    (s.engine = .idle ∧ u = s) ∨ (∃ w k, s.engine = .busy w ∧ s.wait = k + 1 ∧ u = { s with wait := k }) := by
  unfold State.atHostTurn at h
  cases he : s.engine with
  | idle =>
    rw [he] at h
    exact .inl ⟨rfl, (Option.some.inj h).symm⟩
  | busy w =>
    cases hw : s.wait with
    | zero => simp [he, hw] at h
    | succ k =>
      simp only [he, hw, Option.some.injEq] at h
      exact .inr ⟨w, k, rfl, rfl, h.symm⟩

end Sys2Proof.Machine
end

