-- ==== Sys2Proof/Laws/Bus.lean ====
section
/-! SUPPORT. Host addresses: which space and offset a host address placed at DCP_BASE reaches. -/

namespace Sys2Proof.Machine

/-- A host address less than 2^32 past DCP_BASE reaches the block address of that distance. -/
theorem blockAddress_add (p : Params) {a : Nat} (h : a < 2 ^ 32) :
    Params.blockAddress p (p.dcpBase + a) = some (BitVec.ofNat 32 a) := by
  unfold Params.blockAddress
  rw [if_pos (by omega), Nat.add_sub_cancel_left]

theorem offsetOf_ofNat (a : Nat) : offsetOf (BitVec.ofNat 32 a) = a % 2 ^ 28 := by
  simp only [offsetOf, BitVec.extractLsb'_toNat, BitVec.toNat_ofNat, Nat.shiftRight_zero]
  omega

theorem spaceOf_ofNat {a : Nat} (h : a < 2 ^ 32) :
    spaceOf (BitVec.ofNat 32 a) =
      if a / 2 ^ 28 = 0 then .reg else if a / 2 ^ 28 = 1 then .input
      else if a / 2 ^ 28 = 2 then .output else if a / 2 ^ 28 = 3 then .bsw else .inert := by
  have ha : ((BitVec.ofNat 32 a).extractLsb' 28 4).toNat = a / 2 ^ 28 := by
    simp only [BitVec.extractLsb'_toNat, BitVec.toNat_ofNat, Nat.shiftRight_eq_div_pow]
    omega
  unfold spaceOf
  rw [ha]
  generalize a / 2 ^ 28 = q
  match q with
  | 0 => rfl
  | 1 => rfl
  | 2 => rfl
  | 3 => rfl
  | n + 4 => simp

/-- Every field of the block is the same at the host turn as before it. -/
theorem atHostTurn_fields {s u : State} (h : s.atHostTurn = some u) :
    u.engine = s.engine ∧ u.status = s.status ∧ u.errinfo = s.errinfo ∧ u.arg0 = s.arg0 ∧
      u.result = s.result ∧ u.inLen = s.inLen ∧ u.outLen = s.outLen ∧ u.bs = s.bs ∧
      u.input = s.input ∧ u.output = s.output ∧ u.params = s.params ∧ u.pending = s.pending ∧
      u.fresh = s.fresh ∧ u.replies = s.replies := by
  rcases atHostTurn_cases h with ⟨_, rfl⟩ | ⟨w, k, _, _, rfl⟩ <;> simp

/-- A step at a host turn with a pending event is that event. -/
theorem step_of_event {s u : State} {e : HostEvent} {rest : List HostEvent}
    (h : s.atHostTurn = some u) (hp : s.pending = e :: rest) :
    step s = .next (({ u with pending := rest } : State).perform e) := by
  rw [step_of_hostTurn h, State.hostTurn,
    (atHostTurn_fields h).2.2.2.2.2.2.2.2.2.2.2.1, hp]

/-- A write or read that reaches the block is a bus write or read of its block address. -/
theorem perform_write (s : State) {width a : Nat} (data : Word) (h : a < 2 ^ 32) :
    s.perform (.write width (s.params.dcpBase + a) data) = s.busWrite width (BitVec.ofNat 32 a) data := by
  simp only [State.perform, blockAddress_add s.params h]

theorem perform_read (s : State) {width a : Nat} (h : a < 2 ^ 32) :
    s.perform (.read width (s.params.dcpBase + a)) = s.busRead width (BitVec.ofNat 32 a) := by
  simp only [State.perform, blockAddress_add s.params h]

/-- A host turn of a busy machine, short of a reset, changes only the model's own fields. -/
theorem hostTurn_of_busy {u : State} {w : Word} (h : u.engine = .busy w) (hr : HostEvent.reset ∉ u.pending) :
    ∃ f p r, u.hostTurn = { u with fresh := f, pending := p, replies := r } ∧ HostEvent.reset ∉ p := by
  unfold State.hostTurn
  split
  · exact ⟨u.fresh, u.pending, u.replies, rfl, hr⟩
  · rename_i e rest hp
    rw [hp] at hr
    simp only [List.mem_cons, not_or] at hr
    rcases perform_cases { u with pending := rest } e with
      h' | ⟨_, _, _, h'⟩ | ⟨_, _, h'⟩ | ⟨_, h'⟩ | ⟨h', _⟩
    · rw [h']
      exact ⟨u.fresh, rest, u.replies, rfl, hr.2⟩
    · rw [h', busWrite_of_busy (w := w) (by exact h)]
      exact ⟨u.fresh, rest, u.replies, rfl, hr.2⟩
    · rw [h']
      exact ⟨_, rest, _, rfl, hr.2⟩
    · rw [h']
      rcases pollTurn_cases { u with pending := rest } with ⟨_, h''⟩ | ⟨_, h''⟩
      · rw [h'']
        exact ⟨_, .poll :: rest, _, rfl, by simp [hr.2]⟩
      · rw [h'']
        exact ⟨_, rest, _, rfl, hr.2⟩
    · exact absurd h'.symm hr.1

end Sys2Proof.Machine
end

