-- ==== Sys2Proof/Laws/Decode.lean ====
section
/-! SUPPORT. The fields of a command word, the opcode map, and what a successful decode says of the word. -/

namespace Sys2Proof

theorem opcField_toNat (w : Word) : (opcField w).toNat = w.toNat % 256 := by simp [opcField]

theorem modField_toNat (w : Word) : (modField w).toNat = w.toNat / 256 % 256 := by
  simp [modField, Nat.shiftRight_eq_div_pow]

theorem rsvField_toNat (w : Word) : (rsvField w).toNat = w.toNat / 65536 := by
  have := w.isLt
  simp only [rsvField, BitVec.extractLsb'_toNat, Nat.shiftRight_eq_div_pow]
  omega

/-- A word is its three fields. -/
theorem word_eq_fields (w : Word) : w = rsvField w ++ modField w ++ opcField w := by
  apply BitVec.eq_of_getLsbD_eq
  intro i hi
  simp only [rsvField, modField, opcField, BitVec.getLsbD_append, BitVec.getLsbD_extractLsb']
  by_cases h1 : i < 8
  · simp [h1]
  · by_cases h2 : i - 8 < 8
    · simp only [h1, h2, if_true, if_false, decide_true, Bool.true_and]
      congr 1
      omega
    · simp only [h1, h2, if_false]
      rw [show 16 + (i - 8 - 8) = i by omega]
      simp only [Bool.eq_and_self, decide_eq_true_eq]
      omega

theorem Opcode.find_eq_some (b : Byte) (o : Opcode) : Opcode.find b = some o ↔ b = o.code := by
  cases o <;> revert b <;> decide

theorem Opcode.find_eq_none (b : Byte) :
    Opcode.find b = none ↔ b.toNat ∉ [0, 1, 2, 3, 4, 5, 0x10, 0x11, 0x12, 0x13] := by
  revert b; decide

/-- A word that decodes has no reserved bit set, its command's opcode and its command's modifier. -/
theorem decode_eq_ok {w : Word} {i : Instr} (h : decode w = .ok i) :
    rsvField w = 0 ∧ opcField w = i.opcode.code ∧ modField w = i.modifier := by
  unfold decode at h
  split at h
  · cases h
  · rename_i o ho
    split at h
    · rename_i hr
      refine ⟨hr, ?_⟩
      rw [(Opcode.find_eq_some _ _).1 ho]
      cases o <;> simp only [assemble, noModifier] at h <;> (try split at h) <;> cases h <;>
        simp_all [Instr.opcode, Instr.modifier]
    · cases h

end Sys2Proof
end

