-- ==== Sys2Proof/Laws/Lzw.lean ====
section
/-! SUPPORT. What one byte of the LZW scan can do, and the scan of a longer input. -/

namespace Sys2Proof.Machine

@[simp] theorem lzwScan_nil (W : Nat) : lzwScan W [] = lzwStart := rfl

@[simp] theorem lzwScan_append (W : Nat) (x y : List Byte) :
    lzwScan W (x ++ y) = y.foldl (lzwStep W) (lzwScan W x) := List.foldl_append ..

@[simp] theorem lzwStart_dictionary : lzwStart.dictionary = lzwInitial := rfl

@[simp] theorem lzwStart_current : lzwStart.current = [] := rfl

@[simp] theorem lzwStart_codes : lzwStart.codes = [] := rfl

@[simp] theorem lzwInitial_length : lzwInitial.length = 256 := by simp [lzwInitial]

/-- One input byte either extends the current sequence, or emits its code, inserts it with that byte and
starts again at that byte. -/
theorem lzwStep_cases (W : Nat) (t : LzwState) (c : Byte) :
    (t.current ++ [c] ∈ t.dictionary ∧ lzwStep W t c = { t with current := t.current ++ [c] }) ∨
      (t.current ++ [c] ∉ t.dictionary ∧ lzwStep W t c =
        { dictionary := lzwInsert W t.dictionary (t.current ++ [c])
          current := [c]
          codes := t.codes ++ [lzwCode t.dictionary t.current] }) := by
  by_cases h : t.current ++ [c] ∈ t.dictionary
  · exact .inl ⟨h, by simp [lzwStep, h]⟩
  · exact .inr ⟨h, by simp [lzwStep, h]⟩

end Sys2Proof.Machine
end

