-- ==== Sys2Proof/Laws/PerInstr.lean ====
section
/-! SUPPORT. Statements about every command as syntax, one lemma per constructor. -/

namespace Sys2Proof.Laws.TableRow

open Sys2Proof

/-- The word of a command matches its row of opcode_table.json, and the opcode map finds its opcode from
bits 7:0 of the word. -/
def Statement (i : Instr) : Prop :=
  encode i &&& i.opcode.mask = i.opcode.pattern ∧ Opcode.find (opcField (encode i)) = some i.opcode

theorem nop : Statement .nop := by unfold Statement; decide

theorem bsClear : Statement .bsClear := by unfold Statement; decide

theorem bsWrite (count : Byte) : Statement (.bsWrite count) := by
  unfold Statement; revert count; decide

theorem bsRead (count : Byte) : Statement (.bsRead count) := by
  unfold Statement; revert count; decide

theorem bsFinish : Statement .bsFinish := by unfold Statement; decide

theorem bsLoad : Statement .bsLoad := by unfold Statement; decide

theorem rleEnc : Statement .rleEnc := by unfold Statement; decide

theorem hufEnc : Statement .hufEnc := by unfold Statement; decide

theorem golEnc (mode : Byte) : Statement (.golEnc mode) := by
  unfold Statement; revert mode; decide

theorem lzwEnc (width : Byte) : Statement (.lzwEnc width) := by
  unfold Statement; revert width; decide

end Sys2Proof.Laws.TableRow
end

