-- ==== Sys2Proof/Tests/Slice0.lean ====
section
/-! SUPPORT. Tests, each expected value from spec/ (the vector or rule is named), and for each statement with
hypotheses a named state and operands that meet them. -/

namespace Sys2Proof.Tests

open Sys2Proof Sys2Proof.Machine

/-! ## WellFormed: each check refuses an ill-formed command -/

theorem test_refuses_write_count_33 : Instr.check (.bsWrite 33) = some (.countAbove32 33) := by decide

theorem test_refuses_read_count_33 : Instr.check (.bsRead 33) = some (.countAbove32 33) := by decide

theorem test_refuses_golomb_mode_2 : Instr.check (.golEnc 2) = some (.modeAbove1 2) := by decide

theorem test_refuses_lzw_width_8 : Instr.check (.lzwEnc 8) = some (.widthOutside9To16 8) := by decide

theorem test_refuses_lzw_width_17 : Instr.check (.lzwEnc 17) = some (.widthOutside9To16 17) := by decide

theorem test_accepts_the_largest_modifiers :
    Instr.wellFormed (.bsWrite 32) ∧ Instr.wellFormed (.bsRead 32) ∧ Instr.wellFormed (.golEnc 1) ∧
      Instr.wellFormed (.lzwEnc 16) ∧ Instr.wellFormed (.lzwEnc 9) := by decide

/-! ## Decode: one word for each constructor, RSV N OPC written out from 30_encoding R100, R102 -/

theorem test_decode_nop :
    decode 0b0000000000000000_00000000_00000000 = .ok .nop := by decide

theorem test_decode_bsClear :
    decode 0b0000000000000000_00000000_00000001 = .ok .bsClear := by decide

theorem test_decode_bsWrite :
    decode 0b0000000000000000_00000101_00000010 = .ok (.bsWrite 5) := by decide

theorem test_decode_bsRead :
    decode 0b0000000000000000_00100000_00000011 = .ok (.bsRead 32) := by decide

theorem test_decode_bsFinish :
    decode 0b0000000000000000_00000000_00000100 = .ok .bsFinish := by decide

theorem test_decode_bsLoad :
    decode 0b0000000000000000_00000000_00000101 = .ok .bsLoad := by decide

theorem test_decode_rleEnc :
    decode 0b0000000000000000_00000000_00010000 = .ok .rleEnc := by decide

theorem test_decode_hufEnc :
    decode 0b0000000000000000_00000000_00010001 = .ok .hufEnc := by decide

theorem test_decode_golEnc :
    decode 0b0000000000000000_00000001_00010010 = .ok (.golEnc 1) := by decide

theorem test_decode_lzwEnc :
    decode 0b0000000000000000_00001100_00010011 = .ok (.lzwEnc 12) := by decide

/-- 95_test_vectors V-ILL-2, 3, 5, 6, 12: words that name no command. -/
theorem test_decode_refuses :
    decode 0x00000006 = .error (.unknownOpcode 0x06) ∧
      decode 0x00000020 = .error (.unknownOpcode 0x20) ∧
      decode 0x00010000 = .error (.reservedBitsSet 1) ∧
      decode 0x00000100 = .error (.modifierNotZero 1) ∧
      decode 0x80000011 = .error (.reservedBitsSet 0x8000) := by decide

/-! ## One completion step -/

/-- A machine after reset with the given capacities, placed at host address 0x100. -/
def box (inCap outCap bsCap : Nat) : State := State.resetWith ⟨inCap, outCap, bsCap, 0x100⟩

/-- The machine with input bytes, IN_LEN and ARG0 as the host wrote them. -/
def loaded (s : State) (x : List Byte) (arg0 : Word) : State :=
  { s with input := Memory.ofBytes 0 x, inLen := BitVec.ofNat 32 x.length, arg0 := arg0 }

/-- What a test looks at in a next state; none for a fault or a refusal. -/
def seen {α : Type} (o : Result) (f : State → α) : Option α :=
  match o with
  | .next t => some (f t)
  | .fault _ => none
  | .refused _ => none

theorem next_of_seen {o : Result} {α : Type} {f : State → α} {v : α} (h : seen o f = some v) :
    ∃ t, o = .next t ∧ f t = v := by
  cases o with
  | next t => exact ⟨t, rfl, Option.some.inj h⟩
  | fault f => cases h
  | refused r => cases h

/-- The completion step of an accepted word. -/
def finishWord (w : Nat) (s : State) : Result := step (s.withFetchWord 32 w)

/-- The bytes OUT holds, by offset. -/
def outBytes (s : State) : List Byte := s.output.map Prod.snd

/-- V-ILL-14: NOP clears a stale ERR and keeps ERRINFO. -/
theorem test_nop_clears_error :
    seen (finishWord 0x00000000 { box 8 32 4 with status := 0x00000404, errinfo := 0x00000303 })
      (fun t => (t.engine, t.status, t.errinfo)) = some (.idle, 0x00000002, 0x00000303) := by decide

/-- V-ILL-5: NOP with RSV = 1. -/
theorem test_nop_with_reserved_bit :
    seen (finishWord 0x00010000 (box 8 32 4)) (fun t => (t.engine, t.status, t.errinfo)) =
      some (.idle, 0x00000104, 0x00010000) := by decide

/-- V-BS-13: BS.CLEAR keeps RESULT. -/
theorem test_bsClear :
    seen (finishWord 0x00000001
        { box 8 32 4 with bs := { bits := [true, true, false], rpos := 3 }, result := 2 })
      (fun t => (t.bs, t.result)) = some ({ bits := [], rpos := 0 }, 2) := by decide

/-- V-BS-2: the bits above n - 1 are ignored; V-BS-12 keeps what stands before. -/
theorem test_bsWrite_appends :
    seen (finishWord 0x00000302
        { box 8 32 4 with bs := { bits := [false], rpos := 1 }, arg0 := 0xFFFFFFFD })
      (fun t => (t.bs, t.status)) =
      some ({ bits := [false, true, false, true], rpos := 1 }, 0x00000002) := by decide

/-- V-BS-17: BS_CAP = 4 with 30 bits written. -/
theorem test_bsWrite_capacity :
    seen (finishWord 0x00000302
        { box 8 32 4 with bs := { bits := List.replicate 30 true, rpos := 0 } })
      (fun t => (t.status, t.errinfo, t.bs.bits.length)) =
      some (0x00000504, 0x00000302, 30) := by decide

/-- V-BS-5: two bits of 1011, the first read most significant. -/
theorem test_bsRead :
    seen (finishWord 0x00000203
        { box 8 32 4 with bs := { bits := [true, false, true, true], rpos := 0 } })
      (fun t => (t.result, t.bs.rpos, t.status)) = some (2, 2, 0x00000002) := by decide

/-- V-BS-6: three bits where two remain. -/
theorem test_bsRead_underrun :
    seen (finishWord 0x00000303
        { box 8 32 4 with bs := { bits := [true, false, true, true], rpos := 2 }, result := 2 })
      (fun t => (t.status, t.errinfo, t.result, t.bs.rpos)) =
      some (0x00000404, 0x00000303, 2, 2) := by decide

/-- V-BS-9: BS.FINISH after four bits. -/
theorem test_bsFinish :
    seen (finishWord 0x00000004
        { box 8 32 4 with bs := { bits := [true, false, true, true], rpos := 0 } })
      (fun t => (t.result, t.bs.bits.length, t.status)) = some (4, 4, 0x00000002) := by decide

/-- V-BS-16: three bits of FF, pad bits dropped. -/
theorem test_bsLoad :
    seen (finishWord 0x00000005 (loaded (box 8 32 4) [0xFF] 3))
      (fun t => (t.bs, t.status)) =
      some ({ bits := [true, true, true], rpos := 0 }, 0x00000002) := by decide

/-- V-BS-20: the ARG0 check comes before the capacity check. -/
theorem test_bsLoad_check_order :
    seen (finishWord 0x00000005 (loaded (box 8 32 4) [0xAF, 0xC0] 40))
      (fun t => (t.status, t.errinfo)) = some (0x00000104, 0x00000005) := by decide

/-- V-RLE-1. -/
theorem test_rleEnc :
    seen (finishWord 0x00000010
        (loaded (box 16 32 4) [0x61, 0x61, 0x61, 0x61, 0x62, 0x62, 0x62, 0x63, 0x63] 0))
      (fun t => (outBytes t, t.outLen, t.status)) =
      some ([0x01, 0x00, 0x00, 0x00, 0x09, 0x00, 0x00, 0x00, 0x00, 0x61, 0x04, 0x62, 0x03, 0x63, 0x02],
        15, 0x00000002) := by decide +kernel

/-- V-RLE-9: the payload of "ab" needs 13 bytes. -/
theorem test_rleEnc_capacity :
    seen (finishWord 0x00000010 (loaded (box 16 12 4) [0x61, 0x62] 0))
      (fun t => (outBytes t, t.outLen, t.status, t.errinfo)) =
      some ([], 0, 0x00000504, 0x00000010) := by decide +kernel

/-- V-HUF-7: the tie of leaf a:3 and node 3. -/
theorem test_hufEnc :
    seen (finishWord 0x00000011
        (loaded (box 16 32 4) [0x61, 0x61, 0x61, 0x62, 0x62, 0x63] 0))
      (fun t => outBytes t) =
      some [0x02, 0x00, 0x00, 0x00, 0x06, 0x00, 0x00, 0x00, 0x0F, 0x00, 0x00, 0x00, 0x09, 0x00, 0x03,
        0x61, 0x01, 0x00, 0x62, 0x02, 0xC0, 0x63, 0x02, 0x80, 0x1F, 0x00] := by decide +kernel

/-- V-HUF-2: one distinct symbol. -/
theorem test_hufEnc_one_symbol :
    seen (finishWord 0x00000011 (loaded (box 16 32 4) [0x7A, 0x7A, 0x7A] 0))
      (fun t => outBytes t) =
      some [0x02, 0x00, 0x00, 0x00, 0x03, 0x00, 0x00, 0x00, 0x09, 0x00, 0x00, 0x00, 0x03, 0x00, 0x01,
        0x7A, 0x01, 0x00, 0x00] := by decide +kernel

/-- V-GOL-1. -/
theorem test_golEnc_supplied :
    seen (finishWord 0x00000012 (loaded (box 16 32 4) [0x0A] 4))
      (fun t => outBytes t) =
      some [0x03, 0x00, 0x00, 0x00, 0x01, 0x00, 0x00, 0x00, 0x08, 0x00, 0x00, 0x00, 0x05, 0x00, 0x00,
        0x00, 0x04, 0xD0] := by decide +kernel

/-- V-GOL-8: the estimate is 7. -/
theorem test_golEnc_estimated :
    seen (finishWord 0x00000112 (loaded (box 16 32 4) [0x0A] 4))
      (fun t => outBytes t) =
      some [0x03, 0x00, 0x00, 0x00, 0x01, 0x00, 0x00, 0x00, 0x08, 0x00, 0x00, 0x00, 0x05, 0x00, 0x00,
        0x00, 0x07, 0xA0] := by decide +kernel

/-- V-LZW-1. -/
theorem test_lzwEnc :
    seen (finishWord 0x00000C13
        (loaded (box 16 32 4) [0x61, 0x62, 0x61, 0x62, 0x61, 0x62] 0))
      (fun t => outBytes t) =
      some [0x04, 0x00, 0x00, 0x00, 0x06, 0x00, 0x00, 0x00, 0x06, 0x00, 0x00, 0x00, 0x23, 0x0C, 0x00,
        0x61, 0x31, 0x40, 0x20, 0x00] := by decide +kernel

/-- V-ILL-10: W = 8; OUT_LEN stays. -/
theorem test_lzwEnc_bad_width :
    seen (finishWord 0x00000813 { box 16 32 4 with outLen := 15 })
      (fun t => (t.status, t.errinfo, t.outLen)) = some (0x00000104, 0x00000813, 15) := by decide

/-! ## Host turns -/

/-- P1 line 8: `R16 BSW+0` of the stream 1011111111111. -/
theorem test_bsw_read :
    seen (step { box 8 32 4 with
        bs := { bits := [true, false] ++ List.replicate 11 true, rpos := 0 }
        pending := [.read 2 0x30000100] })
      (fun t => t.replies) = some [0xBFF8] := by decide

/-- 20_memory R73, R74: a 2-byte write of IN, the most significant byte first. -/
theorem test_in_write :
    seen (step { box 8 32 4 with pending := [.write 2 0x10000102 0xAFC0] })
      (fun t => t.input) = some [(2, 0xAF), (3, 0xC0)] := by decide

/-- 60_exceptions R417: an encode of input nobody wrote faults. -/
theorem test_unwritten_input_faults :
    exec .rleEnc { box 8 32 4 with inLen := 2, input := [(0, 0x61)] } =
      .fault (.unwrittenInput 1) := rfl

/-! ## Witnesses: concrete states and operands that meet the hypotheses of the statements -/

/-- `box 8 32 4` after an accept of word w, k host turns before its completion step. -/
def busyBox (w : Word) (k : Nat) : State :=
  { box 8 32 4 with engine := .busy w, status := 0x00000001, wait := k }

/-- `box 8 32 4`, IDLE, with the given events to come. -/
def hostBox (events : List HostEvent) : State := { box 8 32 4 with pending := events }

/-- The same while BUSY with NOP. -/
def busyHostBox (events : List HostEvent) : State := { busyBox 0 1 with pending := events }

theorem witness_DecodedWordIsTheCommandsWord : decode 0x00002002 = .ok (.bsWrite 32) := by decide

theorem witness_CompletionStepRunsTheDecodedCommand :
    (busyBox 0x00001013 0).engine = .busy 0x00001013 ∧ (busyBox 0x00001013 0).wait = 0 ∧
      decode 0x00001013 = .ok (.lzwEnc 16) := by decide

/-- One word for each ground of 30_encoding R104, at the edge of its range. -/
theorem witness_IllegalWordFailsAndChangesNothingElse :
    ∀ w ∈ [(0x00000006 : Word), 0x00010000, 0x00002102, 0x00000213, 0x00001113],
      (busyBox w 0).engine = .busy w ∧ (busyBox w 0).wait = 0 ∧ ¬ ruleLegal w := by
  simp [ruleLegal, busyBox]

theorem witness_CmdWriteWhileIdleAccepts :
    (hostBox [.write 4 0x100 0xFFFFFFFF]).engine = .idle ∧
      (hostBox [.write 4 0x100 0xFFFFFFFF]).pending =
        .write 4 (hostBox []).params.dcpBase 0xFFFFFFFF :: [] := by decide

theorem witness_WritesWhileBusyAreIgnored_busy :
    (busyHostBox [.write 4 0x100 1]).engine = .busy 0 ∧ (busyHostBox []).wait = 0 + 1 ∧
      (busyHostBox [.write 4 0x100 1]).pending = .write 4 0x100 1 :: [] := by decide

theorem witness_WritesWhileBusyAreIgnored_readOnly :
    ∀ off ∈ [0x04, 0x20], (hostBox [.write 4 (0x100 + off) 1]).atHostTurn =
        some (hostBox [.write 4 (0x100 + off) 1]) ∧ off ∈ [0x04, 0x08, 0x10, 0x18, 0x1C, 0x20] ∧
      (hostBox [.write 4 (0x100 + off) 1]).pending =
        .write 4 ((hostBox []).params.dcpBase + off) 1 :: [] := by decide

theorem witness_BusyWindowKeepsStateAndEnds :
    ∀ k ∈ [0, 2], ({ busyBox 0 k with pending := [.poll] } : State).engine = .busy 0 ∧
      HostEvent.reset ∉ ({ busyBox 0 k with pending := [.poll] } : State).pending := by decide

theorem witness_ResetPulseGivesResetState :
    (hostBox [.reset]).atHostTurn = some (hostBox [.reset]) ∧
      (busyHostBox [.reset]).atHostTurn = some { busyHostBox [.reset] with wait := 0 } ∧
      (hostBox [.reset]).pending = .reset :: [] ∧ (busyHostBox [.reset]).pending = .reset :: [] := by
  decide

theorem witness_EveryStepKeepsTheInvariant_host :
    (hostBox [.write 1 0x10000107 0xAB]).Inv ∧
      ∃ t, step (hostBox [.write 1 0x10000107 0xAB]) = .next t ∧ t.input = [(7, 0xAB)] :=
  ⟨by decide, next_of_seen (by decide)⟩

theorem witness_EveryStepKeepsTheInvariant_engine :
    (busyBox 0x00000004 0).Inv ∧ ∃ t, step (busyBox 0x00000004 0) = .next t ∧ t.engine = .idle :=
  ⟨by decide, next_of_seen (by decide)⟩

theorem witness_StatusFlagsAreExclusive :
    (busyBox 0 0).Inv ∧ ({ box 8 32 4 with status := 0x00000504 } : State).Inv := by decide

theorem witness_RegisterReadsReturnTheRegisters :
    ∀ off ∈ [0x00, 0x20], (busyHostBox [.read 4 (0x100 + off)]).atHostTurn =
        some { busyHostBox [.read 4 (0x100 + off)] with wait := 0 } ∧
      (off, (0x00000000 : Word)) ∈ [(0x00, (0x00000000 : Word)), (0x04, (busyHostBox []).status),
        (0x08, (busyHostBox []).errinfo), (0x0C, (busyHostBox []).arg0),
        (0x10, (busyHostBox []).result), (0x14, (busyHostBox []).inLen),
        (0x18, (busyHostBox []).outLen), (0x1C, BitVec.ofNat 32 (busyHostBox []).bs.bits.length),
        (0x20, BitVec.ofNat 32 (busyHostBox []).bs.rpos)] ∧
      (busyHostBox [.read 4 (0x100 + off)]).pending =
        .read 4 ((busyHostBox []).params.dcpBase + off) :: [] := by decide

theorem witness_OperandWritesWhileIdleStoreTheWord :
    (hostBox [.write 4 0x10C 7]).engine = .idle ∧
      (hostBox [.write 4 0x10C 7]).pending = .write 4 ((hostBox []).params.dcpBase + 0x0C) 7 :: [] ∧
      (hostBox [.write 4 0x114 7]).pending = .write 4 ((hostBox []).params.dcpBase + 0x14) 7 :: [] := by
  decide

theorem witness_ReservedRegistersReadZeroAndIgnoreWrites :
    ∀ off ∈ [0x24, 0x3C],
      (hostBox [.read 4 (0x100 + off)]).atHostTurn = some (hostBox [.read 4 (0x100 + off)]) ∧
      off ∈ [0x24, 0x28, 0x2C, 0x30, 0x34, 0x38, 0x3C] ∧
      (hostBox [.read 4 (0x100 + off)]).pending =
        .read 4 ((hostBox []).params.dcpBase + off) :: [] ∧
      (hostBox [.write 4 (0x100 + off) 9]).pending =
        .write 4 ((hostBox []).params.dcpBase + off) 9 :: [] := by decide

/-- Register space: a narrow access, and the first offset past it. -/
theorem witness_InertAccessesReadZeroAndChangeNothing_registers :
    ∀ p ∈ [(2, 0x00), (4, 0x40), (4, 0x02)],
      (hostBox [.read p.1 (0x100 + p.2)]).atHostTurn = some (hostBox [.read p.1 (0x100 + p.2)]) ∧
      p.2 < 2 ^ 32 ∧ p.2 / 2 ^ 28 = 0 ∧ ¬ (p.1 = 4 ∧ p.2 % 4 = 0 ∧ p.2 < 0x40) ∧
      (hostBox [.read p.1 (0x100 + p.2)]).pending =
        .read p.1 ((hostBox []).params.dcpBase + p.2) :: [] := by decide

/-- Windows: one byte past IN of 8 bytes, a misaligned one, and a width of 3. -/
theorem witness_InertAccessesReadZeroAndChangeNothing_windows :
    ∀ p ∈ [(4, 0x10000008), (2, 0x10000001), (3, 0x10000000)],
      (hostBox [.write p.1 (0x100 + p.2) 5]).atHostTurn =
        some (hostBox [.write p.1 (0x100 + p.2) 5]) ∧ p.2 < 2 ^ 32 ∧
      (p.2 / 2 ^ 28, 8) ∈ [(1, (hostBox []).params.inCap), (2, (hostBox []).params.outCap),
        (3, (hostBox []).params.bsCap)] ∧
      ¬ ((p.1 = 1 ∨ p.1 = 2 ∨ p.1 = 4) ∧ p.2 % 2 ^ 28 % p.1 = 0 ∧ p.2 % 2 ^ 28 + p.1 ≤ 8) ∧
      (hostBox [.write p.1 (0x100 + p.2) 5]).pending =
        .write p.1 ((hostBox []).params.dcpBase + p.2) 5 :: [] := by decide

/-- Spaces 0x4 and 0xF. -/
theorem witness_InertAccessesReadZeroAndChangeNothing_spaces :
    ∀ a ∈ [0x40000000, 0xFFFFFFFF],
      (hostBox [.read 1 (0x100 + a)]).atHostTurn = some (hostBox [.read 1 (0x100 + a)]) ∧
      a < 2 ^ 32 ∧ 4 ≤ a / 2 ^ 28 ∧
      (hostBox [.read 1 (0x100 + a)]).pending =
        .read 1 ((hostBox []).params.dcpBase + a) :: [] := by decide

theorem witness_OutAndBswWritesAreIgnored :
    ∀ a ∈ [0x20000000, 0x3FFFFFFF],
      (hostBox [.write 1 (0x100 + a) 5]).atHostTurn = some (hostBox [.write 1 (0x100 + a) 5]) ∧
      a / 2 ^ 28 ∈ [2, 3] ∧ (hostBox [.write 1 (0x100 + a) 5]).pending =
        .write 1 ((hostBox []).params.dcpBase + a) 5 :: [] := by decide

theorem witness_HostReadsHaveNoSideEffects :
    (busyHostBox [.read 4 0]).atHostTurn = some { busyHostBox [.read 4 0] with wait := 0 } ∧
      (busyHostBox [.read 4 0]).pending = .read 4 0 :: [] := by decide

/-- The last byte and the last word of IN of 8 bytes. -/
theorem witness_InWindowWriteStoresBigEndianBytes :
    ∀ p ∈ [(1, 7), (4, 4), (2, 0)], (hostBox []).params.wf ∧
      (hostBox [.write p.1 (0x10000100 + p.2) 5]).engine = .idle ∧
      (p.1 = 1 ∨ p.1 = 2 ∨ p.1 = 4) ∧ p.2 % p.1 = 0 ∧ p.2 + p.1 ≤ (hostBox []).params.inCap ∧
      (hostBox [.write p.1 (0x10000100 + p.2) 5]).pending =
        .write p.1 ((hostBox []).params.dcpBase + 0x10000000 + p.2) 5 :: [] := by decide

/-- The last word of IN, all written, read while BUSY. -/
theorem witness_WindowReadsReturnBigEndianBytes_in :
    let s : State := { busyHostBox [.read 4 0x10000104] with input := Memory.ofBytes 4 [1, 2, 3, 4] }
    s.params.wf ∧ s.atHostTurn = some { s with wait := 0 } ∧ 4 % 4 = 0 ∧ 4 + 4 ≤ s.params.inCap ∧
      (∀ j, j < 4 → s.input.read (4 + j) = some (BitVec.ofNat 8 (j + 1))) ∧
      s.pending = .read 4 (s.params.dcpBase + 0x10000000 + 4) :: [] := by decide

/-- The last half-word below OUT_LEN. -/
theorem witness_WindowReadsReturnBigEndianBytes_out :
    let s : State := { hostBox [.read 2 0x20000108] with
      outLen := 10, output := Memory.ofBytes 0 [0, 1, 2, 3, 4, 5, 6, 7, 8, 9] }
    s.params.wf ∧ s.atHostTurn = some s ∧ 8 % 2 = 0 ∧ 8 + 2 ≤ s.params.outCap ∧ s.engine = .idle ∧
      8 + 2 ≤ s.outLen.toNat ∧
      (∀ j, j < 2 → s.output.read (8 + j) = some (BitVec.ofNat 8 (j + 8))) ∧
      s.pending = .read 2 (s.params.dcpBase + 0x20000000 + 8) :: [] := by decide

theorem witness_BswWindowReadsStreamBitsZeroPadded :
    ∀ p ∈ [(4, 0), (1, 3)], (hostBox []).params.wf ∧
      (hostBox [.read p.1 (0x30000100 + p.2)]).engine = .idle ∧ (p.1 = 1 ∨ p.1 = 2 ∨ p.1 = 4) ∧
      p.2 % p.1 = 0 ∧ p.2 + p.1 ≤ (hostBox []).params.bsCap ∧
      (hostBox [.read p.1 (0x30000100 + p.2)]).pending =
        .read p.1 ((hostBox []).params.dcpBase + 0x30000000 + p.2) :: [] := by decide

theorem witness_WaitPollsStatusUntilNotBusy :
    (busyHostBox [.poll]).atHostTurn = some { busyHostBox [.poll] with wait := 0 } ∧
      (busyHostBox [.poll]).pending = .poll :: [] ∧
      (hostBox [.poll]).atHostTurn = some (hostBox [.poll]) ∧
      (hostBox [.poll]).pending = .poll :: [] := by decide

theorem witness_CommandsKeepWhatTheyMayNotWrite :
    (∃ t, exec (.bsRead 1) (box 8 32 4) = .next t ∧ t.engine = .idle) ∧
      (∃ t, exec .rleEnc (box 8 32 4) = .next t ∧ t.engine = .idle) ∧
      isEncode (.bsRead 1) = false ∧ isEncode .rleEnc = true ∧ (∀ n, Instr.rleEnc ≠ .bsRead n) :=
  ⟨next_of_seen (by decide), next_of_seen (by decide +kernel), rfl, rfl, by simp⟩

theorem witness_CommandsEndInDoneOrTheirOwnErrors :
    ∃ t, exec .bsFinish (box 8 32 4) = .next t ∧ t.engine = .idle := next_of_seen (by decide)

theorem witness_ReadingUnwrittenInputFaults :
    let s : State := { box 8 32 4 with inLen := 8, input := Memory.ofBytes 0 [1, 2, 3, 4, 5, 6, 7] }
    7 < s.readExtent .hufEnc ∧ s.input.read 7 = none ∧
      ∀ b, b < 7 → (s.input.read b).isSome := by decide

theorem witness_NopOnlyCompletes :
    (0x00000100 : Word).toNat % 256 = 0x00 ∧ (0x00000100 : Word) ≠ 0x00000000 ∧
      (busyBox 0x00000100 0).engine = .busy 0x00000100 ∧ (busyBox 0x00000100 0).wait = 0 := by decide

theorem witness_BsClearEmptiesTheStream :
    (0x00010001 : Word).toNat % 256 = 0x01 ∧ (0x00010001 : Word) ≠ 0x00000001 ∧
      (busyBox 0x00010001 0).engine = .busy 0x00010001 ∧ (busyBox 0x00010001 0).wait = 0 := by decide

theorem witness_BsFinishReturnsTheBitCount :
    (0x0000FF04 : Word).toNat % 256 = 0x04 ∧ (0x0000FF04 : Word) ≠ 0x00000004 ∧
      (busyBox 0x0000FF04 0).engine = .busy 0x0000FF04 ∧ (busyBox 0x0000FF04 0).wait = 0 := by decide

/-- BS_CAP = 4: 32 bits fit an empty stream, one more does not, 33 is no count. -/
theorem witness_BsWriteAppendsLowBitsOfArg0 :
    ((32 : Byte).toNat ≤ 32 ∧
        (box 8 32 4).bs.bits.length + (32 : Byte).toNat ≤ 8 * (box 8 32 4).params.bsCap) ∧
      ((1 : Byte).toNat ≤ 32 ∧ 8 * (box 8 32 4).params.bsCap <
        (List.replicate 32 true).length + (1 : Byte).toNat) ∧ 32 < (33 : Byte).toNat := by decide

theorem witness_BsReadReturnsTheNextBits :
    let s : State := { box 8 32 4 with bs := { bits := List.replicate 32 true, rpos := 0 } }
    ((32 : Byte).toNat ≤ 32 ∧ s.bs.rpos + (32 : Byte).toNat ≤ s.bs.bits.length) ∧
      ((1 : Byte).toNat ≤ 32 ∧ (box 8 32 4).bs.bits.length <
        (box 8 32 4).bs.rpos + (1 : Byte).toNat) ∧ 32 < (33 : Byte).toNat := by decide

/-- 16 bits of 2 bytes; IN_LEN over IN_CAP; one bit more than 2 bytes hold; one bit more than BS_CAP. -/
theorem witness_BsLoadMakesInputBitsTheStream :
    (let s := loaded (box 8 32 4) [0xAF, 0xC0] 16;
      s.inLen.toNat ≤ s.params.inCap ∧ s.arg0.toNat ≤ 8 * s.inLen.toNat ∧
        s.arg0.toNat ≤ 8 * s.params.bsCap ∧ s.inputWritten ((s.arg0.toNat + 7) / 8)) ∧
      (let s : State := { box 8 32 4 with inLen := 9 };
      s.params.inCap < s.inLen.toNat) ∧
      (let s := loaded (box 8 32 4) [0xAF, 0xC0] 17;
      s.inLen.toNat ≤ s.params.inCap ∧ 8 * s.inLen.toNat < s.arg0.toNat) ∧
      let s := loaded (box 8 32 4) [0, 0, 0, 0, 0, 0, 0, 0] 33;
      s.inLen.toNat ≤ s.params.inCap ∧ s.arg0.toNat ≤ 8 * s.inLen.toNat ∧
        8 * s.params.bsCap < s.arg0.toNat := by decide

/-- V-BS-12: a read between two writes. -/
theorem witness_ReadsReturnWhatWasWritten :
    (box 8 32 4).params.wf ∧ (∃ c, exec .bsClear (box 8 32 4) = .next c ∧ c = (box 8 32 4).complete) ∧
      (runUses [.write 2 3, .read 2, .write 1 0] (box 8 32 4).complete).map Prod.fst = some [3] ∧
      readsOf [.write 2 3, .read 2, .write 1 0] <+:
        (writesOf [.write 2 3, .read 2, .write 1 0]).map Prod.fst :=
  ⟨by decide, next_of_seen (f := id) (by decide), by decide, by decide⟩

/-- A machine with room for every payload of the input 61 62. -/
def encodeBox : State := loaded (box 8 16384 4) [0x61, 0x62] 4

theorem witness_encodes :
    encodeBox.params.wf ∧ encodeBox.inLen.toNat = [(0x61 : Byte), 0x62].length ∧
      [(0x61 : Byte), 0x62].length ≤ encodeBox.params.inCap ∧
      (∀ a, a < [(0x61 : Byte), 0x62].length →
        encodeBox.input.read a = [(0x61 : Byte), 0x62][a]?) := by decide

/-- With `witness_encodes`, and OUT_CAP exactly the payload's length. -/
theorem witness_RleEncodeWritesADecodablePayload :
    (rlePayload [0x61, 0x62]).length ≤ encodeBox.params.outCap ∧
      (rlePayload [0x61, 0x62]).length ≤ (box 8 13 4).params.outCap := by decide

theorem witness_HufEncodeWritesADecodablePayload :
    (hufPayload [0x61, 0x62]).length ≤ encodeBox.params.outCap ∧
      (hufPayload [0x61, 0x62]).length ≤ (box 8 22 4).params.outCap := by decide +kernel

/-- V-GOL-1 with OUT_CAP = 18, and both modes. -/
theorem witness_GolEncodeWritesADecodablePayload :
    ((0 : Byte).toNat = 0 ∧ encodeBox.arg0.toNat ≠ 0 ∧ 4 = encodeBox.arg0.toNat) ∧
      ((1 : Byte).toNat = 1 ∧ 67 = golombEstimate [0x61, 0x62]) ∧
      (golombPayload 4 [0x61, 0x62]).length ≤ encodeBox.params.outCap ∧
      (golombPayload 67 [0x61, 0x62]).length ≤ encodeBox.params.outCap ∧
      (golombPayload 4 [0x0A]).length ≤ (box 8 18 4).params.outCap := by decide +kernel

theorem witness_LzwEncodeWritesADecodablePayload :
    (9 ≤ (9 : Byte).toNat ∧ (9 : Byte).toNat ≤ 16) ∧
      (9 ≤ (16 : Byte).toNat ∧ (16 : Byte).toNat ≤ 16) ∧
      (lzwPayload (9 : Byte).toNat [0x61, 0x62]).length ≤ encodeBox.params.outCap ∧
      (lzwPayload (16 : Byte).toNat [0x61, 0x62]).length ≤ (box 8 18 4).params.outCap := by
  decide +kernel

/-- With `witness_encodes`. -/
theorem witness_EverySuccessfulEncodeRoundTrips :
    (∃ d, matchingDecoder (.golEnc 0) = some d) ∧
      ∃ t, exec (.golEnc 0) encodeBox = .next t ∧ t.status = 0x00000002 :=
  ⟨⟨_, rfl⟩, next_of_seen (by decide +kernel)⟩

/-- IN_LEN = IN_CAP + 1, and each form at the edges of its modifier. -/
theorem witness_EncodeWithOversizeInLenFails :
    (box 8 32 4).params.inCap < ({ box 8 32 4 with inLen := 9 } : State).inLen.toNat ∧
      ((1 : Byte).toNat ≤ 1 ∧ (Instr.golEnc 1, (0x00000112 : Word)) =
        (.golEnc 1, BitVec.ofNat 32 (0x12 + 256 * (1 : Byte).toNat))) ∧
      9 ≤ (9 : Byte).toNat ∧ (16 : Byte).toNat ≤ 16 ∧ (Instr.lzwEnc 16, (0x00001013 : Word)) =
        (.lzwEnc 16, BitVec.ofNat 32 (0x13 + 256 * (16 : Byte).toNat)) := by decide

/-- V-RLE-9 and its like: OUT_CAP = 12 and the input 61 62. -/
theorem witness_EncodeOverCapacityFails :
    let s := loaded (box 8 12 4) [0x61, 0x62] 4
    let x : List Byte := [0x61, 0x62]
    s.inLen.toNat = x.length ∧ x.length ≤ s.params.inCap ∧
      (∀ a, a < x.length → s.input.read a = x[a]?) ∧
      s.params.outCap < (rlePayload x).length ∧ s.params.outCap < (hufPayload x).length ∧
      s.arg0.toNat ≠ 0 ∧ s.params.outCap < (golombPayload s.arg0.toNat x).length ∧
      s.params.outCap < (golombPayload (golombEstimate x) x).length ∧
      9 ≤ (9 : Byte).toNat ∧ (16 : Byte).toNat ≤ 16 ∧
      s.params.outCap < (lzwPayload (9 : Byte).toNat x).length ∧
      s.params.outCap < (lzwPayload (16 : Byte).toNat x).length := by decide +kernel

theorem witness_GolEncodeWithZeroDivisorFails :
    (loaded (box 8 32 4) [] 0).arg0 = 0x00000000 ∧ (loaded (box 8 32 4) [] 0).inLen.toNat ≤ 8 ∧
      (loaded (box 8 32 4) [] 0).inputWritten (loaded (box 8 32 4) [] 0).inLen.toNat ∧
      (loaded (box 8 32 4) [7] 0).inputWritten (loaded (box 8 32 4) [7] 0).inLen.toNat := by decide

theorem witness_EncodeWithBadModifierChangesNothingElse :
    1 < (2 : Byte).toNat ∧ ((8 : Byte).toNat < 9 ∨ 16 < (8 : Byte).toNat) ∧
      ((17 : Byte).toNat < 9 ∨ 16 < (17 : Byte).toNat) := by decide

/-- OUT_CAP = 9, the smallest, takes RLE's empty payload; ARG0 = 4 and W = 9, 16 for the others. -/
theorem witness_EmptyInputEncodesToTheEmptyPayload :
    (box 8 9 4).inLen = 0x00000000 ∧
      [(0x01 : Byte), 0x00, 0x00, 0x00, 0x00, 0x00, 0x00, 0x00, 0x00].length ≤
        (box 8 9 4).params.outCap ∧
      (loaded (box 8 32 4) [] 4).inLen = 0x00000000 ∧ (loaded (box 8 32 4) [] 4).arg0 ≠ 0x00000000 ∧
      17 ≤ (loaded (box 8 32 4) [] 4).params.outCap ∧ 9 ≤ (9 : Byte).toNat ∧
      (16 : Byte).toNat ≤ 16 := by decide

/-- Two states that differ in RESULT, BS and, for mode 1, ARG0. -/
theorem witness_EncodesDependOnlyOnTheirOperands :
    let s' : State := { encodeBox with arg0 := 9, result := 3, bs := { bits := [true], rpos := 1 } }
    isEncode (.golEnc 1) = true ∧ encodeBox.params = s'.params ∧ encodeBox.inLen = s'.inLen ∧
      (∀ a, a < encodeBox.inLen.toNat → encodeBox.input.read a = s'.input.read a) ∧
      (Instr.golEnc 1 = .golEnc 0 → encodeBox.arg0 = s'.arg0) := by decide

theorem witness_EncodesDependOnlyOnTheirOperands_success :
    ∃ t, exec (.golEnc 1) encodeBox = .next t ∧ t.status = 0x00000002 :=
  next_of_seen (by decide +kernel)

theorem witness_RleBodyFormAndPayloadLength :
    (0x61, 1) ∈ rleChunks [0x61] ∧ 1 ≤ [(0x61 : Byte)].length := by decide

theorem witness_HuffmanTableIsPrefixFreeAndComplete :
    2 ≤ (codeTable [0x61, 0x62]).length := by decide +kernel

theorem witness_HuffmanTableSymbolsAndLengths :
    (0x62, [true]) ∈ codeTable [0x61, 0x62] ∧ (0x61, [false]) ∈ codeTable [0x61] := by decide +kernel

theorem witness_HuffmanFrequentSymbolsGetNoLongerCodes :
    (0x61, [true]) ∈ codeTable [0x61, 0x61, 0x62] ∧ (0x62, [false]) ∈ codeTable [0x61, 0x61, 0x62] ∧
      [(0x61 : Byte), 0x61, 0x62].count 0x62 < [(0x61 : Byte), 0x61, 0x62].count 0x61 := by
  decide +kernel

theorem witness_GolombEstimateIsTheRoundedMean : [(0xFF : Byte)] ≠ [] := by decide

/-- b = 3 with k = 2: remainder 0 is below 2^k - b = 1, remainder 1 is not; b = 1 with k = 0. -/
theorem witness_GolombCodeBitsAndLength :
    (1 ≤ 3 ∧ 3 ≤ 2 ^ 2 ∧ 0 % 3 < 2 ^ 2 - 3) ∧ (2 ^ 2 - 3 ≤ 1 % 3) ∧
      (1 ≤ 1 ∧ 1 ≤ 2 ^ 0 ∧ 2 ^ 0 - 1 ≤ 255 % 1) := by decide

theorem witness_GolombCodeBitsAndLength_least : ∀ j : Nat, 3 ≤ 2 ^ j → 2 ≤ j := by
  intro j h
  by_contra hj
  have : j = 0 ∨ j = 1 := by omega
  rcases this with rfl | rfl <;> omega

theorem witness_GolombCodesArePrefixFreeAndInvertible :
    1 ≤ 1 ∧ golombCode 1 3 <+: golombCode 1 3 := by decide

theorem witness_LzwWidthIsThatOfTheLargestCode :
    9 ≤ 9 ∧ 9 ≤ 16 ∧ 2 ^ 9 ≤ 256 + 256 := by decide

/-- V-LZW-1's first four bytes: a, b, ab. -/
theorem witness_LzwCodesNameTheLongestEntries :
    9 ≤ 9 ∧ 9 ≤ 16 ∧ (lzwCodes 9 [0x61, 0x62, 0x61, 0x62])[2]? = some 256 ∧
      [[(0x61 : Byte)], [0x62], [0x61, 0x62]][2]? = some [0x61, 0x62] := by decide +kernel

theorem witness_LzwBounds :
    9 ≤ 9 ∧ 9 ≤ 16 ∧ [(0x61 : Byte)] <+: [0x61, 0x62] ∧ 1 ≤ [(0x61 : Byte), 0x62].length ∧
      (lzwCodes 9 [0x61, 0x62])[0]? = some 97 := by
  decide +kernel

/-- A payload of 8 bytes, a foreign id, and metadata one byte short. -/
theorem witness_DecodersRefuseBadContainers :
    (Instr.rleEnc, (0x01 : Byte)) ∈ [(Instr.rleEnc, (0x01 : Byte)), (.hufEnc, 0x02),
        (.golEnc 0, 0x03), (.lzwEnc 12, 0x04)] ∧
      ([(0x01 : Byte), 0, 0, 0, 0, 0, 0, 0].length < 9) ∧
      ([(0x02 : Byte), 0, 0, 0, 0, 0, 0, 0, 0][0]? ≠ some 0x01) ∧
      [(0x01 : Byte), 0, 0, 0, 0, 0, 0, 0, 1].length <
        9 + unbe (([(0x01 : Byte), 0, 0, 0, 0, 0, 0, 0, 1].drop 5).take 4) := by decide

theorem witness_DecodersRefuseBadContainers_decoder :
    matchingDecoder .rleEnc = some decRle ∧ matchingDecoder .hufEnc = some decHuf ∧
      matchingDecoder (.golEnc 0) = some decGol ∧ matchingDecoder (.lzwEnc 12) = some decLzw :=
  ⟨rfl, rfl, rfl, rfl⟩

end Sys2Proof.Tests
end

section
/-! The invariant at reset: the OPEN capacities keep their bounds whatever was drawn (00_scope R7), and the
reset values of 10_state R50 meet the rest for any parameters within those bounds. -/

namespace Sys2Proof.Machine

/-- Each capacity is a draw reduced into its bounds, so the bounds hold of every draw (00_scope R7). -/
theorem configParams_wf : Config.params.wf := by
  have hin : 1 ≤ Config.params.inCap ∧ Config.params.inCap ≤ 2 ^ 28 := by
    simp only [Config.params]; omega
  have hout : 9 ≤ Config.params.outCap ∧ Config.params.outCap ≤ 2 ^ 28 := by
    simp only [Config.params]; omega
  have hbs : 4 ≤ Config.params.bsCap ∧ Config.params.bsCap ≤ 2 ^ 28 := by
    simp only [Config.params]; omega
  exact ⟨hin, hout, hbs⟩

/-- The reset values meet the invariant on any machine whose capacities are within bounds. -/
theorem State.resetWith_inv {p : Params} (hp : p.wf) : (State.resetWith p).Inv := by
  have hstatus : (State.resetWith p).statusOk := .inl rfl
  have hbs : (State.resetWith p).bsOk := ⟨Nat.zero_le _, Nat.zero_le _⟩
  have hin : (State.resetWith p).inputOk := ⟨List.Pairwise.nil, by simp [State.resetWith]⟩
  have hout : (State.resetWith p).outputOk := ⟨rfl, .inl rfl⟩
  exact ⟨hp, hstatus, hbs, hin, hout⟩

/-- Settles O13: the drawn capacities are within bounds, and the reset values meet the rest. -/
theorem invariantHoldsAtReset : Obligations.InvariantHoldsAtReset :=
  State.resetWith_inv configParams_wf

end Sys2Proof.Machine
end

section
/-! What each command can end in, said once over all ten commands: the errors a command raises, and the
shape of its next state (40_bitstream R151, 60_exceptions R412 to R414). -/

namespace Sys2Proof.Machine

/-- The kinds a command raises; the other two of 60_exceptions R410 belong to the decoders. -/
def commandErrors : List ErrorKind := [.configuration, .underrun, .capacity]

/-- The next states a command can end in. A capacity bound on OUT and the invariant of the stream stand
here, where the checks that give them are made. -/
inductive CommandEnds (i : Instr) (s : State) : State → Prop
  /-- A failure with no other effect. -/
  | fails (e : ErrorKind) (he : e ∈ commandErrors) : CommandEnds i s (s.raise e (encode i))
  /-- A failed encode, which empties OUT. -/
  | encodeFails (hi : isEncode i = true) (e : ErrorKind) (he : e ∈ commandErrors) :
      CommandEnds i s (s.raiseEncode e (encode i))
  /-- A successful encode. -/
  | encodes (hi : isEncode i = true) (P : List Byte) (hmin : 9 ≤ P.length)
      (hmax : P.length ≤ s.params.outCap) : CommandEnds i s (s.storePayload P)
  /-- A successful NOP or BitStream command. -/
  | streams (hi : isEncode i = false) (b : BitStream) (r : Word)
      (hb : s.bsOk → ({ s with bs := b } : State).bsOk)
      (hr : (∀ n, i ≠ .bsRead n) → i ≠ .bsFinish → r = s.result) :
      CommandEnds i s { s.complete with bs := b, result := r }

theorem checked_ends {i : Instr} {s t : State} {run : Result} (h : checked i s run = .next t)
    (hrun : run = .next t → CommandEnds i s t) : CommandEnds i s t := by
  rcases checked_cases i s run with ⟨_, hc⟩ | ⟨_, hc⟩
  · exact hrun (hc.symm.trans h)
  · cases hc.symm.trans h
    exact .fails .configuration (by decide)

/-- An encode ends as a command may, if its codec raises no error but a command's and writes no payload
shorter than a header. -/
theorem encodeWith_ends {i : Instr} {s t : State} {payload : List Byte → Except ErrorKind (List Byte)}
    (hi : isEncode i = true) (h : encodeWith (encode i) payload s = .next t)
    (herr : ∀ x e, payload x = .error e → e ∈ commandErrors)
    (hlen : ∀ x P, payload x = .ok P → 9 ≤ P.length) : CommandEnds i s t := by
  rcases encodeWith_cases (encode i) payload s with
    ⟨_, hc⟩ | ⟨_, a, _, hc⟩ | ⟨_, x, e, _, he, hc⟩ | ⟨_, x, P, _, hP, hc⟩
  · cases hc.symm.trans h
    exact .encodeFails hi .configuration (by decide)
  · cases hc.symm.trans h
  · cases hc.symm.trans h
    exact .encodeFails hi e (herr x e he)
  · cases hc.symm.trans h
    rcases finishEncode_cases (encode i) P s with ⟨hfit, hf⟩ | ⟨_, hf⟩
    · rw [hf]
      exact .encodes hi P (hlen x P hP) hfit
    · rw [hf]
      exact .encodeFails hi .capacity (by decide)

/-! ## The codecs: at least a header, and one error -/

theorem container_length (c : Codec) (n : Nat) (metadata body : List Byte) :
    (container c n metadata body).length = 9 + metadata.length + body.length := by
  simp only [container, List.length_append, List.length_cons, beBytes_length]

theorem nine_le_container_length (c : Codec) (n : Nat) (metadata body : List Byte) :
    9 ≤ (container c n metadata body).length := by
  rw [container_length]
  omega

theorem golombDivisor_error {mode : Byte} {arg0 : Word} {x : List Byte} {e : ErrorKind}
    (h : golombDivisor mode arg0 x = .error e) : e = .configuration := by
  unfold golombDivisor at h
  split at h
  · split at h <;> cases h
    rfl
  · cases h

/-- GOL.ENC's own check raises ConfigurationError alone; past it the payload is the Golomb payload. -/
theorem golombEncode_cases (mode : Byte) (arg0 : Word) (x : List Byte) :
    golombEncode mode arg0 x = .error .configuration ∨
      ∃ b, golombEncode mode arg0 x = .ok (golombPayload b x) := by
  unfold golombEncode
  cases hd : golombDivisor mode arg0 x with
  | error e => exact .inl (by rw [golombDivisor_error hd])
  | ok b => exact .inr ⟨b, rfl⟩

/-- A codec with no check of its own ends as a command may. -/
theorem encodeWith_ok_ends {i : Instr} {s t : State} {payload : List Byte → List Byte}
    (hi : isEncode i = true) (h : encodeWith (encode i) (fun x => .ok (payload x)) s = .next t)
    (hlen : ∀ x, 9 ≤ (payload x).length) : CommandEnds i s t := by
  refine encodeWith_ends hi h (fun x e he => ?_) (fun x P hP => ?_)
  · cases he
  · cases hP
    exact hlen x

theorem execGolEnc_ends {m : Byte} {s t : State} (h : execGolEnc m s = .next t) :
    CommandEnds (.golEnc m) s t := by
  refine checked_ends h fun hrun => encodeWith_ends rfl hrun (fun x e he => ?_) (fun x P hP => ?_)
  · rcases golombEncode_cases m s.arg0 x with hx | ⟨b, hx⟩
    · cases hx.symm.trans he
      decide
    · cases hx.symm.trans he
  · rcases golombEncode_cases m s.arg0 x with hx | ⟨b, hx⟩
    · cases hx.symm.trans hP
    · cases hx.symm.trans hP
      exact nine_le_container_length _ _ _ _

/-! ## The BitStream commands: each keeps the invariant of the stream -/

theorem execBsWrite_ends {n : Byte} {s t : State} (h : execBsWrite n s = .next t) :
    CommandEnds (.bsWrite n) s t := by
  refine checked_ends h fun hrun => ?_
  split at hrun
  · cases hrun
    exact .fails .capacity (by decide)
  · next hcap =>
    cases hrun
    refine .streams rfl _ s.result (fun hbs => ?_) (fun _ _ => rfl)
    obtain ⟨hread, hwrite⟩ := hbs
    simp only [State.bsOk, BitStream.wpos, List.length_append, msbBits_length] at hcap ⊢
    omega

theorem execBsRead_ends {n : Byte} {s t : State} (h : execBsRead n s = .next t) :
    CommandEnds (.bsRead n) s t := by
  refine checked_ends h fun hrun => ?_
  split at hrun
  · cases hrun
    exact .fails .underrun (by decide)
  · next hunder =>
    cases hrun
    refine .streams rfl _ _ (fun hbs => ?_) (fun hne _ => absurd rfl (hne n))
    obtain ⟨hread, hwrite⟩ := hbs
    exact ⟨by simpa using hunder, hwrite⟩

theorem execBsLoad_ends {s t : State} (h : execBsLoad s = .next t) : CommandEnds .bsLoad s t := by
  unfold execBsLoad at h
  split at h
  · cases h
    exact .fails .configuration (by decide)
  split at h
  · cases h
    exact .fails .configuration (by decide)
  split at h
  · cases h
    exact .fails .capacity (by decide)
  next hcap =>
    split at h
    · cases h
    · cases h
      refine .streams rfl _ s.result (fun _ => ?_) (fun _ _ => rfl)
      exact ⟨Nat.zero_le _, by simpa using hcap⟩

/-- Every next state of every command. -/
theorem exec_ends {i : Instr} {s t : State} (h : exec i s = .next t) : CommandEnds i s t := by
  cases i with
  | nop =>
    cases h
    exact .streams rfl s.bs s.result id (fun _ _ => rfl)
  | bsClear =>
    cases h
    exact .streams rfl _ s.result (fun _ => ⟨Nat.zero_le _, Nat.zero_le _⟩) (fun _ _ => rfl)
  | bsWrite n => exact execBsWrite_ends h
  | bsRead n => exact execBsRead_ends h
  | bsFinish =>
    cases h
    exact .streams rfl s.bs _ id (fun _ hne => absurd rfl hne)
  | bsLoad => exact execBsLoad_ends h
  | rleEnc => exact encodeWith_ok_ends rfl h fun x => nine_le_container_length _ _ _ _
  | hufEnc => exact encodeWith_ok_ends rfl h fun x => nine_le_container_length _ _ _ _
  | golEnc m => exact execGolEnc_ends h
  | lzwEnc w =>
    exact checked_ends h fun hrun =>
      encodeWith_ok_ends rfl hrun fun x => nine_le_container_length _ _ _ _

/-- Settles O26: each of the four ends of a command writes only what a command of its kind may. -/
theorem commandsKeepWhatTheyMayNotWrite : Obligations.CommandsKeepWhatTheyMayNotWrite := by
  intro i s t h
  cases exec_ends h with
  | fails e he => simp
  | encodeFails hi e he => simp [hi]
  | encodes hi P hmin hmax => simp [hi]
  | streams hi b r hb hr => simpa [hi] using hr

end Sys2Proof.Machine
end

section
/-! Every step keeps the invariant: each operation of the host and each end of a command does. -/

namespace Sys2Proof.Machine

/-- The words STATUS holds while IDLE (10_state R50; 40_bitstream R151; 60_exceptions R412). -/
def idleStatuses : List Word := [0x00000000, 0x00000002, 0x00000104, 0x00000404, 0x00000504]

theorem State.statusOk_of_idle {s : State} (he : s.engine = .idle) :
    s.statusOk ↔ s.status ∈ idleStatuses := by
  simp [State.statusOk, idleStatuses, he]

theorem State.statusOk_of_busy {s : State} {w : Word} (he : s.engine = .busy w) :
    s.statusOk ↔ s.status = 0x00000001 := by
  simp [State.statusOk, he]

theorem statusError_mem_idleStatuses {e : ErrorKind} (he : e ∈ commandErrors) :
    statusError e ∈ idleStatuses := by
  revert e
  decide

theorem statusDone_mem_idleStatuses : statusDone ∈ idleStatuses := by decide

/-! ## The ends of a command -/

theorem State.raise_inv {s : State} (hs : s.Inv) {e : ErrorKind} (he : e ∈ commandErrors) (w : Word) :
    (s.raise e w).Inv := by
  obtain ⟨hparams, _, hbs, hin, hout⟩ := hs
  exact ⟨hparams, (State.statusOk_of_idle rfl).2 (statusError_mem_idleStatuses he), hbs, hin, hout⟩

theorem State.raiseEncode_inv {s : State} (hs : s.Inv) {e : ErrorKind} (he : e ∈ commandErrors)
    (w : Word) : (s.raiseEncode e w).Inv := by
  obtain ⟨hparams, hstatus, hbs, hin, _⟩ := State.raise_inv hs he w
  exact ⟨hparams, hstatus, hbs, hin, rfl, .inl rfl⟩

/-- A payload of OUT_CAP bytes or fewer is short enough for OUT_LEN to hold its length. -/
theorem State.storePayload_inv {s : State} (hs : s.Inv) {P : List Byte} (hmin : 9 ≤ P.length)
    (hmax : P.length ≤ s.params.outCap) : (s.storePayload P).Inv := by
  obtain ⟨hparams, _, hbs, hin, _⟩ := hs
  have hlen : (s.storePayload P).outLen.toNat = P.length := by
    obtain ⟨_, ⟨_, hcap⟩, _⟩ := hparams
    rw [State.storePayload_outLen, BitVec.toNat_ofNat, Nat.mod_eq_of_lt (by omega)]
  have hstatus : (s.storePayload P).statusOk := (State.statusOk_of_idle rfl).2 statusDone_mem_idleStatuses
  refine ⟨hparams, hstatus, hbs, hin, ?_, .inr ?_⟩
  · rw [hlen, State.storePayload_output, Memory.ofBytes_fst, List.range_eq_range']
  · rw [hlen]
    exact ⟨hmin, hmax⟩

theorem CommandEnds.inv {i : Instr} {s t : State} (hs : s.Inv) (h : CommandEnds i s t) : t.Inv := by
  cases h with
  | fails e he => exact State.raise_inv hs he _
  | encodeFails hi e he => exact State.raiseEncode_inv hs he _
  | encodes hi P hmin hmax => exact State.storePayload_inv hs hmin hmax
  | streams hi b r hb hr =>
    obtain ⟨hparams, _, hbs, hin, hout⟩ := hs
    exact ⟨hparams, (State.statusOk_of_idle rfl).2 statusDone_mem_idleStatuses, hb hbs, hin, hout⟩

theorem completionStep_inv {w : Word} {s t : State} (hs : s.Inv) (h : completionStep w s = .next t) :
    t.Inv := by
  rcases completionStep_cases w s with ⟨i, _, hc⟩ | ⟨e, _, hc⟩
  · exact (exec_ends (hc.symm.trans h)).inv hs
  · cases hc.symm.trans h
    exact State.raise_inv hs (by decide) w

/-! ## The host's accesses -/

theorem State.accept_inv {s : State} (hs : s.Inv) (w : Word) : (s.accept w).Inv := by
  obtain ⟨hparams, _, hbs, hin, hout⟩ := hs
  exact ⟨hparams, (State.statusOk_of_busy (w := w) rfl).2 rfl, hbs, hin, hout⟩

/-- A stored operand stands outside the invariant; an accept moves STATUS with the engine. -/
theorem writeReg_inv {s : State} (hs : s.Inv) (v : Word) (r : Reg) : (s.writeReg v r).Inv := by
  rcases writeReg_cases s v r with h | ⟨_, h⟩ | ⟨_, h⟩ | ⟨_, h⟩ <;> rw [h]
  · exact hs
  · exact State.accept_inv hs v
  · exact hs
  · exact hs

/-- A write into the IN window stores at offsets inside IN alone. -/
theorem busWrite_inv {s : State} (hs : s.Inv) (width : Nat) (a data : Word) :
    (s.busWrite width a data).Inv := by
  rcases busWrite_cases s width a data with h | ⟨r, h⟩ | ⟨_, hend, h⟩ <;> rw [h]
  · exact hs
  · exact writeReg_inv hs data r
  · obtain ⟨hparams, hstatus, hbs, ⟨hwf, hoff⟩, hout⟩ := hs
    refine ⟨hparams, hstatus, hbs, ⟨Memory.wf_writeBytes hwf _ _, fun c hc => ?_⟩, hout⟩
    rcases Memory.mem_writeBytes hc with ⟨_, hlt⟩ | hold
    · rw [beBytes_length] at hlt
      exact Nat.lt_of_lt_of_le hlt hend
    · exact hoff c hold

/-- A host event keeps the invariant: reads and WAIT change only the model's own fields, and a reset gives
the reset state of the same parameters. -/
theorem perform_inv {s : State} (hs : s.Inv) (e : HostEvent) : (s.perform e).Inv := by
  rcases perform_cases s e with h | ⟨width, a, data, h⟩ | ⟨width, a, h⟩ | ⟨_, h⟩ | ⟨_, h⟩ <;> rw [h]
  · exact hs
  · exact busWrite_inv hs width a data
  · exact hs
  · rcases pollTurn_cases s with ⟨_, hp⟩ | ⟨_, hp⟩ <;> rw [hp] <;> exact hs
  · exact State.resetWith_inv hs.1

theorem hostTurn_inv {s : State} (hs : s.Inv) : s.hostTurn.Inv := by
  unfold State.hostTurn
  split
  · exact hs
  · next e rest _ => exact perform_inv (s := { s with pending := rest }) hs e

theorem atHostTurn_inv {s u : State} (hs : s.Inv) (h : s.atHostTurn = some u) : u.Inv := by
  rcases atHostTurn_cases h with ⟨_, rfl⟩ | ⟨w, k, _, _, rfl⟩ <;> exact hs

/-- Settles O14: a step is a host turn or a completion step, and both keep the invariant. -/
theorem everyStepKeepsTheInvariant : Obligations.EveryStepKeepsTheInvariant := by
  intro s t hs h
  rcases step_cases s with ⟨u, hu, hstep⟩ | ⟨w, _, _, hstep⟩
  · cases hstep.symm.trans h
    exact hostTurn_inv (atHostTurn_inv hs hu)
  · exact completionStep_inv hs (hstep.symm.trans h)

/-! ## What the invariant says of STATUS -/

/-- The flags of every word STATUS can hold (10_state R35, 60_exceptions R410). -/
theorem status_flags {v : Word} (hv : v = 0x00000001 ∨ v ∈ idleStatuses) :
    (busyFlag v = true → doneFlag v = false ∧ errFlag v = false) ∧
      (doneFlag v = true → errFlag v = false) ∧
      (errFlag v = false → errcodeField v = 0) ∧
      (errFlag v = true → (errcodeField v).toNat ∈ [1, 4, 5]) ∧ v &&& 0xFFFFF8F8 = 0 := by
  simp only [idleStatuses, List.mem_cons, List.not_mem_nil, or_false] at hv
  rcases hv with rfl | rfl | rfl | rfl | rfl | rfl <;> decide

theorem busyFlag_of_mem_idleStatuses {v : Word} (hv : v ∈ idleStatuses) : busyFlag v = false := by
  simp only [idleStatuses, List.mem_cons, List.not_mem_nil, or_false] at hv
  rcases hv with rfl | rfl | rfl | rfl | rfl <;> decide

/-- Settles O15: STATUS is a word its engine state allows, and each such word has the flags as stated. -/
theorem statusFlagsAreExclusive : Obligations.StatusFlagsAreExclusive := by
  rintro s ⟨_, hstatus, _⟩
  cases he : s.engine with
  | idle =>
    have hv := (State.statusOk_of_idle he).1 hstatus
    exact ⟨by simp [busyFlag_of_mem_idleStatuses hv], status_flags (.inr hv)⟩
  | busy w =>
    have hv := (State.statusOk_of_busy he).1 hstatus
    exact ⟨by simp [hv, busyFlag], status_flags (.inl hv)⟩

end Sys2Proof.Machine
end

section
/-! The register space as the host reaches it: what an aligned word access reads and writes at a register's
offset and at a reserved one, and the step such an access makes. -/

namespace Sys2Proof.Machine

/-- The offsets of the register space that no register has (10_state R43). -/
def reservedOffsets : List Nat := [0x24, 0x28, 0x2C, 0x30, 0x34, 0x38, 0x3C]

@[simp] theorem Reg.atOffset_offset (r : Reg) : Reg.atOffset r.offset = some r := by
  cases r <;> decide

theorem Reg.atOffset_reserved {off : Nat} (h : off ∈ reservedOffsets) : Reg.atOffset off = none := by
  revert off
  decide

/-- A word access below 0x40 lies in the register space and is defined when aligned (20_memory R70, R71). -/
theorem regAccess_defined {off : Nat} (h : off % 4 = 0 ∧ off < 0x40) :
    spaceOf (BitVec.ofNat 32 off) = .reg ∧ offsetOf (BitVec.ofNat 32 off) = off ∧
      regDefined 4 off = true := by
  have hspace : off / 2 ^ 28 = 0 := by omega
  have hoff : off % 2 ^ 28 = off := by omega
  refine ⟨?_, ?_, ?_⟩
  · rw [spaceOf_ofNat (by omega), if_pos hspace]
  · rw [offsetOf_ofNat, hoff]
  · exact decide_eq_true ⟨rfl, h⟩

theorem Reg.offset_defined (r : Reg) : r.offset % 4 = 0 ∧ r.offset < 0x40 := by
  cases r <;> decide

theorem reserved_defined {off : Nat} (h : off ∈ reservedOffsets) : off % 4 = 0 ∧ off < 0x40 := by
  revert off
  decide

theorem readValue_register (s : State) (r : Reg) :
    s.readValue 4 (BitVec.ofNat 32 r.offset) = s.regValue r := by
  obtain ⟨hspace, hoff, hdef⟩ := regAccess_defined r.offset_defined
  simp [State.readValue, hspace, hoff, hdef]

theorem readValue_reserved (s : State) {off : Nat} (h : off ∈ reservedOffsets) :
    s.readValue 4 (BitVec.ofNat 32 off) = 0x00000000 := by
  obtain ⟨hspace, hoff, hdef⟩ := regAccess_defined (reserved_defined h)
  simp [State.readValue, hspace, hoff, hdef, Reg.atOffset_reserved h]

theorem busWrite_register (s : State) (r : Reg) (v : Word) :
    s.busWrite 4 (BitVec.ofNat 32 r.offset) v = s.writeReg v r := by
  obtain ⟨hspace, hoff, hdef⟩ := regAccess_defined r.offset_defined
  simp [State.busWrite, hspace, hoff, hdef]

theorem busWrite_reserved (s : State) {off : Nat} (h : off ∈ reservedOffsets) (v : Word) :
    s.busWrite 4 (BitVec.ofNat 32 off) v = s := by
  obtain ⟨hspace, hoff, hdef⟩ := regAccess_defined (reserved_defined h)
  simp [State.busWrite, hspace, hoff, hdef, Reg.atOffset_reserved h]

/-! ## The step of an access -/

section
variable {s u : State} {width a : Nat} {rest : List HostEvent} (hu : s.atHostTurn = some u)
include hu

theorem atHostTurn_params : u.params = s.params := by
  rcases atHostTurn_cases hu with ⟨_, rfl⟩ | ⟨w, k, _, _, rfl⟩ <;> rfl

theorem step_of_read (ha : a < 2 ^ 32) (hp : s.pending = .read width (s.params.dcpBase + a) :: rest) :
    step s = .next (({ u with pending := rest } : State).busRead width (BitVec.ofNat 32 a)) := by
  rw [step_of_event hu hp, ← atHostTurn_params hu]
  exact congrArg _ (perform_read { u with pending := rest } ha)

theorem step_of_write {v : Word} (ha : a < 2 ^ 32)
    (hp : s.pending = .write width (s.params.dcpBase + a) v :: rest) :
    step s = .next (({ u with pending := rest } : State).busWrite width (BitVec.ofNat 32 a) v) := by
  rw [step_of_event hu hp, ← atHostTurn_params hu]
  exact congrArg _ (perform_write { u with pending := rest } v ha)

/-- Every register reads at the host turn as it stood before it. -/
theorem atHostTurn_regValue (r : Reg) :
    ({ u with pending := rest } : State).regValue r = s.regValue r := by
  rcases atHostTurn_cases hu with ⟨_, rfl⟩ | ⟨w, k, _, _, rfl⟩ <;> cases r <;> rfl

theorem step_of_register_read {r : Reg}
    (hp : s.pending = .read 4 (s.params.dcpBase + r.offset) :: rest) :
    step s = .next
      { u with pending := rest, fresh := u.fresh + 4, replies := s.regValue r :: u.replies } := by
  have ha : r.offset < 2 ^ 32 := by have := r.offset_defined; omega
  rw [step_of_read hu ha hp, State.busRead, readValue_register, atHostTurn_regValue hu]

theorem step_of_register_write {r : Reg} {v : Word}
    (hp : s.pending = .write 4 (s.params.dcpBase + r.offset) v :: rest) :
    step s = .next (({ u with pending := rest } : State).writeReg v r) := by
  have ha : r.offset < 2 ^ 32 := by have := r.offset_defined; omega
  rw [step_of_write hu ha hp, busWrite_register]

end

/-- The table of O16 lists each register's offset with its value. -/
theorem exists_reg_of_mem {s : State} {off : Nat} {v : Word}
    (h : (off, v) ∈ [(0x00, (0x00000000 : Word)), (0x04, s.status), (0x08, s.errinfo), (0x0C, s.arg0),
      (0x10, s.result), (0x14, s.inLen), (0x18, s.outLen),
      (0x1C, BitVec.ofNat 32 s.bs.bits.length), (0x20, BitVec.ofNat 32 s.bs.rpos)]) :
    ∃ r : Reg, off = r.offset ∧ v = s.regValue r := by
  obtain ⟨r, _, hr⟩ : ∃ r ∈ Reg.all, (r.offset, s.regValue r) = (off, v) := List.mem_map.1 h
  exact ⟨r, (congrArg Prod.fst hr).symm, (congrArg Prod.snd hr).symm⟩

/-- Settles O16: each entry is a register, and a read of a register returns its value. -/
theorem registerReadsReturnTheRegisters : Obligations.RegisterReadsReturnTheRegisters := by
  intro s u off v rest hu hmem hp
  obtain ⟨r, rfl, rfl⟩ := exists_reg_of_mem hmem
  exact step_of_register_read hu hp

/-- Settles O18: the register map names no register at a reserved offset. -/
theorem reservedRegistersReadZeroAndIgnoreWrites :
    Obligations.ReservedRegistersReadZeroAndIgnoreWrites := by
  intro s u off v rest hu hmem
  have ha : off < 2 ^ 32 := by have := reserved_defined hmem; omega
  refine ⟨fun hp => ?_, fun hp => ?_⟩
  · rw [step_of_read hu ha hp, State.busRead, readValue_reserved _ hmem]
  · rw [step_of_write hu ha hp, busWrite_reserved _ hmem]

/-- Settles O17: while IDLE the host turn starts from the state itself, and a write of an operand register
stores the word. -/
theorem operandWritesWhileIdleStoreTheWord : Obligations.OperandWritesWhileIdleStoreTheWord := by
  intro s v rest he
  have hu : s.atHostTurn = some s := by simp [State.atHostTurn, he]
  refine ⟨fun hp => ?_, fun hp => ?_⟩
  · rw [step_of_register_write (r := .arg0) hu hp]
    simp [State.writeReg, he]
  · rw [step_of_register_write (r := .inLen) hu hp]
    simp [State.writeReg, he]

/-- Settles O12: the block's fields are those of `State.resetWith`, and the reserved offsets hold nothing. -/
theorem resetValuesAreThoseOfTheRule : Obligations.ResetValuesAreThoseOfTheRule := by
  refine ⟨rfl, rfl, rfl, rfl, rfl, rfl, rfl, rfl, rfl, rfl, ?_, ?_, ?_⟩
  · exact Memory.read_nil
  · exact Memory.read_nil
  · exact fun s off h => readValue_reserved s h

end Sys2Proof.Machine
end

section
/-! The BUSY window: each host turn of it uses up one turn of the latency and leaves the block as it was. -/

namespace Sys2Proof.Machine

theorem core_run_succ {s t : State} (h : step s = .next t) (k : Nat) :
    Sys2Proof.core.run (k + 1) s = Sys2Proof.core.run k t := by
  have hcore : Sys2Proof.core.step s = .next t := h
  simp only [Host.Core.run, hcore]

theorem step_of_busy {s : State} {w : Word} {k : Nat} (he : s.engine = .busy w) (hw : s.wait = k + 1)
    (hr : HostEvent.reset ∉ s.pending) :
    ∃ f p r, step s = .next { s with wait := k, fresh := f, pending := p, replies := r } ∧
      HostEvent.reset ∉ p := by
  have hu : s.atHostTurn = some { s with wait := k } := by simp [State.atHostTurn, he, hw]
  obtain ⟨f, p, r, hturn, hp⟩ := hostTurn_of_busy (u := { s with wait := k }) he hr
  exact ⟨f, p, r, by rw [step_of_hostTurn hu, hturn], hp⟩

/-- Settles O10, by induction on the latency left. -/
theorem busyWindowKeepsStateAndEnds : Obligations.BusyWindowKeepsStateAndEnds := by
  intro s w he hr
  induction hw : s.wait generalizing s with
  | zero => exact ⟨s, rfl, by rw [← hw]⟩
  | succ k ih =>
    obtain ⟨f, p, r, hstep, hp⟩ := step_of_busy he hw hr
    obtain ⟨t, hrun, ht⟩ := ih { s with wait := k, fresh := f, pending := p, replies := r } he hp rfl
    exact ⟨t, (core_run_succ hstep k).trans hrun, ht⟩

end Sys2Proof.Machine
end

section
/-! Big-endian values: the bytes, the bits and the sum that `be` and `unbe` stand for (00_scope R12). -/

namespace Sys2Proof.Machine

theorem unbe_concat (s : List Byte) (b : Byte) : unbe (s ++ [b]) = 2 ^ 8 * unbe s + b.toNat := by
  simp [unbe, List.foldl_append]

/-- Bit i of a big-endian value: bit i mod 8 of byte i div 8, counted from the last byte. -/
theorem testBit_unbe (s : List Byte) (i : Nat) :
    (unbe s).testBit i = (s.reverse.getD (i / 8) 0).getLsbD (i % 8) := by
  induction s using List.reverseRecOn generalizing i with
  | nil => simp [unbe]
  | append_singleton s b ih =>
    rw [unbe_concat, Nat.testBit_two_pow_mul_add _ b.isLt, List.reverse_concat]
    by_cases hi : i < 8
    · simp [hi, Nat.div_eq_of_lt hi, Nat.mod_eq_of_lt hi, BitVec.getLsbD]
    · obtain ⟨k, rfl⟩ : ∃ k, i = k + 8 := ⟨i - 8, by omega⟩
      simp [ih]

/-- The value of n bytes is the sum of the bytes, each weighted by its place. -/
theorem unbe_map_range (f : Nat → Byte) (n : Nat) :
    unbe ((List.range n).map f) =
      ((List.range n).map fun j => (f j).toNat * 256 ^ (n - 1 - j)).sum := by
  induction n generalizing f with
  | zero => rfl
  | succ n ih =>
    have hplace (j : Nat) : n - 1 - j = n - (j + 1) := by omega
    rw [List.range_succ_eq_map, List.map_cons, List.map_map, unbe_cons, ih, List.map_cons, List.map_map,
      List.sum_cons]
    simp [Function.comp_def, hplace]

theorem beBytes_getElem? (v : Nat) {n j : Nat} (h : j < n) :
    (beBytes v n)[j]? = some (BitVec.ofNat 8 (v / 256 ^ (n - 1 - j))) := by
  induction n generalizing j with
  | zero => omega
  | succ n ih =>
    cases j with
    | zero => rfl
    | succ j =>
      rw [beBytes, List.getElem?_cons_succ, ih (by omega), show n + 1 - 1 - (j + 1) = n - 1 - j by omega]

/-- Byte j of a word written as n bytes is the word's field of 8 bits at that place. -/
theorem beBytes_word_getElem? (v : Word) {n j : Nat} (h : j < n) :
    (beBytes v.toNat n)[j]? = some (v.extractLsb' (8 * (n - 1 - j)) 8) := by
  rw [beBytes_getElem? _ h, BitVec.extractLsb', Nat.shiftRight_eq_div_pow, Nat.pow_mul]

end Sys2Proof.Machine
end

section
/-! The spaces as the host reaches them: which accesses are defined, what an inert one does, what a defined
access of a window reads and stores, and the step it makes (20_memory R70 to R76). -/

namespace Sys2Proof.Machine

/-- The bytes of a window; a space that is no window has none (20_memory R70). -/
def windowSize (p : Params) : Space → Nat
  | .input => p.inCap
  | .output => p.outCap
  | .bsw => p.bsCap
  | .reg => 0
  | .inert => 0

/-- The byte a host read of a window sees (20_memory R74 to R76). -/
def State.windowByte (s : State) : Space → Nat → Nat → Byte
  | .input => s.inputByte
  | .output => s.outputByte
  | .bsw => s.bswByte
  | .reg => fun _ _ => 0
  | .inert => fun _ _ => 0

/-- An access that is not inert (20_memory R71 to R73). -/
def accessDefined (p : Params) (width : Nat) (a : Word) : Bool :=
  match spaceOf a with
  | .reg => regDefined width (offsetOf a)
  | S => windowDefined width (offsetOf a) (windowSize p S)

theorem windowDefined_iff {width off size : Nat} :
    windowDefined width off size = true ↔
      (width = 1 ∨ width = 2 ∨ width = 4) ∧ off % width = 0 ∧ off + width ≤ size :=
  decide_eq_true_iff

theorem windowDefined_pos {width off size : Nat} (h : windowDefined width off size = true) :
    0 < width ∧ off < size := by
  obtain ⟨hwidth, _, hend⟩ := windowDefined_iff.1 h
  omega

@[simp] theorem windowDefined_zero (width off : Nat) : windowDefined width off 0 = false :=
  Bool.eq_false_iff.2 fun h => absurd (windowDefined_pos h).2 (Nat.not_lt_zero _)

/-! ## Inert accesses -/

/-- An inert read returns zero (20_memory R72). -/
theorem readValue_of_inert {s : State} {width : Nat} {a : Word}
    (h : accessDefined s.params width a = false) : s.readValue width a = 0x00000000 := by
  cases hS : spaceOf a
  all_goals
    simp only [accessDefined, hS, windowSize] at h
    simp [State.readValue, hS, h]

/-- An inert write changes nothing (20_memory R72). -/
theorem busWrite_of_inert {s : State} {width : Nat} {a : Word} (v : Word)
    (h : accessDefined s.params width a = false) : s.busWrite width a v = s := by
  cases hS : spaceOf a
  all_goals
    simp only [accessDefined, hS, windowSize] at h
    simp [State.busWrite, hS, h]

/-- The accesses that 20_memory R71 and R73 leave inert, by the block address. -/
theorem accessDefined_eq_false {p : Params} {width a : Nat} (ha : a < 2 ^ 32)
    (h : a / 2 ^ 28 = 0 ∧ ¬ (width = 4 ∧ a % 4 = 0 ∧ a < 0x40) ∨
      (∃ size, (a / 2 ^ 28, size) ∈ [(1, p.inCap), (2, p.outCap), (3, p.bsCap)] ∧
        ¬ ((width = 1 ∨ width = 2 ∨ width = 4) ∧ a % 2 ^ 28 % width = 0 ∧
          a % 2 ^ 28 + width ≤ size)) ∨
      4 ≤ a / 2 ^ 28) :
    accessDefined p width (BitVec.ofNat 32 a) = false := by
  rw [accessDefined, spaceOf_ofNat ha, offsetOf_ofNat]
  rcases h with ⟨hreg, hundef⟩ | ⟨size, hmem, hundef⟩ | hinert
  · have hoff : a % 2 ^ 28 = a := by omega
    rw [if_pos hreg, hoff]
    exact decide_eq_false hundef
  · have hwindow : windowDefined width (a % 2 ^ 28) size = false := decide_eq_false hundef
    simp only [List.mem_cons, Prod.mk.injEq, List.not_mem_nil, or_false] at hmem
    rcases hmem with ⟨hq, rfl⟩ | ⟨hq, rfl⟩ | ⟨hq, rfl⟩ <;> rw [hq] <;> exact hwindow
  · rw [if_neg (by omega), if_neg (by omega), if_neg (by omega), if_neg (by omega)]
    exact windowDefined_zero _ _

/-- Settles O19: such an access is not defined, so it reads zero and writes nothing. -/
theorem inertAccessesReadZeroAndChangeNothing : Obligations.InertAccessesReadZeroAndChangeNothing := by
  intro s u width a v rest hu ha hinert
  have hundef : accessDefined ({ u with pending := rest } : State).params width
      (BitVec.ofNat 32 a) = false := by
    rw [← atHostTurn_params hu] at hinert
    exact accessDefined_eq_false ha hinert
  refine ⟨fun hp => ⟨u.fresh + width, ?_⟩, fun hp => ?_⟩
  · rw [step_of_read hu ha hp, State.busRead, readValue_of_inert hundef]
  · rw [step_of_write hu ha hp, busWrite_of_inert v hundef]

/-! ## Accesses with no effect on the block -/

/-- The OUT and BSW windows ignore every write (20_memory R75, R76). -/
theorem busWrite_of_readOnly {s : State} {a : Word} (h : spaceOf a = .output ∨ spaceOf a = .bsw)
    (width : Nat) (v : Word) : s.busWrite width a v = s := by
  rcases h with h | h <;> simp [State.busWrite, h]

/-- Settles O20: block addresses 0x20000000 to 0x3FFFFFFF are those of OUT and BSW. -/
theorem outAndBswWritesAreIgnored : Obligations.OutAndBswWritesAreIgnored := by
  intro s u width a v rest hu hmem hp
  have hq : a / 2 ^ 28 = 2 ∨ a / 2 ^ 28 = 3 := by simpa using hmem
  have ha : a < 2 ^ 32 := by omega
  have hS : spaceOf (BitVec.ofNat 32 a) = .output ∨ spaceOf (BitVec.ofNat 32 a) = .bsw := by
    rw [spaceOf_ofNat ha]
    rcases hq with hq | hq <;> rw [hq]
    exacts [.inl rfl, .inr rfl]
  rw [step_of_write hu ha hp, busWrite_of_readOnly hS]

/-- A host read gives no value, where it does not reach the block, or one. -/
theorem perform_read_cases (s : State) (width addr : Nat) :
    s.perform (.read width addr) = s ∨ ∃ v, s.perform (.read width addr) =
      { s with fresh := s.fresh + width, replies := v :: s.replies } := by
  cases h : Params.blockAddress s.params addr with
  | none => exact .inl (by simp [State.perform, h])
  | some a => exact .inr ⟨s.readValue width a, by simp [State.perform, State.busRead, h]⟩

/-- Settles O21: a read changes the index of free values and the replies, or nothing at all. -/
theorem hostReadsHaveNoSideEffects : Obligations.HostReadsHaveNoSideEffects := by
  intro s u width addr rest hu hp
  rw [step_of_event hu hp]
  rcases perform_read_cases { u with pending := rest } width addr with h | ⟨v, h⟩
  · exact ⟨u.fresh, [], by simp, congrArg _ h⟩
  · exact ⟨u.fresh + width, [v], by simp, congrArg _ h⟩

/-! ## Defined accesses of a window -/

/-- A window as the host addresses it: its space's origin plus the offset (20_memory R70). -/
theorem spaceOf_origin_add (S : Space) {a : Nat} (ha : a < 2 ^ 28) :
    S.origin + a < 2 ^ 32 ∧ spaceOf (BitVec.ofNat 32 (S.origin + a)) = S ∧
      offsetOf (BitVec.ofNat 32 (S.origin + a)) = a := by
  have horigin : S.origin % 2 ^ 28 = 0 ∧ S.origin ≤ 2 ^ 30 := by cases S <;> decide
  have hlt : S.origin + a < 2 ^ 32 := by omega
  have hq : (S.origin + a) / 2 ^ 28 = S.origin / 2 ^ 28 := by omega
  refine ⟨hlt, ?_, ?_⟩
  · rw [spaceOf_ofNat hlt, hq]
    cases S <;> rfl
  · rw [offsetOf_ofNat]
    omega

theorem windowSize_le {p : Params} (hp : p.wf) (S : Space) : windowSize p S ≤ 2 ^ 28 := by
  obtain ⟨⟨_, hin⟩, ⟨_, hout⟩, ⟨_, hbs⟩⟩ := hp
  cases S <;> simp only [windowSize] <;> omega

/-- A defined access of a window lies within the 2^28 offsets of its space. -/
theorem offset_lt_of_windowDefined {p : Params} (hp : p.wf) {S : Space} {n a : Nat}
    (h : windowDefined n a (windowSize p S) = true) : a < 2 ^ 28 :=
  lt_of_lt_of_le (windowDefined_pos h).2 (windowSize_le hp S)

theorem readValue_window {s : State} {S : Space} {n : Nat} {a : Word} (hS : spaceOf a = S)
    (h : windowDefined n (offsetOf a) (windowSize s.params S) = true) :
    s.readValue n a = windowValue (s.windowByte S) s.fresh n (offsetOf a) := by
  cases S
  case reg | inert => simp [windowSize] at h
  all_goals
    simp only [windowSize] at h
    simp [State.readValue, State.windowByte, hS, h]

theorem busWrite_input {s : State} (he : s.engine = .idle) {n : Nat} {a : Word} (hS : spaceOf a = .input)
    (h : windowDefined n (offsetOf a) s.params.inCap = true) (v : Word) :
    s.busWrite n a v = { s with input := s.input.writeBytes (offsetOf a) (beBytes v.toNat n) } := by
  simp [State.busWrite, hS, h, he]

theorem atHostTurn_of_idle {s : State} (he : s.engine = .idle) : s.atHostTurn = some s := by
  simp [State.atHostTurn, he]

/-- A window reads at the host turn as it stood before it. -/
theorem atHostTurn_windowByte {s u : State} (hu : s.atHostTurn = some u) (rest : List HostEvent)
    (S : Space) : ({ u with pending := rest } : State).windowByte S = s.windowByte S := by
  rcases atHostTurn_cases hu with ⟨_, rfl⟩ | ⟨w, k, _, _, rfl⟩ <;> cases S <;> rfl

/-- The step of a defined read of a window. -/
theorem step_of_window_read {s u : State} {S : Space} {n a : Nat} {rest : List HostEvent}
    (hwf : s.params.wf) (hu : s.atHostTurn = some u)
    (h : windowDefined n a (windowSize s.params S) = true)
    (hp : s.pending = .read n (s.params.dcpBase + S.origin + a) :: rest) :
    step s = .next { u with
      pending := rest, fresh := u.fresh + n,
      replies := windowValue (s.windowByte S) u.fresh n a :: u.replies } := by
  obtain ⟨haddr, hS, hoff⟩ := spaceOf_origin_add S (offset_lt_of_windowDefined hwf h)
  rw [Nat.add_assoc] at hp
  rw [← atHostTurn_params hu, ← hoff] at h
  rw [step_of_read hu haddr hp, State.busRead,
    readValue_window (s := { u with pending := rest }) hS h, hoff, atHostTurn_windowByte hu]

/-- The step of a defined write of IN while IDLE. -/
theorem step_of_input_write {s : State} {n a : Nat} {v : Word} {rest : List HostEvent}
    (hwf : s.params.wf) (he : s.engine = .idle) (h : windowDefined n a s.params.inCap = true)
    (hp : s.pending = .write n (s.params.dcpBase + Space.input.origin + a) v :: rest) :
    step s = .next { s with
      input := s.input.writeBytes a (beBytes v.toNat n), pending := rest } := by
  obtain ⟨haddr, hS, hoff⟩ := spaceOf_origin_add .input (offset_lt_of_windowDefined (S := .input) hwf h)
  rw [Nat.add_assoc] at hp
  rw [← hoff] at h
  rw [step_of_write (atHostTurn_of_idle he) haddr hp,
    busWrite_input (s := { s with pending := rest }) he hS h, hoff]

/-- Settles O22: the write stores `be_n` of the word. -/
theorem inWindowWriteStoresBigEndianBytes : Obligations.InWindowWriteStoresBigEndianBytes := by
  intro s n a v rest hwf he hn hal hend hp
  refine ⟨_, step_of_input_write hwf he (windowDefined_iff.2 ⟨hn, hal, hend⟩) hp, fun j hj => ?_,
    fun b hb => ?_⟩
  · rw [Memory.read_writeBytes, beBytes_length, if_pos (by omega), Nat.add_sub_cancel_left,
      beBytes_word_getElem? v hj]
  · rw [Memory.read_writeBytes, beBytes_length, if_neg (by omega)]

/-! ## The value of a window read -/

theorem inputByte_of_read {s : State} {off : Nat} {b : Byte} (h : s.input.read off = some b)
    (draw : Nat) : s.inputByte draw off = b := by
  simp [State.inputByte, h]

theorem outputByte_of_read {s : State} {off : Nat} {b : Byte} (he : s.engine = .idle)
    (hlt : off < s.outLen.toNat) (h : s.output.read off = some b) (draw : Nat) :
    s.outputByte draw off = b := by
  simp [State.outputByte, he, hlt, h]

theorem bswByte_of_idle {s : State} (he : s.engine = .idle) (draw off : Nat) :
    s.bswByte draw off = streamByte s.bs.bits off := by
  simp [State.bswByte, he]

/-- A read of known bytes is their big-endian value (20_memory R73). -/
theorem windowValue_of_bytes {byte : Nat → Nat → Byte} {fresh n off : Nat} {b : Nat → Byte}
    (h : ∀ j, j < n → byte (fresh + j) (off + j) = b j) :
    windowValue byte fresh n off =
      BitVec.ofNat 32 (((List.range n).map fun j => (b j).toNat * 256 ^ (n - 1 - j)).sum) := by
  have hbytes : ((List.range n).map fun j => byte (fresh + j) (off + j)) = (List.range n).map b :=
    List.map_congr_left fun j hj => h j (List.mem_range.1 hj)
  rw [windowValue, hbytes, unbe_map_range]

/-- The step of a defined read of window bytes that are known. -/
theorem step_of_known_window_read {s u : State} {S : Space} {n a : Nat} {b : Nat → Byte}
    {rest : List HostEvent} (hwf : s.params.wf) (hu : s.atHostTurn = some u)
    (h : windowDefined n a (windowSize s.params S) = true)
    (hbytes : ∀ j, j < n → ∀ draw, s.windowByte S draw (a + j) = b j)
    (hp : s.pending = .read n (s.params.dcpBase + S.origin + a) :: rest) :
    step s = .next { u with
      pending := rest, fresh := u.fresh + n,
      replies := BitVec.ofNat 32 (((List.range n).map fun j => (b j).toNat * 256 ^ (n - 1 - j)).sum) ::
        u.replies } := by
  rw [step_of_window_read hwf hu h hp, windowValue_of_bytes fun j hj => hbytes j hj _]

/-- Settles O23: every byte of the read is one that the window holds. -/
theorem windowReadsReturnBigEndianBytes : Obligations.WindowReadsReturnBigEndianBytes := by
  intro s u n a b rest hwf hu hn hal
  refine ⟨fun hend hbytes hp => ?_, fun hend he hlen hbytes hp => ?_⟩
  · have hdef : windowDefined n a s.params.inCap = true := windowDefined_iff.2 ⟨hn, hal, hend⟩
    exact step_of_known_window_read (S := .input) hwf hu hdef
      (fun j hj => inputByte_of_read (hbytes j hj)) hp
  · have hdef : windowDefined n a s.params.outCap = true := windowDefined_iff.2 ⟨hn, hal, hend⟩
    exact step_of_known_window_read (S := .output) hwf hu hdef
      (fun j hj => outputByte_of_read he (by omega) (hbytes j hj)) hp

/-- Bit i of a window read stands in the byte that is i div 8 places before the last. -/
theorem windowValue_getLsbD (byte : Nat → Nat → Byte) (fresh n off : Nat) {i : Nat} (hi : i < 32) :
    (windowValue byte fresh n off).getLsbD i = (decide (i < 8 * n) &&
      (byte (fresh + (n - 1 - i / 8)) (off + (n - 1 - i / 8))).getLsbD (i % 8)) := by
  rw [windowValue, BitVec.getLsbD_ofNat, testBit_unbe, List.getD_eq_getElem?_getD]
  by_cases h : i < 8 * n
  · have hbyte : i / 8 < n := by omega
    rw [List.getElem?_reverse (by simpa using hbyte)]
    simp [hi, h, show n - 1 - i / 8 < n by omega]
  · have hbyte : n ≤ i / 8 := by omega
    simp [h, hbyte]

/-- Settles O24: bit 7 - k of byte j of the window is stream bit 8j + k. -/
theorem bswWindowReadsStreamBitsZeroPadded : Obligations.BswWindowReadsStreamBitsZeroPadded := by
  intro s n a rest hwf he hn hal hend hp
  refine ⟨_, step_of_window_read (S := .bsw) hwf (atHostTurn_of_idle he)
    (windowDefined_iff.2 ⟨hn, hal, hend⟩) hp, fun i hi => ?_⟩
  rw [windowValue_getLsbD _ _ _ _ hi, State.windowByte, bswByte_of_idle he,
    streamByte_getLsbD _ _ _ (Nat.mod_lt _ (by decide))]
  by_cases h : i < 8 * n
  · rw [show 8 * (a + (n - 1 - i / 8)) + (7 - i % 8) = 8 * a + (8 * n - 1 - i) by omega]
  · simp [h]

end Sys2Proof.Machine
end

section
/-! The command word and its three fields: the decoder reads the fields the encoder writes, so each undoes
the other, and the rows of opcode_table.json and the legal words are told by the fields (30_encoding R100 to
R104). -/

namespace Sys2Proof

/-! ## The fields of a word -/

theorem word_eq_iff_fields {v w : Word} :
    v = w ↔ rsvField v = rsvField w ∧ modField v = modField w ∧ opcField v = opcField w := by
  refine ⟨fun h => by simp [h], fun ⟨hrsv, hmod, hopc⟩ => ?_⟩
  rw [word_eq_fields v, word_eq_fields w, hrsv, hmod, hopc]

theorem rsvField_and (v w : Word) : rsvField (v &&& w) = rsvField v &&& rsvField w :=
  BitVec.extractLsb'_and

theorem modField_and (v w : Word) : modField (v &&& w) = modField v &&& modField w :=
  BitVec.extractLsb'_and

theorem opcField_and (v w : Word) : opcField (v &&& w) = opcField v &&& opcField w :=
  BitVec.extractLsb'_and

/-- A command's word as a number: OPC and N at the places of R100, nothing above them. -/
theorem encode_toNat (i : Instr) :
    (encode i).toNat = i.opcode.code.toNat + 256 * i.modifier.toNat := by
  rw [encode, BitVec.toNat_append, ← Nat.shiftLeft_add_eq_or_of_lt i.opcode.code.isLt,
    BitVec.toNat_append, show (0 : BitVec 16).toNat = 0 from rfl, Nat.zero_shiftLeft, Nat.zero_or,
    Nat.shiftLeft_eq]
  omega

theorem encode_eq_ofNat (i : Instr) :
    encode i = BitVec.ofNat 32 (i.opcode.code.toNat + 256 * i.modifier.toNat) := by
  rw [← encode_toNat, BitVec.ofNat_toNat, BitVec.setWidth_eq]

@[simp] theorem rsvField_encode (i : Instr) : rsvField (encode i) = 0 := by
  apply BitVec.eq_of_toNat_eq
  rw [rsvField_toNat, encode_toNat]
  have hopc := i.opcode.code.isLt
  have hmod := i.modifier.isLt
  simp only [BitVec.ofNat_eq_ofNat, BitVec.toNat_zero]
  omega

@[simp] theorem modField_encode (i : Instr) : modField (encode i) = i.modifier := by
  apply BitVec.eq_of_toNat_eq
  rw [modField_toNat, encode_toNat]
  have hopc := i.opcode.code.isLt
  have hmod := i.modifier.isLt
  omega

@[simp] theorem opcField_encode (i : Instr) : opcField (encode i) = i.opcode.code := by
  apply BitVec.eq_of_toNat_eq
  rw [opcField_toNat, encode_toNat]
  have hopc := i.opcode.code.isLt
  omega

/-! ## The decoder undoes the encoder, and the encoder the decoder -/

/-- With RSV zero the decoder assembles the command of the opcode that OPC names (30_encoding R101). -/
theorem decode_of_fields {w : Word} {o : Opcode} (hopc : opcField w = o.code) (hrsv : rsvField w = 0) :
    decode w = assemble (modField w) o := by
  simp [decode, (Opcode.find_eq_some _ _).2 hopc, hrsv]

theorem assemble_modifier_opcode (i : Instr) : assemble i.modifier i.opcode = .ok i := by
  cases i <;> rfl

theorem decode_encode (i : Instr) : decode (encode i) = .ok i := by
  rw [decode_of_fields (opcField_encode i) (rsvField_encode i), modField_encode,
    assemble_modifier_opcode]

/-- Settles O1: the three fields of the word give the command back. -/
theorem encodedCommandDecodesToItself : Obligations.EncodedCommandDecodesToItself := decode_encode

/-- A word that decodes has the three fields of its command's word. -/
theorem encode_of_decode {w : Word} {i : Instr} (h : decode w = .ok i) : encode i = w := by
  obtain ⟨hrsv, hopc, hmod⟩ := decode_eq_ok h
  rw [word_eq_iff_fields, rsvField_encode, modField_encode, opcField_encode]
  exact ⟨hrsv.symm, hmod.symm, hopc.symm⟩

/-- Settles O2: no field of a word is dropped. -/
theorem decodedWordIsTheCommandsWord : Obligations.DecodedWordIsTheCommandsWord :=
  fun _ _ => encode_of_decode

/-- Settles O5: each of these words is the word of its command (30_encoding R121). -/
theorem sampleWordsDecode : Obligations.SampleWordsDecode :=
  ⟨decode_encode .nop, decode_encode (.bsWrite 5), decode_encode .bsLoad, decode_encode .hufEnc,
    decode_encode (.golEnc 1), decode_encode (.lzwEnc 12)⟩

/-! ## The rows of the opcode table -/

/-- A row's mask covers RSV and OPC whole, and its pattern holds the row's OPC alone. -/
theorem Opcode.row_fields (o : Opcode) :
    rsvField o.mask = BitVec.allOnes 16 ∧ opcField o.mask = BitVec.allOnes 8 ∧
      rsvField o.pattern = 0 ∧ modField o.pattern = 0 ∧ opcField o.pattern = o.code := by
  cases o <;> decide

theorem matches_row_iff_fields (w : Word) (o : Opcode) :
    w &&& o.mask = o.pattern ↔
      rsvField w = 0 ∧ modField w &&& modField o.mask = 0 ∧ opcField w = o.code := by
  obtain ⟨hrsv, hopc, hrsv', hmod', hopc'⟩ := o.row_fields
  rw [word_eq_iff_fields, rsvField_and, modField_and, opcField_and, hrsv, hopc, hrsv', hmod', hopc',
    BitVec.and_allOnes, BitVec.and_allOnes]

/-- A mask that leaves N out lets every N pass. -/
theorem and_modField_of_free (n : Byte) : n &&& modField 0xFFFF00FF = 0 := by
  rw [show modField 0xFFFF00FF = 0#8 by decide]
  exact BitVec.and_zero

/-- A mask that covers N sees all of it. -/
theorem and_modField_of_covered (n : Byte) : n &&& modField 0xFFFFFFFF = n := by
  rw [show modField 0xFFFFFFFF = BitVec.allOnes 8 by decide, BitVec.and_allOnes]

/-- N is free where the row's mask leaves it out, and zero where the mask covers it (30_encoding R103). -/
theorem exists_instr_iff (o : Opcode) (n : Byte) :
    (∃ i : Instr, i.opcode = o ∧ i.modifier = n) ↔ n &&& modField o.mask = 0 := by
  constructor
  · rintro ⟨i, rfl, rfl⟩
    cases i
    case bsWrite | bsRead | golEnc | lzwEnc => exact and_modField_of_free _
    all_goals exact and_modField_of_covered 0
  · intro h
    have hzero (hcover : o.mask = 0xFFFFFFFF) : 0 = n := by
      rw [hcover, and_modField_of_covered] at h
      exact h.symm
    cases o with
    | bsWrite => exact ⟨.bsWrite n, rfl, rfl⟩
    | bsRead => exact ⟨.bsRead n, rfl, rfl⟩
    | golEnc => exact ⟨.golEnc n, rfl, rfl⟩
    | lzwEnc => exact ⟨.lzwEnc n, rfl, rfl⟩
    | nop => exact ⟨.nop, rfl, hzero rfl⟩
    | bsClear => exact ⟨.bsClear, rfl, hzero rfl⟩
    | bsFinish => exact ⟨.bsFinish, rfl, hzero rfl⟩
    | bsLoad => exact ⟨.bsLoad, rfl, hzero rfl⟩
    | rleEnc => exact ⟨.rleEnc, rfl, hzero rfl⟩
    | hufEnc => exact ⟨.hufEnc, rfl, hzero rfl⟩

/-- Settles O3: both sides say that RSV is zero, OPC the row's, and N one the row admits. -/
theorem wordMatchesRowIffItDecodesToIt : Obligations.WordMatchesRowIffItDecodesToIt := by
  intro w o
  rw [matches_row_iff_fields, ← exists_instr_iff]
  constructor
  · rintro ⟨hrsv, ⟨i, rfl, hmod⟩, hopc⟩
    exact ⟨i, by rw [decode_of_fields hopc hrsv, ← hmod, assemble_modifier_opcode], rfl⟩
  · rintro ⟨i, hdec, rfl⟩
    obtain ⟨hrsv, hopc, hmod⟩ := decode_eq_ok hdec
    exact ⟨hrsv, ⟨i, rfl, hmod.symm⟩, hopc⟩

/-! ## The legal words -/

theorem legalWord_iff {w : Word} : legalWord w = true ↔ ∃ i, decode w = .ok i ∧ i.wellFormed := by
  unfold legalWord
  cases decode w <;> simp

/-- The word of a command is legal exactly when its modifier is in range (30_encoding R103). -/
theorem ruleLegal_encode (i : Instr) : Machine.ruleLegal (encode i) ↔ i.wellFormed := by
  have hmod := i.modifier.isLt
  have hopc := i.opcode.code.isLt
  have hrsv : (encode i).toNat / 65536 = 0 := by rw [encode_toNat]; omega
  have hopc' : (encode i).toNat % 256 = i.opcode.code.toNat := by rw [encode_toNat]; omega
  have hmod' : (encode i).toNat / 256 % 256 = i.modifier.toNat := by rw [encode_toNat]; omega
  rw [Machine.ruleLegal, hrsv, hopc', hmod']
  cases i <;> simp [Instr.opcode, Opcode.code, Instr.modifier, Instr.wellFormed, Instr.check]

/-- A legal word decodes: its OPC is in the map, its RSV is zero, and its N is zero where it must be. -/
theorem exists_decode_of_ruleLegal {w : Word} (h : Machine.ruleLegal w) : ∃ i, decode w = .ok i := by
  obtain ⟨hrsv, hrange⟩ := h
  rw [← rsvField_toNat] at hrsv
  rw [← opcField_toNat, ← modField_toNat] at hrange
  cases hfind : Opcode.find (opcField w) with
  | none =>
    have hopc := (Opcode.find_eq_none _).1 hfind
    simp only [List.mem_cons, List.not_mem_nil, or_false] at hopc hrange
    omega
  | some o =>
    have hopc := (Opcode.find_eq_some _ _).1 hfind
    rw [decode_of_fields hopc (BitVec.eq_of_toNat_eq hrsv)]
    rw [hopc] at hrange
    cases o
    case bsWrite | bsRead | golEnc | lzwEnc => exact ⟨_, rfl⟩
    all_goals
      have hzero : modField w = 0 := BitVec.eq_of_toNat_eq (by simpa [Opcode.code] using hrange)
      exact ⟨_, if_pos hzero⟩

/-- Settles O4: a legal word is the word of a command, whose modifier is in range. -/
theorem legalWordsAreThoseOfTheRule : Obligations.LegalWordsAreThoseOfTheRule := by
  intro w
  rw [legalWord_iff]
  constructor
  · rintro ⟨i, hdec, hwf⟩
    rw [← encode_of_decode hdec]
    exact (ruleLegal_encode i).2 hwf
  · intro h
    obtain ⟨i, hdec⟩ := exists_decode_of_ruleLegal h
    rw [← encode_of_decode hdec] at h
    exact ⟨i, hdec, (ruleLegal_encode i).1 h⟩

end Sys2Proof
end

section
/-! Illegal words: each fails with ConfigurationError at its completion step, whether the decoder or the
modifier check refuses it, and has no other effect (30_encoding R104, 60_exceptions R413, R416). -/

namespace Sys2Proof.Machine

theorem raise_configuration_eq (w : Word) (s : State) :
    s.raise .configuration w = { s with engine := .idle, status := 0x00000104, errinfo := w } := rfl

theorem step_of_completion {s : State} {w : Word} (he : s.engine = .busy w) (hw : s.wait = 0) :
    step s = completionStep w s := by
  simp [step, cycle, he, hw]

/-- The modifier check comes before any effect of the command (60_exceptions R416). -/
theorem exec_of_not_wellFormed {i : Instr} (h : ¬ i.wellFormed) (s : State) :
    exec i s = .next (s.raise .configuration (encode i)) := by
  cases i
  case bsWrite | bsRead | golEnc | lzwEnc => exact checked_of_not_wellFormed h s _
  all_goals exact absurd rfl h

/-- Settles O7: the word does not decode, or its command is refused by the modifier check. -/
theorem illegalWordFailsAndChangesNothingElse : Obligations.IllegalWordFailsAndChangesNothingElse := by
  intro s w he hw hillegal
  rw [step_of_completion he hw, ← raise_configuration_eq]
  rcases completionStep_cases w s with ⟨i, hdec, hc⟩ | ⟨e, _, hc⟩
  · rw [← encode_of_decode hdec, ruleLegal_encode] at hillegal
    rw [hc, exec_of_not_wellFormed hillegal, encode_of_decode hdec]
  · exact hc

/-- Settles O45: such a modifier fails its check. -/
theorem encodeWithBadModifierChangesNothingElse :
    Obligations.EncodeWithBadModifierChangesNothingElse := by
  refine ⟨fun s m hm => ?_, fun s W hW => ?_⟩
  · have hbad : ¬ (Instr.golEnc m).wellFormed := by simpa [Instr.wellFormed, Instr.check] using hm
    rw [exec_of_not_wellFormed hbad, raise_configuration_eq, encode_eq_ofNat]
    rfl
  · have hbad : ¬ (Instr.lzwEnc W).wellFormed := by
      simpa [Instr.wellFormed, Instr.check, imp_iff_not_or] using hW
    rw [exec_of_not_wellFormed hbad, raise_configuration_eq, encode_eq_ofNat]
    rfl

end Sys2Proof.Machine
end

section
/-! The end of an encode: what the command reads of the state, and the two ends of an encode of a formed
input, a stored payload and a capacity error (30_encoding R113, R114; 60_exceptions R414, R422). -/

namespace Sys2Proof.Machine

theorem raiseEncode_capacity_eq (w : Word) (s : State) :
    s.raiseEncode .capacity w = { s with
      engine := .idle, status := 0x00000504, errinfo := w, outLen := 0x00000000, output := [] } := rfl

theorem statusError_ne_statusDone (e : ErrorKind) : statusError e ≠ statusDone := by
  cases e <;> decide

section
variable {s : State} {x P : List Byte} {payload : List Byte → Except ErrorKind (List Byte)}

/-- An encode whose codec gives a payload ends with the capacity check. -/
theorem encodeWith_of_payload (w : Word) (hl : s.inLen.toNat = x.length)
    (hc : x.length ≤ s.params.inCap) (hx : ∀ a, a < x.length → s.input.read a = x[a]?)
    (hP : payload x = .ok P) : encodeWith w payload s = .next (s.finishEncode w P) := by
  rw [encodeWith_of_input w payload hl hc hx, hP]

theorem finishEncode_of_fits (w : Word) (h : P.length ≤ s.params.outCap) :
    s.finishEncode w P = s.storePayload P := if_neg (Nat.not_lt.2 h)

theorem finishEncode_of_exceeds (w : Word) (h : s.params.outCap < P.length) :
    s.finishEncode w P = s.raiseEncode .capacity w := if_pos h

theorem encodeWith_of_exceeds (w : Word) (hl : s.inLen.toNat = x.length)
    (hc : x.length ≤ s.params.inCap) (hx : ∀ a, a < x.length → s.input.read a = x[a]?)
    (hP : payload x = .ok P) (hover : s.params.outCap < P.length) :
    encodeWith w payload s = .next { s with
      engine := .idle, status := 0x00000504, errinfo := w, outLen := 0x00000000, output := [] } := by
  rw [encodeWith_of_payload w hl hc hx hP, finishEncode_of_exceeds w hover, raiseEncode_capacity_eq]

/-- An encode that ends in DONE has formed its input, and has stored its codec's payload of it. -/
theorem encodeWith_done {t : State} {w : Word} (h : encodeWith w payload s = .next t)
    (ht : t.status = statusDone) :
    ∃ x P, s.inLen.toNat = x.length ∧ x.length ≤ s.params.inCap ∧
      (∀ a, a < x.length → s.input.read a = x[a]?) ∧ payload x = .ok P ∧
      P.length ≤ s.params.outCap ∧ t = s.storePayload P := by
  rcases encodeWith_cases w payload s with
    ⟨_, hc⟩ | ⟨_, a, _, hc⟩ | ⟨_, x, e, _, _, hc⟩ | ⟨hcap, x, P, hread, hP, hc⟩
  · cases hc.symm.trans h
    exact absurd ht (statusError_ne_statusDone _)
  · cases hc.symm.trans h
  · cases hc.symm.trans h
    exact absurd ht (statusError_ne_statusDone _)
  · cases hc.symm.trans h
    obtain ⟨hlen, hx⟩ := Memory.readBytes_ok hread
    rw [← hlen] at hcap hx
    rcases finishEncode_cases w P s with ⟨hfit, hf⟩ | ⟨_, hf⟩
    · exact ⟨x, P, hlen.symm, hcap, fun a ha => by simpa using hx a ha, hP, hfit, hf⟩
    · rw [hf] at ht
      exact absurd ht (statusError_ne_statusDone _)

end

/-- GOL.ENC mode 0 codes with ARG0, unless that is zero (44_golomb R280). -/
theorem golombEncode_supplied {arg0 : Word} (h : arg0.toNat ≠ 0) (x : List Byte) :
    golombEncode 0 arg0 x = .ok (golombPayload arg0.toNat x) := by
  rw [golombEncode, golombDivisor, if_pos rfl, if_neg h]

/-- GOL.ENC in the other mode codes with the estimate (44_golomb R283). -/
theorem golombEncode_estimated {mode : Byte} (h : mode ≠ 0) (arg0 : Word) (x : List Byte) :
    golombEncode mode arg0 x = .ok (golombPayload (golombEstimate x) x) := by
  rw [golombEncode, golombDivisor, if_neg h]

/-- Settles O43: past its other checks each encode comes to the capacity check with its payload. -/
theorem encodeOverCapacityFails : Obligations.EncodeOverCapacityFails := by
  intro s x hl hc hx
  refine ⟨fun hover => ?_, fun hover => ?_, fun hb hover => ?_, fun hover => ?_,
    fun W hlo hhi hover => ?_⟩
  · exact encodeWith_of_exceeds _ hl hc hx (payload := fun x => .ok (rlePayload x)) rfl hover
  · exact encodeWith_of_exceeds _ hl hc hx (payload := fun x => .ok (hufPayload x)) rfl hover
  · exact encodeWith_of_exceeds _ hl hc hx (golombEncode_supplied hb x) hover
  · exact encodeWith_of_exceeds _ hl hc hx (golombEncode_estimated (mode := 1) (by decide) s.arg0 x) hover
  · have hwf : (Instr.lzwEnc W).wellFormed := if_pos ⟨hlo, hhi⟩
    have hword : encode (.lzwEnc W) = BitVec.ofNat 32 (0x13 + 256 * W.toNat) := encode_eq_ofNat _
    rw [exec, execLzwEnc, checked_of_wellFormed hwf, ← hword]
    exact encodeWith_of_exceeds _ hl hc hx rfl hover

/-- An encode reads ARG0 through its codec alone, and only the codec of GOL.ENC mode 0 looks at it. -/
theorem exec_encode {i : Instr} (hi : isEncode i = true) :
    ∃ payload : Word → List Byte → Except ErrorKind (List Byte),
      (∀ s, exec i s = checked i s (encodeWith (encode i) (payload s.arg0) s)) ∧
        (i ≠ .golEnc 0 → ∀ v v', payload v = payload v') := by
  cases i with
  | rleEnc => exact ⟨fun _ x => .ok (rlePayload x), fun _ => rfl, fun _ _ _ => rfl⟩
  | hufEnc => exact ⟨fun _ x => .ok (hufPayload x), fun _ => rfl, fun _ _ _ => rfl⟩
  | lzwEnc w => exact ⟨fun _ x => .ok (lzwPayload w.toNat x), fun _ => rfl, fun _ _ _ => rfl⟩
  | golEnc m =>
    refine ⟨golombEncode m, fun _ => rfl, fun hne v v' => ?_⟩
    have hm : m ≠ 0 := fun h => hne (h ▸ rfl)
    funext x
    rw [golombEncode_estimated hm, golombEncode_estimated hm]
  | nop | bsClear | bsWrite | bsRead | bsFinish | bsLoad => cases hi

/-- A command that ends in DONE has a modifier in range. -/
theorem wellFormed_of_done {i : Instr} {s t : State} (h : exec i s = .next t)
    (ht : t.status = statusDone) : i.wellFormed := by
  by_contra hbad
  cases (exec_of_not_wellFormed hbad s).symm.trans h
  exact statusError_ne_statusDone _ ht

/-- Settles O47: the codec sees the input bytes and the ARG0 it may look at, and the capacity check the
payload and OUT_CAP. -/
theorem encodesDependOnlyOnTheirOperands : Obligations.EncodesDependOnlyOnTheirOperands := by
  intro i s s' t hi hparams hinLen hinput harg0 h ht
  obtain ⟨payload, hexec, hpayload⟩ := exec_encode hi
  have hwf : i.wellFormed := wellFormed_of_done h ht
  rw [hexec, checked_of_wellFormed hwf] at h
  obtain ⟨x, P, hl, hc, hx, hP, hfit, rfl⟩ := encodeWith_done h ht
  have hsame : payload s.arg0 = payload s'.arg0 := by
    by_cases hgol : i = .golEnc 0
    · rw [harg0 hgol]
    · exact hpayload hgol _ _
  have hx' : ∀ a, a < x.length → s'.input.read a = x[a]? := fun a ha => by
    rw [← hinput a (hl ▸ ha), hx a ha]
  refine ⟨s'.storePayload P, ?_, rfl, rfl, rfl⟩
  rw [hexec, checked_of_wellFormed hwf,
    encodeWith_of_payload (encode i) (hinLen ▸ hl) (hparams ▸ hc) hx' (hsame ▸ hP),
    finishEncode_of_fits (encode i) (hparams ▸ hfit)]

end Sys2Proof.Machine
end

section
/-! WAIT, the host's polling loop (30_encoding R122). -/

namespace Sys2Proof.Machine

/-- The loop's read of STATUS returns STATUS. -/
theorem busRead_status_eq (s : State) :
    s.busRead 4 statusAddress = { s with replies := s.status :: s.replies, fresh := s.fresh + 4 } := by
  rw [State.busRead, show statusAddress = BitVec.ofNat 32 Reg.status.offset from rfl,
    readValue_register, State.regValue]

/-- Settles O25: the two ways a turn ends are those of bit 0 of STATUS. -/
theorem waitPollsStatusUntilNotBusy : Obligations.WaitPollsStatusUntilNotBusy := by
  intro s u rest hu hp
  have hstatus : u.status = s.status := atHostTurn_regValue (rest := rest) hu .status
  rw [step_of_event hu hp, State.perform]
  rcases pollTurn_cases { u with pending := rest } with ⟨hbusy, h⟩ | ⟨hbusy, h⟩
  all_goals
    rw [h, busRead_status_eq, ← hstatus, show u.status.getLsbD 0 = _ from hbusy]
    rfl

end Sys2Proof.Machine
end

section
/-! The command cycle around a completion step: the accept that begins it, the command it runs, and the words
whose OPC names a command without a modifier but which set some other bit (30_encoding R103, R104; 40_bitstream
R150, R152). -/

namespace Sys2Proof.Machine

theorem completionStep_of_decode {w : Word} {i : Instr} (h : decode w = .ok i) (s : State) :
    completionStep w s = exec i s := by
  rw [completionStep, h]

/-- Settles O6: a busy engine with no latency left takes the completion step of its word. -/
theorem completionStepRunsTheDecodedCommand : Obligations.CompletionStepRunsTheDecodedCommand := by
  intro s w i he hw hdec
  rw [step_of_completion he hw, completionStep_of_decode hdec]

theorem writeReg_cmd_of_idle {s : State} (he : s.engine = .idle) (w : Word) :
    s.writeReg w .cmd = s.accept w := if_pos he

/-- Settles O8: CMD stands at offset 0, and while IDLE a write of it accepts. -/
theorem cmdWriteWhileIdleAccepts : Obligations.CmdWriteWhileIdleAccepts := by
  intro s w rest he hp
  refine ⟨Config.latency s.fresh, ?_⟩
  rw [step_of_register_write (r := .cmd) (atHostTurn_of_idle he) hp,
    writeReg_cmd_of_idle (s := { s with pending := rest }) he]
  rfl

/-- Where N must be 0, a legal word is its OPC and nothing else (30_encoding R103). -/
theorem eq_opc_of_ruleLegal {w : Word} (hopc : w.toNat % 256 ∈ [0x00, 0x01, 0x04, 0x05, 0x10, 0x11])
    (h : ruleLegal w) : w.toNat = w.toNat % 256 := by
  obtain ⟨hrsv, hrange⟩ := h
  simp only [List.mem_cons, List.not_mem_nil, or_false] at hopc hrange
  omega

/-- Such a word with another bit set is illegal, and fails at its completion step. -/
theorem step_of_bit_beside_opc {s : State} {w : Word}
    (hopc : w.toNat % 256 ∈ [0x00, 0x01, 0x04, 0x05, 0x10, 0x11])
    (hne : w ≠ BitVec.ofNat 32 (w.toNat % 256)) (he : s.engine = .busy w) (hw : s.wait = 0) :
    step s = .next { s with engine := .idle, status := 0x00000104, errinfo := w } := by
  refine illegalWordFailsAndChangesNothingElse s w he hw fun hlegal => hne ?_
  rw [← eq_opc_of_ruleLegal hopc hlegal, BitVec.ofNat_toNat, BitVec.setWidth_eq]

/-- Settles O30: NOP is `complete()` alone, and a word with a bit beside its OPC is illegal. -/
theorem nopOnlyCompletes : Obligations.NopOnlyCompletes := by
  refine ⟨fun s => rfl, encode_eq_ofNat .nop, fun s w hopc hne he hw => ?_⟩
  exact step_of_bit_beside_opc (by simp [hopc]) (by simpa [hopc] using hne) he hw

/-- Settles O31: BS.CLEAR is `complete()` with an empty stream; other words with its OPC are illegal. -/
theorem bsClearEmptiesTheStream : Obligations.BsClearEmptiesTheStream := by
  refine ⟨fun s => rfl, encode_eq_ofNat .bsClear, fun s w hopc hne he hw => ?_⟩
  exact step_of_bit_beside_opc (by simp [hopc]) (by simpa [hopc] using hne) he hw

/-- Settles O34: BS.FINISH is `complete()` with the write cursor in RESULT; other words with its OPC are
illegal. -/
theorem bsFinishReturnsTheBitCount : Obligations.BsFinishReturnsTheBitCount := by
  refine ⟨fun s => rfl, encode_eq_ofNat .bsFinish, fun s w hopc hne he hw => ?_⟩
  exact step_of_bit_beside_opc (by simp [hopc]) (by simpa [hopc] using hne) he hw

end Sys2Proof.Machine
end

section
/-! BS.WRITE, BS.READ and BS.LOAD: an equation for each way each of them ends, and all of its ways together
(40_bitstream R162, R163, R165; 60_exceptions R416, R417). -/

namespace Sys2Proof.Machine

theorem raise_capacity_eq (w : Word) (s : State) :
    s.raise .capacity w = { s with engine := .idle, status := 0x00000504, errinfo := w } := rfl

theorem raise_underrun_eq (w : Word) (s : State) :
    s.raise .underrun w = { s with engine := .idle, status := 0x00000404, errinfo := w } := rfl

/-! ## BS.WRITE -/

/-- The state after a successful BS.WRITE n: the low n bits of ARG0 stand at the end of the stream. -/
def State.appended (n : Byte) (s : State) : State :=
  { s.complete with bs := { s.bs with bits := s.bs.bits ++ msbBits s.arg0.toNat n.toNat } }

@[simp] theorem State.appended_params (n : Byte) (s : State) : (s.appended n).params = s.params := rfl
@[simp] theorem State.appended_bits (n : Byte) (s : State) :
    (s.appended n).bs.bits = s.bs.bits ++ msbBits s.arg0.toNat n.toNat := rfl

theorem bsWrite_wellFormed_iff {n : Byte} : (Instr.bsWrite n).wellFormed ↔ n.toNat ≤ 32 := by
  simp [Instr.wellFormed, Instr.check]

theorem exec_bsWrite_of_badCount {n : Byte} (hn : 32 < n.toNat) (s : State) :
    exec (.bsWrite n) s = .next (s.raise .configuration (encode (.bsWrite n))) :=
  exec_of_not_wellFormed (mt bsWrite_wellFormed_iff.1 (Nat.not_le.2 hn)) s

section
variable {s : State} {n : Byte} (hn : n.toNat ≤ 32)
include hn

theorem exec_bsWrite_of_exceeds (h : 8 * s.params.bsCap < s.bs.bits.length + n.toNat) :
    exec (.bsWrite n) s = .next (s.raise .capacity (encode (.bsWrite n))) := by
  rw [exec, execBsWrite, checked_of_wellFormed (bsWrite_wellFormed_iff.2 hn), if_pos h]

theorem exec_bsWrite_of_fits (h : s.bs.bits.length + n.toNat ≤ 8 * s.params.bsCap) :
    exec (.bsWrite n) s = .next (s.appended n) := by
  rw [exec, execBsWrite, checked_of_wellFormed (bsWrite_wellFormed_iff.2 hn), if_neg (Nat.not_lt.2 h)]
  rfl

end

/-- Everything BS.WRITE n can do. -/
theorem exec_bsWrite_cases (n : Byte) (s : State) :
    exec (.bsWrite n) s = .next (s.raise .configuration (encode (.bsWrite n))) ∨
      exec (.bsWrite n) s = .next (s.raise .capacity (encode (.bsWrite n))) ∨
      (s.bs.bits.length + n.toNat ≤ 8 * s.params.bsCap ∧ exec (.bsWrite n) s = .next (s.appended n)) := by
  rcases Nat.lt_or_ge 32 n.toNat with hn | hn
  · exact .inl (exec_bsWrite_of_badCount hn s)
  rcases Nat.lt_or_ge (8 * s.params.bsCap) (s.bs.bits.length + n.toNat) with h | h
  · exact .inr (.inl (exec_bsWrite_of_exceeds hn h))
  · exact .inr (.inr ⟨h, exec_bsWrite_of_fits hn h⟩)

/-- Settles O32: the three ends of BS.WRITE, with the appended bits written out by place. -/
theorem bsWriteAppendsLowBitsOfArg0 : Obligations.BsWriteAppendsLowBitsOfArg0 := by
  intro s n
  have hword : encode (.bsWrite n) = BitVec.ofNat 32 (2 + 256 * n.toNat) := encode_eq_ofNat _
  rw [← hword, ← raise_capacity_eq, ← raise_configuration_eq]
  refine ⟨rfl, fun hn hfits => ?_, exec_bsWrite_of_exceeds, fun hn => exec_bsWrite_of_badCount hn s⟩
  rw [exec_bsWrite_of_fits hn hfits, State.appended, msbBits_eq_map]
  rfl

/-! ## BS.READ -/

/-- What BS.READ n returns: the value of the next n bits of the stream. -/
def BitStream.nextValue (n : Byte) (b : BitStream) : Word :=
  BitVec.ofNat 32 (bitsVal ((b.bits.drop b.rpos).take n.toNat))

/-- The state after a successful BS.READ n: the value in RESULT, the read cursor n bits on. -/
def State.consumed (n : Byte) (s : State) : State :=
  { s.complete with result := s.bs.nextValue n, bs := { s.bs with rpos := s.bs.rpos + n.toNat } }

/-- Bit j of the value is the bit of the stream j places before the last one read. -/
theorem nextValue_getLsbD {b : BitStream} {n : Byte} (h : b.rpos + n.toNat ≤ b.bits.length) {j : Nat}
    (hj : j < 32) :
    (b.nextValue n).getLsbD j =
      (decide (j < n.toNat) && b.bits.getD (b.rpos + (n.toNat - 1 - j)) false) := by
  have hlen : ((b.bits.drop b.rpos).take n.toNat).length = n.toNat := by
    rw [List.length_take, List.length_drop]
    omega
  rw [BitStream.nextValue, BitVec.getLsbD_ofNat, testBit_bitsVal, hlen]
  by_cases hjn : j < n.toNat
  · have hpos : n.toNat - 1 - j < n.toNat := by omega
    simp [hj, hjn, hpos, List.getElem?_drop]
  · simp [hjn]

theorem bsRead_wellFormed_iff {n : Byte} : (Instr.bsRead n).wellFormed ↔ n.toNat ≤ 32 := by
  simp [Instr.wellFormed, Instr.check]

theorem exec_bsRead_of_badCount {n : Byte} (hn : 32 < n.toNat) (s : State) :
    exec (.bsRead n) s = .next (s.raise .configuration (encode (.bsRead n))) :=
  exec_of_not_wellFormed (mt bsRead_wellFormed_iff.1 (Nat.not_le.2 hn)) s

section
variable {s : State} {n : Byte} (hn : n.toNat ≤ 32)
include hn

theorem exec_bsRead_of_underrun (h : s.bs.bits.length < s.bs.rpos + n.toNat) :
    exec (.bsRead n) s = .next (s.raise .underrun (encode (.bsRead n))) := by
  rw [exec, execBsRead, checked_of_wellFormed (bsRead_wellFormed_iff.2 hn), if_pos h]

theorem exec_bsRead_of_available (h : s.bs.rpos + n.toNat ≤ s.bs.bits.length) :
    exec (.bsRead n) s = .next (s.consumed n) := by
  rw [exec, execBsRead, checked_of_wellFormed (bsRead_wellFormed_iff.2 hn), if_neg (Nat.not_lt.2 h)]
  rfl

end

/-- Everything BS.READ n can do. -/
theorem exec_bsRead_cases (n : Byte) (s : State) :
    exec (.bsRead n) s = .next (s.raise .configuration (encode (.bsRead n))) ∨
      exec (.bsRead n) s = .next (s.raise .underrun (encode (.bsRead n))) ∨
      (s.bs.rpos + n.toNat ≤ s.bs.bits.length ∧ exec (.bsRead n) s = .next (s.consumed n)) := by
  rcases Nat.lt_or_ge 32 n.toNat with hn | hn
  · exact .inl (exec_bsRead_of_badCount hn s)
  rcases Nat.lt_or_ge s.bs.bits.length (s.bs.rpos + n.toNat) with h | h
  · exact .inr (.inl (exec_bsRead_of_underrun hn h))
  · exact .inr (.inr ⟨h, exec_bsRead_of_available hn h⟩)

/-- Settles O33: the three ends of BS.READ, with the value given bit by bit. -/
theorem bsReadReturnsTheNextBits : Obligations.BsReadReturnsTheNextBits := by
  intro s n
  have hword : encode (.bsRead n) = BitVec.ofNat 32 (3 + 256 * n.toNat) := encode_eq_ofNat _
  rw [← hword, ← raise_underrun_eq, ← raise_configuration_eq]
  refine ⟨rfl, fun hn havail => ?_, exec_bsRead_of_underrun, fun hn => exec_bsRead_of_badCount hn s⟩
  exact ⟨s.bs.nextValue n, exec_bsRead_of_available hn havail, fun j => nextValue_getLsbD havail⟩

/-! ## BS.LOAD -/

/-- The state after a successful BS.LOAD of the given stream. -/
def State.withStream (bits : List Bool) (s : State) : State :=
  { s.complete with bs := { bits := bits, rpos := 0 } }

theorem exec_bsLoad_of_oversize {s : State} (h : s.params.inCap < s.inLen.toNat) :
    exec .bsLoad s = .next (s.raise .configuration (encode .bsLoad)) := by
  rw [exec, execBsLoad, if_pos h]

section
variable {s : State} (hin : s.inLen.toNat ≤ s.params.inCap)
include hin

theorem exec_bsLoad_of_short (h : 8 * s.inLen.toNat < s.arg0.toNat) :
    exec .bsLoad s = .next (s.raise .configuration (encode .bsLoad)) := by
  rw [exec, execBsLoad, if_neg (Nat.not_lt.2 hin), if_pos h]

variable (hbits : s.arg0.toNat ≤ 8 * s.inLen.toNat)
include hbits

theorem exec_bsLoad_of_exceeds (h : 8 * s.params.bsCap < s.arg0.toNat) :
    exec .bsLoad s = .next (s.raise .capacity (encode .bsLoad)) := by
  rw [exec, execBsLoad, if_neg (Nat.not_lt.2 hin), if_neg (Nat.not_lt.2 hbits), if_pos h]

variable (hcap : s.arg0.toNat ≤ 8 * s.params.bsCap)
include hcap

theorem exec_bsLoad_of_unwritten {a : Nat}
    (h : s.input.readBytes 0 (ceil8 s.arg0.toNat) = .error a) :
    exec .bsLoad s = .fault (.unwrittenInput a) := by
  rw [exec, execBsLoad, if_neg (Nat.not_lt.2 hin), if_neg (Nat.not_lt.2 hbits),
    if_neg (Nat.not_lt.2 hcap), h]

theorem exec_bsLoad_of_bytes {bytes : List Byte}
    (h : s.input.readBytes 0 (ceil8 s.arg0.toNat) = .ok bytes) :
    exec .bsLoad s = .next (s.withStream (unpack bytes s.arg0.toNat)) := by
  rw [exec, execBsLoad, if_neg (Nat.not_lt.2 hin), if_neg (Nat.not_lt.2 hbits),
    if_neg (Nat.not_lt.2 hcap), h]
  rfl

end

/-- Everything BS.LOAD can do. -/
theorem exec_bsLoad_cases (s : State) :
    exec .bsLoad s = .next (s.raise .configuration (encode .bsLoad)) ∨
      exec .bsLoad s = .next (s.raise .capacity (encode .bsLoad)) ∨
      (∃ a, exec .bsLoad s = .fault (.unwrittenInput a)) ∨
      ∃ bits, exec .bsLoad s = .next (s.withStream bits) := by
  rcases Nat.lt_or_ge s.params.inCap s.inLen.toNat with h | hin
  · exact .inl (exec_bsLoad_of_oversize h)
  rcases Nat.lt_or_ge (8 * s.inLen.toNat) s.arg0.toNat with h | hbits
  · exact .inl (exec_bsLoad_of_short hin h)
  rcases Nat.lt_or_ge (8 * s.params.bsCap) s.arg0.toNat with h | hcap
  · exact .inr (.inl (exec_bsLoad_of_exceeds hin hbits h))
  cases h : s.input.readBytes 0 (ceil8 s.arg0.toNat) with
  | error a => exact .inr (.inr (.inl ⟨a, exec_bsLoad_of_unwritten hin hbits hcap h⟩))
  | ok bytes => exact .inr (.inr (.inr ⟨_, exec_bsLoad_of_bytes hin hbits hcap h⟩))

/-- MemRead of bytes that all hold a value answers. -/
theorem Memory.exists_readBytes_ok {m : Memory} {n : Nat} (h : ∀ a, a < n → (m.read a).isSome) :
    ∃ bytes, m.readBytes 0 n = .ok bytes := by
  cases hread : m.readBytes 0 n with
  | ok bytes => exact ⟨bytes, rfl⟩
  | error a =>
    obtain ⟨_, ha, hnone, _⟩ := Memory.readBytes_error hread
    simpa [hnone] using h a (by omega)

/-- Each bit of the bytes MemRead answers, in terms of the buffer they were read from. -/
theorem unpack_readBytes {m : Memory} {c : Nat} {bytes : List Byte}
    (h : m.readBytes 0 (ceil8 c) = .ok bytes) :
    unpack bytes c = (List.range c).map fun i => ((m.read (i / 8)).getD 0).getLsbD (7 - i % 8) := by
  obtain ⟨_, hbyte⟩ := Memory.readBytes_ok h
  refine List.map_congr_left fun i hi => ?_
  have hi' : i / 8 < ceil8 c := by
    have := List.mem_range.1 hi
    simp only [ceil8]
    omega
  rw [List.getD_eq_getElem?_getD, ← hbyte _ hi', Nat.zero_add]

/-- Settles O35: the three checks in order, then the bytes of IN. -/
theorem bsLoadMakesInputBitsTheStream : Obligations.BsLoadMakesInputBitsTheStream := by
  intro s
  have hword : encode .bsLoad = 0x00000005 := encode_eq_ofNat _
  rw [← hword, ← raise_capacity_eq, ← raise_configuration_eq]
  refine ⟨rfl, fun hin hbits hcap hwritten => ?_, exec_bsLoad_of_oversize, exec_bsLoad_of_short,
    exec_bsLoad_of_exceeds⟩
  obtain ⟨bytes, hread⟩ := Memory.exists_readBytes_ok hwritten
  rw [← unpack_readBytes hread]
  exact exec_bsLoad_of_bytes hin hbits hcap hread

end Sys2Proof.Machine
end

section
/-! How each command ends: DONE with ERRINFO kept, or one of its own errors with its own word in ERRINFO
(40_bitstream R151; 60_exceptions R411, R412, R415). -/

namespace Sys2Proof.Machine

/-- Command i, run in s, ends in t: IDLE, and with DONE or an error of its own. -/
def OwnEnd (i : Instr) (s t : State) : Prop :=
  t.engine = .idle ∧
    (t.status = statusDone ∧ t.errinfo = s.errinfo ∨
      t.status ∈ failureStatuses i ∧ t.errinfo = encode i)

theorem OwnEnd.of_done {i : Instr} {s t : State} (he : t.engine = .idle) (hs : t.status = statusDone)
    (hi : t.errinfo = s.errinfo) : OwnEnd i s t := ⟨he, .inl ⟨hs, hi⟩⟩

theorem OwnEnd.of_raise {i : Instr} {e : ErrorKind} (h : statusError e ∈ failureStatuses i) (s : State) :
    OwnEnd i s (s.raise e (encode i)) := ⟨rfl, .inr ⟨h, rfl⟩⟩

theorem OwnEnd.of_raiseEncode {i : Instr} {e : ErrorKind} (h : statusError e ∈ failureStatuses i)
    (s : State) : OwnEnd i s (s.raiseEncode e (encode i)) := ⟨rfl, .inr ⟨h, rfl⟩⟩

/-- Every word can be illegal (60_exceptions R411). -/
theorem configuration_mem_failureStatuses (i : Instr) : statusError .configuration ∈ failureStatuses i := by
  cases i <;> exact .head _

/-- Every encode can find its payload too long (30_encoding R113). -/
theorem capacity_mem_failureStatuses {i : Instr} (hi : isEncode i = true) :
    statusError .capacity ∈ failureStatuses i := by
  cases i with
  | rleEnc | hufEnc | golEnc | lzwEnc => exact .tail _ (.head _)
  | nop | bsClear | bsWrite | bsRead | bsFinish | bsLoad => cases hi

theorem checked_ownEnd {i : Instr} {s t : State} {run : Result} (h : checked i s run = .next t)
    (hrun : run = .next t → OwnEnd i s t) : OwnEnd i s t := by
  rcases checked_cases i s run with ⟨_, hc⟩ | ⟨_, hc⟩
  · exact hrun (hc.symm.trans h)
  · cases hc.symm.trans h
    exact .of_raise (configuration_mem_failureStatuses i) s

/-- An encode raises ConfigurationError for IN_LEN, the errors of its codec, and CapacityError. -/
theorem encodeWith_ownEnd {i : Instr} {s t : State} {payload : List Byte → Except ErrorKind (List Byte)}
    (hi : isEncode i = true) (herr : ∀ x e, payload x = .error e → e = .configuration)
    (h : encodeWith (encode i) payload s = .next t) : OwnEnd i s t := by
  rcases encodeWith_cases (encode i) payload s with
    ⟨_, hc⟩ | ⟨_, a, _, hc⟩ | ⟨_, x, e, _, he, hc⟩ | ⟨_, x, P, _, hP, hc⟩
  · cases hc.symm.trans h
    exact .of_raiseEncode (configuration_mem_failureStatuses i) s
  · cases hc.symm.trans h
  · cases hc.symm.trans h
    cases herr x e he
    exact .of_raiseEncode (configuration_mem_failureStatuses i) s
  · cases hc.symm.trans h
    rcases finishEncode_cases (encode i) P s with ⟨_, hf⟩ | ⟨_, hf⟩
    · rw [hf]
      exact .of_done rfl rfl rfl
    · rw [hf]
      exact .of_raiseEncode (capacity_mem_failureStatuses hi) s

theorem golombEncode_error {mode : Byte} {arg0 : Word} {x : List Byte} {e : ErrorKind}
    (h : golombEncode mode arg0 x = .error e) : e = .configuration := by
  rcases golombEncode_cases mode arg0 x with hx | ⟨b, hx⟩
  · cases hx.symm.trans h
    rfl
  · cases hx.symm.trans h

theorem exec_ownEnd {i : Instr} {s t : State} (h : exec i s = .next t) : OwnEnd i s t := by
  cases i with
  | nop | bsClear | bsFinish =>
    cases h
    exact .of_done rfl rfl rfl
  | bsWrite n =>
    rcases exec_bsWrite_cases n s with hc | hc | ⟨_, hc⟩ <;> cases hc.symm.trans h
    · exact .of_raise (.head _) s
    · exact .of_raise (.tail _ (.head _)) s
    · exact .of_done rfl rfl rfl
  | bsRead n =>
    rcases exec_bsRead_cases n s with hc | hc | ⟨_, hc⟩ <;> cases hc.symm.trans h
    · exact .of_raise (.head _) s
    · exact .of_raise (.tail _ (.head _)) s
    · exact .of_done rfl rfl rfl
  | bsLoad =>
    rcases exec_bsLoad_cases s with hc | hc | ⟨a, hc⟩ | ⟨bits, hc⟩ <;> cases hc.symm.trans h
    · exact .of_raise (.head _) s
    · exact .of_raise (.tail _ (.head _)) s
    · exact .of_done rfl rfl rfl
  | rleEnc =>
    exact encodeWith_ownEnd (payload := fun x => .ok (rlePayload x)) rfl (fun x e he => nomatch he) h
  | hufEnc =>
    exact encodeWith_ownEnd (payload := fun x => .ok (hufPayload x)) rfl (fun x e he => nomatch he) h
  | golEnc m => exact checked_ownEnd h (encodeWith_ownEnd rfl fun x e => golombEncode_error)
  | lzwEnc w => exact checked_ownEnd h (encodeWith_ownEnd rfl fun x e he => nomatch he)

/-- Settles O27: command by command, each end is DONE or an error in the command's list. -/
theorem commandsEndInDoneOrTheirOwnErrors : Obligations.CommandsEndInDoneOrTheirOwnErrors :=
  fun _ _ _ => exec_ownEnd

end Sys2Proof.Machine
end

section
/-! Reads return what was written (40_bitstream R166). A successful sequence of uses only ever appends to the
stream, so its reads see the stream it ends with, wherever they stand among the writes. -/

namespace Sys2Proof.Machine

theorem exec_bsWrite_done {n : Byte} {s t : State} (h : exec (.bsWrite n) s = .next t)
    (ht : t.status = statusDone) :
    s.bs.bits.length + n.toNat ≤ 8 * s.params.bsCap ∧ t = s.appended n := by
  rcases exec_bsWrite_cases n s with hc | hc | ⟨hfits, hc⟩ <;> cases hc.symm.trans h
  · exact absurd ht (statusError_ne_statusDone _)
  · exact absurd ht (statusError_ne_statusDone _)
  · exact ⟨hfits, rfl⟩

theorem exec_bsRead_done {n : Byte} {s t : State} (h : exec (.bsRead n) s = .next t)
    (ht : t.status = statusDone) :
    s.bs.rpos + n.toNat ≤ s.bs.bits.length ∧ t = s.consumed n := by
  rcases exec_bsRead_cases n s with hc | hc | ⟨havail, hc⟩ <;> cases hc.symm.trans h
  · exact absurd ht (statusError_ne_statusDone _)
  · exact absurd ht (statusError_ne_statusDone _)
  · exact ⟨havail, rfl⟩

/-! ## One use of a successful sequence -/

section
variable {n : Byte} {rest : List StreamUse} {s t : State} {results : List Word}

theorem runUses_write {v : Word} (h : runUses (.write n v :: rest) s = some (results, t)) :
    s.bs.bits.length + n.toNat ≤ 8 * s.params.bsCap ∧
      runUses rest (({ s with arg0 := v } : State).appended n) = some (results, t) := by
  rw [runUses] at h
  split at h
  · next u hu =>
    split at h
    · next hdone =>
      obtain ⟨hfits, rfl⟩ := exec_bsWrite_done hu hdone
      exact ⟨hfits, h⟩
    · cases h
  · cases h
  · cases h

theorem runUses_read (h : runUses (.read n :: rest) s = some (results, t)) :
    s.bs.rpos + n.toNat ≤ s.bs.bits.length ∧
      ∃ later, results = s.bs.nextValue n :: later ∧ runUses rest (s.consumed n) = some (later, t) := by
  rw [runUses] at h
  split at h
  · next u hu =>
    split at h
    · next hdone =>
      obtain ⟨havail, rfl⟩ := exec_bsRead_done hu hdone
      obtain ⟨⟨later, t'⟩, hrest, heq⟩ := Option.map_eq_some_iff.1 h
      cases heq
      exact ⟨havail, later, rfl, hrest⟩
    · cases h
  · cases h
  · cases h

end

/-! ## What a sequence writes and reads -/

/-- The bits that BS.WRITEs of the given counts and values append. -/
def bitsWritten (writes : List (Byte × Word)) : List Bool :=
  writes.flatMap fun p => msbBits p.2.toNat p.1.toNat

/-- What BS.READs of the given counts return, one after the other, of the bits that come next. -/
def valuesRead : List Byte → List Bool → List Word
  | [], _ => []
  | n :: counts, bits =>
    BitVec.ofNat 32 (bitsVal (bits.take n.toNat)) :: valuesRead counts (bits.drop n.toNat)

theorem bitsWritten_length (writes : List (Byte × Word)) :
    (bitsWritten writes).length = (writes.map fun p => p.1.toNat).sum := by
  simp [bitsWritten, List.length_flatMap]

theorem valuesRead_length (counts : List Byte) (bits : List Bool) :
    (valuesRead counts bits).length = counts.length := by
  induction counts generalizing bits with
  | nil => rfl
  | cons n counts ih => rw [valuesRead, List.length_cons, ih, List.length_cons]

/-- Reads with the counts of the first writes give the values of those writes, each cut to its count. -/
theorem valuesRead_bitsWritten {counts : List Byte} {writes : List (Byte × Word)}
    (h : counts <+: writes.map Prod.fst) :
    valuesRead counts (bitsWritten writes) =
      (writes.take counts.length).map fun p => BitVec.ofNat 32 (p.2.toNat % 2 ^ p.1.toNat) := by
  induction counts generalizing writes with
  | nil => rfl
  | cons n counts ih =>
    cases writes with
    | nil => simp at h
    | cons p writes =>
      obtain ⟨rfl, hrest⟩ := List.cons_prefix_cons.1 h
      have hbits : bitsWritten (p :: writes) = msbBits p.2.toNat p.1.toNat ++ bitsWritten writes :=
        List.flatMap_cons
      rw [valuesRead, hbits, List.take_left' (msbBits_length _ _), List.drop_left' (msbBits_length _ _),
        bitsVal_msbBits, ih hrest, List.length_cons, List.take_succ_cons, List.map_cons]

/-- A successful sequence appends what it writes, within the capacity. -/
theorem runUses_stream {uses : List StreamUse} {s t : State} {results : List Word}
    (h : runUses uses s = some (results, t)) (hs : s.bs.bits.length ≤ 8 * s.params.bsCap) :
    t.bs.bits = s.bs.bits ++ bitsWritten (writesOf uses) ∧
      t.bs.bits.length ≤ 8 * s.params.bsCap := by
  induction uses generalizing s results with
  | nil =>
    cases h
    exact ⟨(List.append_nil _).symm, hs⟩
  | cons use rest ih =>
    cases use with
    | write n v =>
      obtain ⟨hfits, hrest⟩ := runUses_write h
      obtain ⟨hbits, hcap⟩ := ih hrest (by simpa using hfits)
      exact ⟨by simpa [writesOf, bitsWritten] using hbits, hcap⟩
    | read n =>
      obtain ⟨_, later, _, hrest⟩ := runUses_read h
      exact ih (s := s.consumed n) hrest hs

/-- The reads of a successful sequence return what stands past its first read cursor in its last stream. -/
theorem runUses_results {uses : List StreamUse} {s t : State} {results : List Word}
    (h : runUses uses s = some (results, t)) (hs : s.bs.bits.length ≤ 8 * s.params.bsCap) :
    results = valuesRead (readsOf uses) (t.bs.bits.drop s.bs.rpos) := by
  induction uses generalizing s results with
  | nil =>
    cases h
    rfl
  | cons use rest ih =>
    cases use with
    | write n v =>
      obtain ⟨hfits, hrest⟩ := runUses_write h
      exact ih (s := ({ s with arg0 := v } : State).appended n) hrest (by simpa using hfits)
    | read n =>
      obtain ⟨havail, later, rfl, hrest⟩ := runUses_read h
      obtain ⟨hbits, _⟩ := runUses_stream h hs
      have hvalue : (t.bs.bits.drop s.bs.rpos).take n.toNat = (s.bs.bits.drop s.bs.rpos).take n.toNat := by
        rw [hbits, List.drop_append_of_le_length (by omega),
          List.take_append_of_le_length (by rw [List.length_drop]; omega)]
      rw [readsOf, valuesRead, hvalue, List.drop_drop, ih (s := s.consumed n) hrest hs]
      rfl

/-- Settles O36: after BS.CLEAR the last stream is what was written, and both cursors began at 0. -/
theorem readsReturnWhatWasWritten : Obligations.ReadsReturnWhatWasWritten := by
  intro s c t uses results hwf hclear huses hcounts
  cases hclear
  obtain ⟨hbits, hcap⟩ := runUses_stream huses (Nat.zero_le _)
  have hresults := runUses_results huses (Nat.zero_le _)
  rw [List.nil_append] at hbits
  rw [hbits, List.drop_zero] at hresults
  have hlength : results.length = (readsOf uses).length := by rw [hresults, valuesRead_length]
  have hfinish : (BitVec.ofNat 32 t.bs.bits.length).toNat =
      ((writesOf uses).map fun p => p.1.toNat).sum := by
    obtain ⟨_, _, _, hbsCap⟩ := hwf
    simp only [State.complete_params] at hcap
    rw [BitVec.toNat_ofNat, Nat.mod_eq_of_lt (by omega), hbits, bitsWritten_length]
  exact ⟨by rw [hlength, hresults, valuesRead_bitsWritten hcounts], hlength, _, rfl, hfinish⟩

end Sys2Proof.Machine
end

section
/-! A stored payload: the success of an encode whose payload fits OUT, and what the container check of a
decoder finds in a container (30_encoding R110, R113; 48_reference_decoders R362). -/

namespace Sys2Proof.Machine

/-- An encode whose payload fits OUT_CAP ends in DONE with OUT the payload and OUT_LEN its length. -/
theorem encodeWith_stores {s : State} {x P : List Byte}
    {payload : List Byte → Except ErrorKind (List Byte)} (w : Word) (hl : s.inLen.toNat = x.length)
    (hc : x.length ≤ s.params.inCap) (hx : ∀ a, a < x.length → s.input.read a = x[a]?)
    (hP : payload x = .ok P) (hfit : P.length ≤ s.params.outCap) :
    ∃ m : Memory,
      encodeWith w payload s = .next { s with
        engine := .idle, status := 0x00000002, outLen := BitVec.ofNat 32 P.length, output := m } ∧
      ∀ a, m.read a = P[a]? := by
  refine ⟨Memory.ofBytes 0 P, ?_, fun a => ?_⟩
  · rw [encodeWith_of_payload w hl hc hx hP, finishEncode_of_fits w hfit]
    rfl
  · rw [Memory.read_ofBytes, if_pos (Nat.zero_le a), Nat.sub_zero]

/-- A number below 2^32 is the value of its four bytes. -/
theorem unbe_beBytes_four {v : Nat} (hv : v < 2 ^ 32) : unbe (beBytes v 4) = v := by
  rw [unbe_beBytes]
  exact Nat.mod_eq_of_lt hv

/-- PARSE finds the input's length, the metadata and the body in a container (48 R362). -/
theorem parsePayload_container (c : Codec) {n : Nat} {metadata : List Byte} (body : List Byte)
    (hn : n < 2 ^ 32) (hm : metadata.length < 2 ^ 32) :
    parsePayload (container c n metadata body) c.algorithmId = .ok (n, metadata, body) := by
  have hhead : (container c n metadata body).getD 0 0 = c.algorithmId := rfl
  have hlength : unbe (((container c n metadata body).drop 1).take 4) = n := by
    have htake : ((container c n metadata body).drop 1).take 4 = beBytes n 4 := rfl
    rw [htake, unbe_beBytes_four hn]
  have hmetadata : unbe (((container c n metadata body).drop 5).take 4) = metadata.length := by
    have htake : ((container c n metadata body).drop 5).take 4 = beBytes metadata.length 4 := rfl
    rw [htake, unbe_beBytes_four hm]
  have hrest : (container c n metadata body).drop 9 = metadata ++ body := rfl
  have hsize := container_length c n metadata body
  rw [parsePayload, if_neg (by omega), if_neg (not_not_intro hhead), hlength, hmetadata,
    if_neg (by omega), ← List.drop_drop, hrest, List.take_left, List.drop_left]

end Sys2Proof.Machine
end

section
/-! Runs and chunks (42_rle R201, R202): the input splits into maximal runs in one way, and each run into
chunks of 1 to 255 bytes. -/

namespace Sys2Proof.Machine

/-- The bytes that runs or chunks stand for, each its value as often as its length says (42_rle R206). -/
def expandRuns (L : List (Byte × Nat)) : List Byte := L.flatMap fun p => List.replicate p.2 p.1

@[simp] theorem expandRuns_nil : expandRuns [] = [] := rfl

@[simp] theorem expandRuns_cons (p : Byte × Nat) (L : List (Byte × Nat)) :
    expandRuns (p :: L) = List.replicate p.2 p.1 ++ expandRuns L := rfl

@[simp] theorem expandRuns_append (L M : List (Byte × Nat)) :
    expandRuns (L ++ M) = expandRuns L ++ expandRuns M := List.flatMap_append

/-! ## Runs -/

/-- A split into maximal runs: no run is empty, and neighbours differ in value (42_rle R201). -/
def MaximalRuns (L : List (Byte × Nat)) : Prop :=
  (∀ p ∈ L, 1 ≤ p.2) ∧ L.IsChain fun p q => p.1 ≠ q.1

theorem maximalRuns_nil : MaximalRuns [] := ⟨by simp, .nil⟩

theorem maximalRuns_cons {p : Byte × Nat} {L : List (Byte × Nat)} :
    MaximalRuns (p :: L) ↔ 1 ≤ p.2 ∧ (∀ q ∈ L.head?, p.1 ≠ q.1) ∧ MaximalRuns L := by
  simp only [MaximalRuns, List.forall_mem_cons, List.isChain_cons]
  tauto

/-- A byte in front of an input either lengthens its first run or starts a run of its own. -/
theorem runs_cons_cases (v : Byte) (x : List Byte) :
    (∃ r L, runs x = (v, r) :: L ∧ runs (v :: x) = (v, r + 1) :: L) ∨
      ((∀ q ∈ (runs x).head?, v ≠ q.1) ∧ runs (v :: x) = (v, 1) :: runs x) := by
  rw [runs]
  cases hx : runs x with
  | nil => exact .inr ⟨by simp, rfl⟩
  | cons p L =>
    obtain ⟨u, r⟩ := p
    by_cases hv : v = u
    · subst hv
      exact .inl ⟨r, L, rfl, if_pos rfl⟩
    · exact .inr ⟨by simpa using hv, if_neg hv⟩

theorem expandRuns_runs (x : List Byte) : expandRuns (runs x) = x := by
  induction x with
  | nil => rfl
  | cons v x ih =>
    rcases runs_cons_cases v x with ⟨r, L, hx, hvx⟩ | ⟨_, hvx⟩
    · rw [hx, expandRuns_cons] at ih
      rw [hvx, expandRuns_cons, List.replicate_succ, List.cons_append, ih]
    · rw [hvx, expandRuns_cons, ih]
      rfl

theorem maximalRuns_runs (x : List Byte) : MaximalRuns (runs x) := by
  induction x with
  | nil => exact maximalRuns_nil
  | cons v x ih =>
    rcases runs_cons_cases v x with ⟨r, L, hx, hvx⟩ | ⟨hne, hvx⟩
    · rw [hx, maximalRuns_cons] at ih
      obtain ⟨_, hne, hL⟩ := ih
      rw [hvx]
      exact maximalRuns_cons.2 ⟨Nat.le_add_left .., hne, hL⟩
    · rw [hvx]
      exact maximalRuns_cons.2 ⟨le_rfl, hne, ih⟩

/-- Copies of a byte in front of an input that does not begin with it are a run of their own. -/
theorem runs_replicate_append {v : Byte} {x : List Byte} (hne : ∀ q ∈ (runs x).head?, v ≠ q.1)
    (r : Nat) : runs (List.replicate (r + 1) v ++ x) = (v, r + 1) :: runs x := by
  induction r with
  | zero =>
    rcases runs_cons_cases v x with ⟨r, L, hx, _⟩ | ⟨_, hvx⟩
    · exact absurd rfl (hne (v, r) (by simp [hx]))
    · exact hvx
  | succ r ih =>
    rw [List.replicate_succ, List.cons_append]
    rcases runs_cons_cases v (List.replicate (r + 1) v ++ x) with ⟨r', L, hx, hvx⟩ | ⟨hne', _⟩
    · cases ih.symm.trans hx
      exact hvx
    · exact absurd rfl (hne' (v, r + 1) (by simp [ih]))

/-- Maximal runs are the runs of the input they stand for. -/
theorem runs_expandRuns {L : List (Byte × Nat)} (h : MaximalRuns L) : runs (expandRuns L) = L := by
  induction L with
  | nil => rfl
  | cons p L ih =>
    obtain ⟨hpos, hne, hL⟩ := maximalRuns_cons.1 h
    obtain ⟨v, r⟩ := p
    obtain ⟨r, rfl⟩ := Nat.exists_eq_add_of_le' hpos
    have hruns : runs (expandRuns L) = L := ih hL
    rw [expandRuns_cons, runs_replicate_append (by rwa [hruns]), hruns]

/-- Settles O48: `runs` gives a maximal split, and gives any maximal split back from its expansion. -/
theorem runsAreTheOneMaximalSplit : Obligations.RunsAreTheOneMaximalSplit := by
  intro x L
  constructor
  · rintro ⟨rfl, hL⟩
    exact (runs_expandRuns hL).symm
  · rintro rfl
    exact ⟨expandRuns_runs x, maximalRuns_runs x⟩

/-! ## The chunks of a run -/

theorem fst_of_mem_runChunks {p c : Byte × Nat} (h : c ∈ runChunks p) : c.1 = p.1 := by
  rcases List.mem_append.1 h with hc | hc
  · rw [List.eq_of_mem_replicate hc]
  · rw [List.mem_singleton.1 hc]

theorem runChunks_ne_nil (p : Byte × Nat) : runChunks p ≠ [] :=
  List.append_ne_nil_of_right_ne_nil _ (List.cons_ne_nil _ _)

/-- Every chunk of a run but the last has length 255 (42_rle R202). -/
theorem isChain_runChunks (p : Byte × Nat) :
    (runChunks p).IsChain fun c d => c.1 = d.1 → c.2 = 255 := by
  refine List.Pairwise.isChain (List.pairwise_append.2 ⟨?_, List.pairwise_singleton _ _, ?_⟩)
  · exact List.pairwise_replicate.2 (.inr fun _ => rfl)
  · intro c hc d _ _
    rw [List.eq_of_mem_replicate hc]

section
variable {p : Byte × Nat} (hp : 1 ≤ p.2)
include hp

theorem snd_of_mem_runChunks {c : Byte × Nat} (h : c ∈ runChunks p) : 1 ≤ c.2 ∧ c.2 ≤ 255 := by
  rcases List.mem_append.1 h with hc | hc
  · rw [List.eq_of_mem_replicate hc]
    simp
  · rw [List.mem_singleton.1 hc]
    dsimp only
    omega

/-- A run of length r gives ceil(r / 255) chunks (42_rle R202). -/
theorem runChunks_length : (runChunks p).length = (p.2 + 254) / 255 := by
  rw [runChunks, List.length_append, List.length_replicate, List.length_singleton]
  omega

theorem expandRuns_runChunks : expandRuns (runChunks p) = List.replicate p.2 p.1 := by
  have hfull (q : Nat) :
      expandRuns (List.replicate q (p.1, 255)) = List.replicate (255 * q) p.1 := by
    induction q with
    | zero => rfl
    | succ q ih =>
      rw [List.replicate_succ, expandRuns_cons, ih, List.replicate_append_replicate]
      congr 1
      omega
  rw [runChunks, expandRuns_append, hfull, expandRuns_cons, expandRuns_nil, List.append_nil,
    List.replicate_append_replicate]
  congr 1
  omega

end

/-! ## The chunks of an input -/

theorem rleChunks_length_eq_sum (x : List Byte) :
    (rleChunks x).length = ((runs x).map fun p => (p.2 + 254) / 255).sum := by
  rw [rleChunks, List.length_flatMap]
  congr 1
  exact List.map_congr_left fun p hp => runChunks_length ((maximalRuns_runs x).1 p hp)

theorem snd_of_mem_rleChunks {x : List Byte} {c : Byte × Nat} (h : c ∈ rleChunks x) :
    1 ≤ c.2 ∧ c.2 ≤ 255 := by
  obtain ⟨p, hp, hc⟩ := List.mem_flatMap.1 h
  exact snd_of_mem_runChunks ((maximalRuns_runs x).1 p hp) hc

theorem expandRuns_rleChunks (x : List Byte) : expandRuns (rleChunks x) = x := by
  calc expandRuns (rleChunks x)
      = (runs x).flatMap fun p => expandRuns (runChunks p) := List.flatMap_assoc
    _ = expandRuns (runs x) :=
      List.flatMap_congr fun p hp => expandRuns_runChunks ((maximalRuns_runs x).1 p hp)
    _ = x := expandRuns_runs x

/-- Chunks of neighbouring runs differ in value, and within a run only the last may be short. -/
theorem isChain_rleChunks (x : List Byte) :
    (rleChunks x).IsChain fun c d => c.1 = d.1 → c.2 = 255 := by
  have hnonempty : [] ∉ (runs x).map runChunks := by simp [runChunks_ne_nil]
  rw [rleChunks, List.flatMap_def, List.isChain_flatten hnonempty, List.isChain_map]
  refine ⟨List.forall_mem_map.2 fun p _ => isChain_runChunks p, (maximalRuns_runs x).2.imp ?_⟩
  intro p q hne c hc d hd heq
  rw [fst_of_mem_runChunks (List.mem_of_mem_getLast? hc),
    fst_of_mem_runChunks (List.mem_of_mem_head? hd)] at heq
  exact absurd heq hne

/-- Chunks of 1 to 255 bytes are at most as many as their bytes, and at least a 255th as many. -/
theorem length_expandRuns_bounds {L : List (Byte × Nat)} (h : ∀ c ∈ L, 1 ≤ c.2 ∧ c.2 ≤ 255) :
    L.length ≤ (expandRuns L).length ∧ (expandRuns L).length ≤ 255 * L.length := by
  induction L with
  | nil => exact ⟨le_rfl, le_rfl⟩
  | cons c L ih =>
    obtain ⟨hc, hL⟩ := List.forall_mem_cons.1 h
    have := ih hL
    rw [expandRuns_cons, List.length_append, List.length_replicate, List.length_cons]
    omega

theorem rleChunks_length_bounds (x : List Byte) :
    (rleChunks x).length ≤ x.length ∧ x.length ≤ 255 * (rleChunks x).length := by
  simpa only [expandRuns_rleChunks] using
    length_expandRuns_bounds fun c (hc : c ∈ rleChunks x) => snd_of_mem_rleChunks hc

end Sys2Proof.Machine
end

section
/-! The RLE payload (42_rle R203 to R206) and its decoder (48_reference_decoders R364). -/

namespace Sys2Proof.Machine

theorem flatMap_chunkBytes_length (L : List (Byte × Nat)) :
    (L.flatMap chunkBytes).length = 2 * L.length := by
  simp [List.length_flatMap, chunkBytes, Nat.mul_comm]

/-- The header takes 9 bytes and each chunk two (42_rle R205). -/
theorem rlePayload_length (x : List Byte) : (rlePayload x).length = 9 + 2 * (rleChunks x).length := by
  rw [rlePayload, container_length, flatMap_chunkBytes_length, List.length_nil]

theorem rlePayload_length_le (x : List Byte) : (rlePayload x).length ≤ 9 + 2 * x.length := by
  have := (rleChunks_length_bounds x).1
  rw [rlePayload_length]
  omega

/-- Settles O49: the chunks of each run and the bounds of their number give the form and the length. -/
theorem rleBodyFormAndPayloadLength : Obligations.RleBodyFormAndPayloadLength := by
  intro x
  refine ⟨rfl, fun c => snd_of_mem_rleChunks, isChain_rleChunks x, expandRuns_rleChunks x, ?_,
    fun _ => ⟨?_, rlePayload_length_le x⟩⟩
  · rw [rlePayload_length, rleChunks_length_eq_sum]
  · have := (rleChunks_length_bounds x).2
    rw [rlePayload_length]
    omega

/-- The decoder's loop takes a pair with a length that is not 0 as long as the output has room for it. -/
theorem rleExpand_chunk {c : Byte × Nat} (hc : 1 ≤ c.2 ∧ c.2 ≤ 255) {n : Nat} {y : List Byte}
    (hroom : (y ++ List.replicate c.2 c.1).length ≤ n) (rest : List Byte) :
    rleExpand n (chunkBytes c ++ rest) y = rleExpand n rest (y ++ List.replicate c.2 c.1) := by
  have hlen : (BitVec.ofNat 8 c.2).toNat = c.2 := by
    rw [BitVec.toNat_ofNat, Nat.mod_eq_of_lt (by omega)]
  have hne : BitVec.ofNat 8 c.2 ≠ 0 := fun h => by
    have : c.2 = 0 := hlen.symm.trans (congrArg BitVec.toNat h)
    omega
  rw [chunkBytes, List.cons_append, List.cons_append, List.nil_append, rleExpand, if_neg hne, hlen,
    if_neg (by omega)]

/-- The decoder's loop expands chunks that make up exactly what the output still lacks (48 R364). -/
theorem rleExpand_chunks {L : List (Byte × Nat)} (hL : ∀ c ∈ L, 1 ≤ c.2 ∧ c.2 ≤ 255) (y : List Byte) :
    rleExpand (y ++ expandRuns L).length (L.flatMap chunkBytes) y = .ok (y ++ expandRuns L) := by
  induction L generalizing y with
  | nil =>
    rw [expandRuns_nil, List.append_nil, List.flatMap_nil, rleExpand, if_neg (not_not_intro rfl)]
  | cons c L ih =>
    obtain ⟨hc, hL⟩ := List.forall_mem_cons.1 hL
    rw [expandRuns_cons, ← List.append_assoc, List.flatMap_cons, rleExpand_chunk hc, ih hL]
    simp

theorem decRle_rlePayload {x : List Byte} (hx : x.length < 2 ^ 32) : decRle (rlePayload x) = .ok x := by
  have hparse := parsePayload_container .rle (metadata := []) ((rleChunks x).flatMap chunkBytes) hx
    (by decide)
  have hbody := rleExpand_chunks (fun c (hc : c ∈ rleChunks x) => snd_of_mem_rleChunks hc) []
  rw [List.nil_append, expandRuns_rleChunks] at hbody
  have heven : ¬ ((rleChunks x).flatMap chunkBytes).length % 2 = 1 := by
    rw [flatMap_chunkBytes_length]
    omega
  rw [decRle, rlePayload, hparse]
  exact (if_neg heven).trans hbody

/-- Settles O37: the payload fits, is stored, and its chunks expand to the input; IN_LEN is a word, so the
header holds n in full. -/
theorem rleEncodeWritesADecodablePayload : Obligations.RleEncodeWritesADecodablePayload := by
  intro s x hl hc hx
  have hn : x.length < 2 ^ 32 := hl ▸ s.inLen.isLt
  refine ⟨rlePayload_length_le x, fun hfit => ?_⟩
  obtain ⟨m, hexec, hm⟩ := encodeWith_stores (encode .rleEnc) hl hc hx
    (payload := fun x => .ok (rlePayload x)) rfl hfit
  exact ⟨m, hexec, hm, rfl, decRle_rlePayload hn⟩

end Sys2Proof.Machine
end

section
/-! The empty payloads (42_rle R204, 43_huffman R238, 44_golomb R280 and R285, 45_lzw R324). -/

namespace Sys2Proof.Machine

/-- An encode with IN_LEN = 0 reads no byte of IN, and stores its codec's payload of the empty input. -/
theorem encodeWith_stores_of_empty {s : State} {P : List Byte}
    {payload : List Byte → Except ErrorKind (List Byte)} (w : Word) (hs : s.inLen = 0x00000000)
    (hP : payload [] = .ok P) (hfit : P.length ≤ s.params.outCap) :
    ∃ m : Memory,
      encodeWith w payload s = .next { s with
        engine := .idle, status := 0x00000002, outLen := BitVec.ofNat 32 P.length, output := m } ∧
      ∀ a, m.read a = P[a]? :=
  encodeWith_stores w (x := []) (by rw [hs]; rfl) (Nat.zero_le _)
    (fun a ha => absurd ha (Nat.not_lt_zero a)) hP hfit

/-- The four bytes of a word, most significant first. -/
theorem beBytes_word (v : Word) :
    beBytes v.toNat 4 =
      [v.extractLsb' 24 8, v.extractLsb' 16 8, v.extractLsb' 8 8, v.extractLsb' 0 8] := by
  refine List.ext_getElem? fun j => ?_
  by_cases hj : j < 4
  · rw [beBytes_word_getElem? v hj]
    interval_cases j <;> rfl
  · rw [List.getElem?_eq_none (by simpa using hj), List.getElem?_eq_none (by simpa using hj)]

/-- No byte value is present in the empty input (43_huffman R238). -/
theorem symbols_nil : symbols [] = [] :=
  List.filter_eq_nil_iff.2 fun s _ => by simp [frequency]

theorem codeTable_nil : codeTable [] = [] := by rw [codeTable, symbols_nil]

/-- The payload of no input and no coded bits: both counts are zero (30_encoding R110, R112). -/
theorem packedContainer_empty (c : Codec) {rest : List Byte} {k : Nat} (hk : rest.length = k) :
    packedContainer c 0 rest [] = c.algorithmId :: [0x00, 0x00, 0x00, 0x00] ++
      beBytes (4 + k) 4 ++ [0x00, 0x00, 0x00, 0x00] ++ rest := by
  rw [packedContainer, container, List.length_append, beBytes_length, hk, ← List.append_assoc]
  exact List.append_nil _

theorem hufPayload_nil :
    hufPayload [] = [0x02, 0x00, 0x00, 0x00, 0x00, 0x00, 0x00, 0x00, 0x06, 0x00, 0x00, 0x00, 0x00,
      0x00, 0x00] := by
  rw [hufPayload, codeTable_nil]
  rfl

theorem golombPayload_nil (b : Nat) :
    golombPayload b [] = [0x03, 0x00, 0x00, 0x00, 0x00, 0x00, 0x00, 0x00, 0x08, 0x00, 0x00, 0x00,
      0x00] ++ beBytes b 4 :=
  packedContainer_empty .golomb (beBytes_length b 4)

/-- With no sequence held at its end, the scan of no bytes emits no code (45_lzw R324). -/
theorem lzwBody_nil (W : Nat) : lzwBody W [] = [] := rfl

theorem lzwPayload_nil (W : Byte) :
    lzwPayload W.toNat [] = [0x04, 0x00, 0x00, 0x00, 0x00, 0x00, 0x00, 0x00, 0x06, 0x00, 0x00, 0x00,
      0x00, W, 0x00] := by
  rw [lzwPayload, lzwBody_nil, BitVec.ofNat_toNat, BitVec.setWidth_eq]
  exact packedContainer_empty .lzw (rest := [W, 0x00]) (k := 2) rfl

/-- Settles O46: each encode comes to its codec's payload of the empty input. -/
theorem emptyInputEncodesToTheEmptyPayload : Obligations.EmptyInputEncodesToTheEmptyPayload := by
  rintro s i P hs hfit
    (⟨rfl, rfl⟩ | ⟨rfl, rfl⟩ | ⟨rfl, harg, rfl⟩ | ⟨rfl, rfl⟩ | ⟨W, hlo, hhi, rfl, rfl⟩)
  · exact encodeWith_stores_of_empty (encode .rleEnc) hs
      (payload := fun x => .ok (rlePayload x)) rfl hfit
  · exact encodeWith_stores_of_empty (encode .hufEnc) hs
      (payload := fun x => .ok (hufPayload x)) (congrArg _ hufPayload_nil) hfit
  · have hb : s.arg0.toNat ≠ 0 := fun h => harg (BitVec.eq_of_toNat_eq h)
    have hP := golombEncode_supplied hb []
    rw [golombPayload_nil, beBytes_word] at hP
    exact encodeWith_stores_of_empty (encode (.golEnc 0)) hs hP hfit
  · have hP := golombEncode_estimated (mode := 1) (by decide) s.arg0 []
    exact encodeWith_stores_of_empty (encode (.golEnc 1)) hs hP hfit
  · have hwf : (Instr.lzwEnc W).wellFormed := if_pos ⟨hlo, hhi⟩
    rw [exec, execLzwEnc, checked_of_wellFormed hwf]
    exact encodeWith_stores_of_empty (encode (.lzwEnc W)) hs (congrArg _ (lzwPayload_nil W)) hfit

end Sys2Proof.Machine
end

section
/-! The priority queue of the Huffman construction: which node is removed first, and what the combining steps
keep (43_huffman R233 to R235). -/

namespace Sys2Proof.Machine

namespace HuffNode

theorem before_iff {a b : HuffNode} :
    a.before b = true ↔ a.freq < b.freq ∨ a.freq = b.freq ∧ a.num < b.num := by
  simp [before]

theorem freq_le_of_before {a b : HuffNode} (h : a.before b = true) : a.freq ≤ b.freq := by
  rw [before_iff] at h
  omega

/-- Insertion numbers decide between equal frequencies, so the order is total (43_huffman R233). -/
theorem before_of_not_before {a b : HuffNode} (hnum : a.num ≠ b.num) (h : ¬ b.before a = true) :
    a.before b = true := by
  rw [before_iff] at h ⊢
  omega

theorem not_before_of_before {a b : HuffNode} (h : a.before b = true) : ¬ b.before a = true := by
  rw [before_iff] at h ⊢
  omega

theorem before_trans {a b c : HuffNode} (hab : a.before b = true) (hbc : b.before c = true) :
    a.before c = true := by
  rw [before_iff] at hab hbc ⊢
  omega

/-- The parent that the combining step numbered t makes of the two nodes removed (43_huffman R234). -/
def parent (t : Nat) (a b : HuffNode) : HuffNode :=
  { freq := a.freq + b.freq, num := t, tree := .node a.tree b.tree }

@[simp] theorem parent_freq (t : Nat) (a b : HuffNode) : (parent t a b).freq = a.freq + b.freq := rfl
@[simp] theorem parent_num (t : Nat) (a b : HuffNode) : (parent t a b).num = t := rfl
@[simp] theorem parent_tree (t : Nat) (a b : HuffNode) :
    (parent t a b).tree = .node a.tree b.tree := rfl

end HuffNode

/-- A queue that is not empty splits into the node removed and the nodes left, none of which comes before the
node removed. -/
theorem exists_popMin {q : List HuffNode} (hq : q ≠ []) :
    ∃ m rest, popMin q = some (m, rest) ∧ q.Perm (m :: rest) ∧ ∀ n ∈ rest, ¬ n.before m = true := by
  induction q with
  | nil => exact absurd rfl hq
  | cons a q ih =>
    by_cases hempty : q = []
    · subst hempty
      exact ⟨a, [], rfl, .refl _, by simp⟩
    · obtain ⟨m, rest, hpop, hperm, hmin⟩ := ih hempty
      by_cases ha : a.before m = true
      · refine ⟨a, q, by simp [popMin, hpop, ha], .refl _, fun n hn hna => ?_⟩
        rcases List.mem_cons.1 (hperm.mem_iff.1 hn) with rfl | hrest
        · exact HuffNode.not_before_of_before ha hna
        · exact hmin n hrest (HuffNode.before_trans hna ha)
      · exact ⟨m, a :: rest, by simp [popMin, hpop, ha],
          (hperm.cons a).trans (.swap m a rest), List.forall_mem_cons.2 ⟨ha, hmin⟩⟩

/-- One combining step on a queue of two or more nodes: it makes the parent of the two that come first. -/
theorem exists_combine_step {q : List HuffNode} (hq : 2 ≤ q.length) (steps t : Nat) :
    ∃ a b rest, combine (steps + 1) t q = combine steps (t + 1) (HuffNode.parent t a b :: rest) ∧
      q.Perm (a :: b :: rest) ∧ (∀ n ∈ b :: rest, ¬ n.before a = true) ∧
      ∀ n ∈ rest, ¬ n.before b = true := by
  obtain ⟨a, q₁, hpop₁, hperm₁, hmin₁⟩ :=
    exists_popMin (List.ne_nil_of_length_pos (by omega : 0 < q.length))
  have hlen : q.length = q₁.length + 1 := hperm₁.length_eq
  obtain ⟨b, rest, hpop₂, hperm₂, hmin₂⟩ :=
    exists_popMin (List.ne_nil_of_length_pos (by omega : 0 < q₁.length))
  exact ⟨a, b, rest, by simp only [combine, hpop₁, hpop₂, HuffNode.parent],
    hperm₁.trans (hperm₂.cons a), fun n hn => hmin₁ n (hperm₂.mem_iff.2 hn), hmin₂⟩

/-- What every combining step keeps holds of the one node that k steps leave of k + 1 (43_huffman R235). -/
theorem exists_root_of_combine {P : Nat → List HuffNode → Prop}
    (hstep : ∀ t q a b rest, P t q → q.Perm (a :: b :: rest) → (∀ n ∈ b :: rest, ¬ n.before a = true) →
      (∀ n ∈ rest, ¬ n.before b = true) → P (t + 1) (HuffNode.parent t a b :: rest))
    {k t : Nat} {q : List HuffNode} (hP : P t q) (hlen : q.length = k + 1) :
    ∃ root, combine k t q = [root] ∧ P (t + k) [root] := by
  induction k generalizing t q with
  | zero =>
    obtain ⟨root, rfl⟩ := List.length_eq_one_iff.1 hlen
    exact ⟨root, rfl, hP⟩
  | succ k ih =>
    obtain ⟨a, b, rest, heq, hperm, ha, hb⟩ := exists_combine_step (by omega : 2 ≤ q.length) k t
    have hlen' : q.length = rest.length + 2 := hperm.length_eq
    obtain ⟨root, hroot, hProot⟩ :=
      ih (hstep t q a b rest hP hperm ha hb) (by rw [List.length_cons]; omega)
    exact ⟨root, heq.trans hroot, by rwa [Nat.add_right_comm] at hProot⟩

end Sys2Proof.Machine
end

section
/-! Huffman trees: the codes on the paths of a tree (43_huffman R239, R242, R243). -/

namespace Sys2Proof.Machine

namespace HuffTree

/-- The byte values at the leaves, from left to right. -/
def symbols (t : HuffTree) : List Byte := t.paths.map Prod.fst

@[simp] theorem symbols_leaf (s : Byte) : (leaf s).symbols = [s] := rfl

@[simp] theorem symbols_node (l r : HuffTree) : (node l r).symbols = l.symbols ++ r.symbols := by
  simp [symbols, paths, Function.comp_def]

/-- A path of a node begins with the bit of the child it leads to. -/
theorem mem_paths_node {l r : HuffTree} {p : Byte × List Bool} :
    p ∈ (node l r).paths ↔
      (∃ c, (p.1, c) ∈ l.paths ∧ p.2 = false :: c) ∨ ∃ c, (p.1, c) ∈ r.paths ∧ p.2 = true :: c := by
  obtain ⟨s, c⟩ := p
  simp [paths, eq_comm]

/-- A leaf's code begins with no other leaf's code (43_huffman R242). -/
theorem eq_of_prefix {t : HuffTree} {p q : Byte × List Bool} (hp : p ∈ t.paths) (hq : q ∈ t.paths)
    (h : p.2 <+: q.2) : p = q := by
  induction t generalizing p q with
  | leaf s =>
    rw [List.mem_singleton.1 hp, List.mem_singleton.1 hq]
  | node l r ihl ihr =>
    obtain ⟨s, c⟩ := p
    obtain ⟨s', c'⟩ := q
    rcases mem_paths_node.1 hp with ⟨d, hd, rfl⟩ | ⟨d, hd, rfl⟩ <;>
      rcases mem_paths_node.1 hq with ⟨d', hd', rfl⟩ | ⟨d', hd', rfl⟩ <;>
      rw [List.cons_prefix_cons] at h
    · cases ihl hd hd' h.2; rfl
    · exact absurd h.1 (by decide)
    · exact absurd h.1 (by decide)
    · cases ihr hd hd' h.2; rfl

theorem paths_length_pos (t : HuffTree) : 0 < t.paths.length := by
  induction t with
  | leaf s => exact Nat.one_pos
  | node l r ihl ihr =>
    rw [paths, List.length_append, List.length_map]
    exact Nat.add_pos_left ihl _

/-- A tree with k leaves has no path of k steps (43_huffman R239). -/
theorem length_lt_of_mem_paths {t : HuffTree} {p : Byte × List Bool} (hp : p ∈ t.paths) :
    p.2.length < t.paths.length := by
  induction t generalizing p with
  | leaf s =>
    rw [List.mem_singleton.1 hp]
    exact Nat.one_pos
  | node l r ihl ihr =>
    have hl := paths_length_pos l
    have hr := paths_length_pos r
    rw [paths, List.length_append, List.length_map, List.length_map]
    rcases mem_paths_node.1 hp with ⟨c, hc, hpc⟩ | ⟨c, hc, hpc⟩ <;> rw [hpc, List.length_cons]
    · exact Nat.lt_of_lt_of_le (Nat.succ_lt_succ (ihl hc)) (Nat.add_le_add_left hr _)
    · exact Nat.lt_of_lt_of_le (Nat.succ_lt_succ (ihr hc)) (by omega)

theorem one_le_length_of_mem_paths_node {l r : HuffTree} {p : Byte × List Bool}
    (hp : p ∈ (node l r).paths) : 1 ≤ p.2.length := by
  rcases mem_paths_node.1 hp with ⟨c, _, hpc⟩ | ⟨c, _, hpc⟩ <;> rw [hpc] <;> exact Nat.le_add_left ..

/-- The paths of a tree are complete: each child has half of the sum (43_huffman R242). -/
theorem sum_paths (t : HuffTree) {N : Nat} (hN : ∀ p ∈ t.paths, p.2.length ≤ N) :
    (t.paths.map fun p => 2 ^ (N - p.2.length)).sum = 2 ^ N := by
  induction t generalizing N with
  | leaf s => simp [paths]
  | node l r ihl ihr =>
    obtain ⟨p, hp⟩ := List.exists_mem_of_length_pos (paths_length_pos (node l r))
    obtain ⟨N, rfl⟩ := Nat.exists_eq_add_of_le' ((one_le_length_of_mem_paths_node hp).trans (hN p hp))
    have hl : ∀ p ∈ l.paths, p.2.length ≤ N := fun p hp =>
      Nat.le_of_succ_le_succ (hN (p.1, false :: p.2) (mem_paths_node.2 (.inl ⟨p.2, hp, rfl⟩)))
    have hr : ∀ p ∈ r.paths, p.2.length ≤ N := fun p hp =>
      Nat.le_of_succ_le_succ (hN (p.1, true :: p.2) (mem_paths_node.2 (.inr ⟨p.2, hp, rfl⟩)))
    simp only [paths, List.map_append, List.map_map, List.sum_append, Function.comp_def,
      List.length_cons, Nat.add_sub_add_right, ihl hl, ihr hr]
    omega

end HuffTree

end Sys2Proof.Machine
end

section
/-! Weights by depth: in the trees of the queue a deeper subtree never weighs more (43_huffman R234, R244).
The combining step keeps this because it also keeps that, of two trees in the queue, the one that comes first
weighs no more at any depth. -/

namespace Sys2Proof.Machine

namespace HuffTree

/-- The frequency of a tree: the sum over its leaves (43_huffman R234). -/
def weight (f : Byte → Nat) : HuffTree → Nat
  | leaf s => f s
  | node l r => l.weight f + r.weight f

/-- The subtrees d steps below the root. -/
def subtreesAt : HuffTree → Nat → List HuffTree
  | t, 0 => [t]
  | leaf _, _ + 1 => []
  | node l r, d + 1 => l.subtreesAt d ++ r.subtreesAt d

@[simp] theorem weight_leaf (f : Byte → Nat) (s : Byte) : (leaf s).weight f = f s := rfl
@[simp] theorem weight_node (f : Byte → Nat) (l r : HuffTree) :
    (node l r).weight f = l.weight f + r.weight f := rfl

@[simp] theorem subtreesAt_zero (t : HuffTree) : t.subtreesAt 0 = [t] := by cases t <;> rfl
@[simp] theorem subtreesAt_leaf_succ (s : Byte) (d : Nat) : (leaf s).subtreesAt (d + 1) = [] := rfl
@[simp] theorem subtreesAt_node_succ (l r : HuffTree) (d : Nat) :
    (node l r).subtreesAt (d + 1) = l.subtreesAt d ++ r.subtreesAt d := rfl

theorem eq_of_mem_subtreesAt_zero {t v : HuffTree} (h : v ∈ t.subtreesAt 0) : v = t := by
  simpa using h

/-- The path of a leaf has as many steps as the leaf is deep. -/
theorem leaf_mem_subtreesAt {t : HuffTree} {p : Byte × List Bool} (hp : p ∈ t.paths) :
    leaf p.1 ∈ t.subtreesAt p.2.length := by
  induction t generalizing p with
  | leaf s => rw [List.mem_singleton.1 hp]; simp
  | node l r ihl ihr =>
    rcases mem_paths_node.1 hp with ⟨c, hc, hpc⟩ | ⟨c, hc, hpc⟩ <;>
      rw [hpc, List.length_cons, subtreesAt_node_succ, List.mem_append]
    · exact .inl (ihl hc)
    · exact .inr (ihr hc)

/-- Each subtree of t weighs at least as much as each deeper subtree of u. -/
def OutweighsDeeper (f : Byte → Nat) (t u : HuffTree) : Prop :=
  ∀ d e, d < e → ∀ v ∈ t.subtreesAt d, ∀ w ∈ u.subtreesAt e, w.weight f ≤ v.weight f

/-- Each subtree of t weighs at most as much as each equally deep subtree of u. -/
def LevelwiseLE (f : Byte → Nat) (t u : HuffTree) : Prop :=
  ∀ d, ∀ v ∈ t.subtreesAt d, ∀ w ∈ u.subtreesAt d, v.weight f ≤ w.weight f

section
variable {f : Byte → Nat} {a b t u : HuffTree}

theorem outweighsDeeper_leaf (t : HuffTree) (s : Byte) : OutweighsDeeper f t (leaf s) := by
  intro d e hde v _ w hw
  obtain ⟨e, rfl⟩ := Nat.exists_eq_add_of_lt hde
  simp at hw

theorem OutweighsDeeper.weight_le (h : OutweighsDeeper f t u) {e : Nat} {w : HuffTree}
    (hw : w ∈ u.subtreesAt (e + 1)) : w.weight f ≤ t.weight f :=
  h 0 (e + 1) e.succ_pos t (by simp) w hw

/-- No subtree outweighs its tree, if the tree outweighs what is deeper in it. -/
theorem OutweighsDeeper.weight_le_self (h : OutweighsDeeper f t t) {e : Nat} {w : HuffTree}
    (hw : w ∈ t.subtreesAt e) : w.weight f ≤ t.weight f := by
  cases e with
  | zero => rw [eq_of_mem_subtreesAt_zero hw]
  | succ e => exact h.weight_le hw

/-- A new parent outweighs what is deeper in a tree if both its children do. -/
theorem OutweighsDeeper.node_left (ha : OutweighsDeeper f a u) (hb : OutweighsDeeper f b u) :
    OutweighsDeeper f (node a b) u := by
  intro d e hde v hv w hw
  cases d with
  | zero =>
    obtain ⟨e, rfl⟩ := Nat.exists_eq_add_of_lt hde
    rw [eq_of_mem_subtreesAt_zero hv]
    exact (ha.weight_le hw).trans (Nat.le_add_right ..)
  | succ d =>
    rcases List.mem_append.1 hv with hv | hv
    · exact ha d e (by omega) v hv w hw
    · exact hb d e (by omega) v hv w hw

theorem OutweighsDeeper.node_right (ha : OutweighsDeeper f t a) (hb : OutweighsDeeper f t b)
    (hla : LevelwiseLE f a t) (hlb : LevelwiseLE f b t) : OutweighsDeeper f t (node a b) := by
  intro d e hde v hv w hw
  obtain ⟨e, rfl⟩ : ∃ e', e = e' + 1 := ⟨e - 1, by omega⟩
  rcases Nat.lt_succ_iff_lt_or_eq.1 hde with hlt | rfl <;> rcases List.mem_append.1 hw with hw | hw
  · exact ha d e hlt v hv w hw
  · exact hb d e hlt v hv w hw
  · exact hla d w hw v hv
  · exact hlb d w hw v hv

/-- A new parent outweighs what is deeper in itself. -/
theorem OutweighsDeeper.node_self (haa : OutweighsDeeper f a a) (hab : OutweighsDeeper f a b)
    (hba : OutweighsDeeper f b a) (hbb : OutweighsDeeper f b b) :
    OutweighsDeeper f (node a b) (node a b) := by
  intro d e hde v hv w hw
  obtain ⟨e, rfl⟩ : ∃ e', e = e' + 1 := ⟨e - 1, by omega⟩
  cases d with
  | zero =>
    rw [eq_of_mem_subtreesAt_zero hv, weight_node]
    rcases List.mem_append.1 hw with hw | hw
    · exact (haa.weight_le_self hw).trans (Nat.le_add_right ..)
    · exact (hbb.weight_le_self hw).trans (Nat.le_add_left ..)
  | succ d =>
    have hde : d < e := Nat.lt_of_succ_lt_succ hde
    rcases List.mem_append.1 hv with hv | hv <;> rcases List.mem_append.1 hw with hw | hw
    · exact haa d e hde v hv w hw
    · exact hab d e hde v hv w hw
    · exact hba d e hde v hv w hw
    · exact hbb d e hde v hv w hw

/-- Against a leaf only the roots are equally deep. -/
theorem levelwiseLE_leaf {s : Byte} (h : t.weight f ≤ f s) : LevelwiseLE f t (leaf s) := by
  intro d v hv w hw
  cases d with
  | zero =>
    rw [eq_of_mem_subtreesAt_zero hw, eq_of_mem_subtreesAt_zero hv]
    exact h
  | succ d => exact absurd hw List.not_mem_nil

/-- A tree that comes before a new parent is no heavier than it at any depth. -/
theorem LevelwiseLE.node_right (ha : OutweighsDeeper f a t) (hb : OutweighsDeeper f b t)
    (hw : t.weight f ≤ (node a b).weight f) : LevelwiseLE f t (node a b) := by
  intro d v hv w hw'
  cases d with
  | zero =>
    rw [eq_of_mem_subtreesAt_zero hw', eq_of_mem_subtreesAt_zero hv]
    exact hw
  | succ d =>
    rcases List.mem_append.1 hw' with hw' | hw'
    · exact ha d (d + 1) d.lt_succ_self w hw' v hv
    · exact hb d (d + 1) d.lt_succ_self w hw' v hv

/-- A tree heavier than a new parent is a leaf: the children of an inner node weigh no more than the parent's
children, which were removed after them. -/
theorem LevelwiseLE.node_left (ha : OutweighsDeeper f a t) (hb : OutweighsDeeper f b t)
    (hw : (node a b).weight f < t.weight f) : LevelwiseLE f (node a b) t := by
  cases t with
  | leaf s => exact levelwiseLE_leaf hw.le
  | node l r =>
    have hl : l.weight f ≤ a.weight f := ha.weight_le (e := 0) (by simp)
    have hr : r.weight f ≤ b.weight f := hb.weight_le (e := 0) (by simp)
    simp only [weight_node] at hw
    omega

end

end HuffTree

/-- What the combining steps keep of a queue for symbols S with frequencies f, t being the next insertion
number. -/
structure HuffmanQueue (f : Byte → Nat) (S : List Byte) (t : Nat) (q : List HuffNode) : Prop where
  symbols_perm : (q.flatMap fun n => n.tree.symbols).Perm S
  freq_eq : ∀ n ∈ q, n.freq = n.tree.weight f
  num_lt : ∀ n ∈ q, n.num < t
  num_ne : q.Pairwise fun m n => m.num ≠ n.num
  outweighs : ∀ m ∈ q, ∀ n ∈ q, HuffTree.OutweighsDeeper f m.tree n.tree
  levelwise : ∀ m ∈ q, ∀ n ∈ q, m.before n = true → HuffTree.LevelwiseLE f m.tree n.tree

namespace HuffmanQueue
variable {f : Byte → Nat} {S : List Byte} {t : Nat} {q q' : List HuffNode}

theorem perm (h : HuffmanQueue f S t q) (hp : q.Perm q') : HuffmanQueue f S t q' where
  symbols_perm := (hp.symm.flatMap_right _).trans h.symbols_perm
  freq_eq n hn := h.freq_eq n (hp.mem_iff.2 hn)
  num_lt n hn := h.num_lt n (hp.mem_iff.2 hn)
  num_ne := (hp.pairwise_iff Ne.symm).1 h.num_ne
  outweighs m hm n hn := h.outweighs m (hp.mem_iff.2 hm) n (hp.mem_iff.2 hn)
  levelwise m hm n hn := h.levelwise m (hp.mem_iff.2 hm) n (hp.mem_iff.2 hn)

section
variable {a b : HuffNode} {rest : List HuffNode} (h : HuffmanQueue f S t (a :: b :: rest))
include h

theorem parent_freq_eq : (HuffNode.parent t a b).freq = (HuffNode.parent t a b).tree.weight f := by
  simp [h.freq_eq a (by simp), h.freq_eq b (by simp)]

theorem children_outweigh {n : HuffNode} (hn : n ∈ rest) :
    HuffTree.OutweighsDeeper f a.tree n.tree ∧ HuffTree.OutweighsDeeper f b.tree n.tree :=
  ⟨h.outweighs a (by simp) n (by simp [hn]), h.outweighs b (by simp) n (by simp [hn])⟩

theorem outweighs_children {n : HuffNode} (hn : n ∈ a :: b :: rest) :
    HuffTree.OutweighsDeeper f n.tree a.tree ∧ HuffTree.OutweighsDeeper f n.tree b.tree :=
  ⟨h.outweighs n hn a (by simp), h.outweighs n hn b (by simp)⟩

/-- A new parent has the largest insertion number, so it comes before heavier nodes only. -/
theorem parent_levelwise : ∀ m ∈ HuffNode.parent t a b :: rest, ∀ n ∈ HuffNode.parent t a b :: rest,
    m.before n = true → HuffTree.LevelwiseLE f m.tree n.tree := by
  intro m hm n hn hbefore
  rcases List.mem_cons.1 hm with rfl | hm <;> rcases List.mem_cons.1 hn with rfl | hn
  · exact absurd hbefore (HuffNode.not_before_of_before hbefore)
  · obtain ⟨ha, hb⟩ := h.children_outweigh hn
    have hnum : n.num < t := h.num_lt n (by simp [hn])
    have hlt : (HuffNode.parent t a b).freq < n.freq :=
      (HuffNode.before_iff.1 hbefore).resolve_right fun ⟨_, hlt⟩ => hnum.not_gt hlt
    rw [h.parent_freq_eq, h.freq_eq n (by simp [hn])] at hlt
    exact .node_left ha hb hlt
  · obtain ⟨ha, hb⟩ := h.children_outweigh hm
    have hle := HuffNode.freq_le_of_before hbefore
    rw [h.parent_freq_eq, h.freq_eq m (by simp [hm])] at hle
    exact .node_right ha hb hle
  · exact h.levelwise m (by simp [hm]) n (by simp [hn]) hbefore

variable (ha : ∀ n ∈ b :: rest, ¬ n.before a = true) (hb : ∀ n ∈ rest, ¬ n.before b = true)
include ha hb

/-- The two nodes removed come before the nodes left. -/
theorem children_levelwise {n : HuffNode} (hn : n ∈ rest) :
    HuffTree.LevelwiseLE f a.tree n.tree ∧ HuffTree.LevelwiseLE f b.tree n.tree := by
  have hn' := List.mem_cons_of_mem b hn
  obtain ⟨hne_a, hrest⟩ := List.pairwise_cons.1 h.num_ne
  obtain ⟨hne_b, _⟩ := List.pairwise_cons.1 hrest
  exact ⟨h.levelwise a (by simp) n (by simp [hn]) (HuffNode.before_of_not_before (hne_a n hn') (ha n hn')),
    h.levelwise b (by simp) n (by simp [hn]) (HuffNode.before_of_not_before (hne_b n hn) (hb n hn))⟩

theorem parent_outweighs : ∀ m ∈ HuffNode.parent t a b :: rest,
    ∀ n ∈ HuffNode.parent t a b :: rest, HuffTree.OutweighsDeeper f m.tree n.tree := by
  intro m hm n hn
  rcases List.mem_cons.1 hm with rfl | hm <;> rcases List.mem_cons.1 hn with rfl | hn
  · obtain ⟨haa, hab⟩ := h.outweighs_children (n := a) (by simp)
    obtain ⟨hba, hbb⟩ := h.outweighs_children (n := b) (by simp)
    exact .node_self haa hab hba hbb
  · obtain ⟨han, hbn⟩ := h.children_outweigh hn
    exact .node_left han hbn
  · obtain ⟨hma, hmb⟩ := h.outweighs_children (n := m) (by simp [hm])
    obtain ⟨hla, hlb⟩ := h.children_levelwise ha hb hm
    exact .node_right hma hmb hla hlb
  · exact h.outweighs m (by simp [hm]) n (by simp [hn])

/-- The parent of the two nodes that come first stands in the queue like the nodes before it. -/
theorem combine_step : HuffmanQueue f S (t + 1) (HuffNode.parent t a b :: rest) where
  symbols_perm := by simpa [List.append_assoc] using h.symbols_perm
  freq_eq := List.forall_mem_cons.2 ⟨h.parent_freq_eq, fun n hn => h.freq_eq n (by simp [hn])⟩
  num_lt := List.forall_mem_cons.2
    ⟨t.lt_succ_self, fun n hn => (h.num_lt n (by simp [hn])).trans t.lt_succ_self⟩
  num_ne := List.pairwise_cons.2 ⟨fun n hn => (h.num_lt n (by simp [hn])).ne', h.num_ne.of_cons.of_cons⟩
  outweighs := h.parent_outweighs ha hb
  levelwise := h.parent_levelwise

end

end HuffmanQueue

/-- The leaves are numbered in ascending symbol order (43_huffman R232). -/
theorem leaf_of_mem_leaves {x : List Byte} {n : HuffNode} (hn : n ∈ leaves x) :
    ∃ s, (symbols x)[n.num]? = some s ∧ n.freq = frequency x s ∧ n.tree = .leaf s := by
  obtain ⟨⟨s, i⟩, hp, rfl⟩ := List.mem_map.1 hn
  exact ⟨s, List.mk_mem_zipIdx_iff_getElem?.1 hp, rfl, rfl⟩

theorem leaves_length (x : List Byte) : (leaves x).length = (symbols x).length := by simp [leaves]

theorem huffmanQueue_leaves (x : List Byte) :
    HuffmanQueue (frequency x) (symbols x) (symbols x).length (leaves x) where
  symbols_perm := by
    have h : ((leaves x).flatMap fun n => n.tree.symbols) = symbols x := by
      simp [leaves, List.flatMap_map, ← List.map_eq_flatMap]
    rw [h]
  freq_eq n hn := by
    obtain ⟨s, _, hfreq, htree⟩ := leaf_of_mem_leaves hn
    rw [hfreq, htree, HuffTree.weight_leaf]
  num_lt n hn := by
    obtain ⟨s, hs, _⟩ := leaf_of_mem_leaves hn
    exact (List.getElem?_eq_some_iff.1 hs).1
  num_ne := by
    have h : (leaves x).map HuffNode.num = List.range (symbols x).length := by
      simp [leaves, Function.comp_def, List.range_eq_range']
    exact List.pairwise_map.1 (h ▸ List.nodup_range)
  outweighs m hm n hn := by
    obtain ⟨s, _, _, htree⟩ := leaf_of_mem_leaves hn
    rw [htree]
    exact HuffTree.outweighsDeeper_leaf m.tree s
  levelwise m hm n hn hbefore := by
    obtain ⟨s, _, hs, hms⟩ := leaf_of_mem_leaves hm
    obtain ⟨s', _, hs', hns⟩ := leaf_of_mem_leaves hn
    have hle := HuffNode.freq_le_of_before hbefore
    rw [hs, hs'] at hle
    rw [hms, hns]
    exact HuffTree.levelwiseLE_leaf hle

/-- The tree of an input with at least one symbol, and what is known of it (43_huffman R235). -/
theorem exists_tree {x : List Byte} (hx : symbols x ≠ []) :
    ∃ t : HuffTree, treeCodes x = t.paths ∧ t.symbols.Perm (symbols x) ∧
      HuffTree.OutweighsDeeper (frequency x) t t := by
  have hpos := List.length_pos_of_ne_nil hx
  obtain ⟨root, hroot, hq⟩ := exists_root_of_combine
    (P := HuffmanQueue (frequency x) (symbols x)) (k := (symbols x).length - 1)
    (fun t q a b rest hq hperm ha hb => (hq.perm hperm).combine_step ha hb)
    (huffmanQueue_leaves x) (by rw [leaves_length]; omega)
  exact ⟨root.tree, by rw [treeCodes, hroot], by simpa using hq.symbols_perm,
    hq.outweighs root (by simp) root (by simp)⟩

end Sys2Proof.Machine
end

section
/-! The code table of an input: its symbols, its codes and their lengths (43_huffman R237 to R244). -/

namespace Sys2Proof.Machine

/-! ## Symbols -/

theorem allBytes_toNat : allBytes.map BitVec.toNat = List.range 256 := by
  rw [allBytes, List.map_map]
  refine (List.map_congr_left fun i hi => ?_).trans (List.map_id _)
  have := List.mem_range.1 hi
  rw [Function.comp_apply, BitVec.toNat_ofNat, Nat.mod_eq_of_lt this, id]

theorem mem_allBytes (v : Byte) : v ∈ allBytes := by
  have hv : v.toNat ∈ List.range 256 := List.mem_range.2 v.isLt
  exact List.mem_map.2 ⟨v.toNat, hv, by simp⟩

theorem mem_symbols {x : List Byte} {v : Byte} : v ∈ symbols x ↔ v ∈ x := by
  simp [symbols, mem_allBytes, frequency, List.count_pos_iff]

/-- The symbols ascend (43_huffman R232). -/
theorem symbols_pairwise_lt (x : List Byte) : (symbols x).Pairwise fun u v => u.toNat < v.toNat := by
  have h : (allBytes.map BitVec.toNat).Pairwise (· < ·) := allBytes_toNat ▸ List.pairwise_lt_range
  exact (List.pairwise_map.1 h).filter _

theorem symbols_nodup (x : List Byte) : (symbols x).Nodup :=
  (symbols_pairwise_lt x).imp fun h heq => absurd (congrArg BitVec.toNat heq) h.ne

theorem symbols_length_le (x : List Byte) : (symbols x).length ≤ 256 := by
  refine (List.length_filter_le ..).trans ?_
  simp [allBytes]

/-! ## The table -/

theorem codeTable_symbols (x : List Byte) : (codeTable x).map Prod.fst = symbols x := by
  rw [codeTable]
  split <;> simp [Function.comp_def, *]

/-- A table whose symbols are all different gives each symbol the code it lists. -/
theorem codeIn_of_mem {codes : List (Byte × List Bool)} (hnodup : (codes.map Prod.fst).Nodup)
    {e : Byte × List Bool} (he : e ∈ codes) : codeIn codes e.1 = e.2 := by
  induction codes with
  | nil => exact absurd he List.not_mem_nil
  | cons g codes ih =>
    obtain ⟨s, c⟩ := g
    obtain ⟨hs, hrest⟩ := List.nodup_cons.1 hnodup
    rcases List.mem_cons.1 he with rfl | he
    · simp [codeIn]
    · have hne : e.1 ≠ s := fun h => hs (List.mem_map.2 ⟨e, he, h⟩)
      rw [← ih hrest he]
      simp [codeIn, List.lookup_cons, beq_false_of_ne hne]

/-- Listing codes in the order of S only reorders them. -/
theorem map_codeIn_perm {codes : List (Byte × List Bool)} {S : List Byte}
    (h : (codes.map Prod.fst).Perm S) (hS : S.Nodup) :
    (S.map fun s => (s, codeIn codes s)).Perm codes := by
  have hnodup := h.nodup_iff.2 hS
  have hself : (codes.map Prod.fst).map (fun s => (s, codeIn codes s)) = codes := by
    rw [List.map_map]
    refine (List.map_congr_left fun e he => ?_).trans (List.map_id _)
    rw [Function.comp_apply, codeIn_of_mem hnodup he, id]
  have hperm := (h.map fun s => (s, codeIn codes s)).symm
  rwa [hself] at hperm

/-- The three kinds of code table (43_huffman R237 to R239): of no symbol, of one, and the paths of a tree, in
any order, where a deeper subtree never weighs more. -/
inductive IsCodeTable (x : List Byte) : List (Byte × List Bool) → Prop
  | empty : IsCodeTable x []
  | single (s : Byte) : IsCodeTable x [(s, [false])]
  | tree (l r : HuffTree) {table} (hperm : table.Perm (HuffTree.node l r).paths)
      (h : HuffTree.OutweighsDeeper (frequency x) (.node l r) (.node l r)) : IsCodeTable x table

theorem codeTable_cases (x : List Byte) : IsCodeTable x (codeTable x) := by
  rw [codeTable]
  split
  next => exact .empty
  next s _ => exact .single s
  next hempty hone =>
    obtain ⟨t, hcodes, hsymbols, h⟩ := exists_tree hempty
    have hperm : ((symbols x).map fun s => (s, codeIn (treeCodes x) s)).Perm t.paths :=
      hcodes ▸ map_codeIn_perm (hcodes ▸ hsymbols) (symbols_nodup x)
    cases t with
    | leaf s => exact absurd (List.perm_singleton.1 hsymbols.symm) (hone s)
    | node l r => exact .tree l r hperm h

theorem codeTable_nodup (x : List Byte) : ((codeTable x).map Prod.fst).Nodup :=
  codeTable_symbols x ▸ symbols_nodup x

/-- The entries stand in the order of their symbols (43_huffman R241). -/
theorem codeTable_pairwise_lt (x : List Byte) :
    (codeTable x).Pairwise fun e f => e.1.toNat < f.1.toNat := by
  have h := symbols_pairwise_lt x
  rwa [← codeTable_symbols, List.pairwise_map] at h

theorem codeTable_length_le (x : List Byte) : (codeTable x).length ≤ 256 := by
  rw [← List.length_map (f := Prod.fst), codeTable_symbols]
  exact symbols_length_le x

namespace IsCodeTable
variable {x : List Byte} {table : List (Byte × List Bool)} {e f : Byte × List Bool}

/-- Every code is 1 to k - 1 bits long, or 1 bit if there is one symbol (43_huffman R237, R239). -/
theorem length_bounds (h : IsCodeTable x table) (he : e ∈ table) :
    1 ≤ e.2.length ∧ e.2.length ≤ max 1 (table.length - 1) := by
  cases h with
  | empty => exact absurd he List.not_mem_nil
  | single s =>
    rw [List.mem_singleton.1 he]
    exact ⟨le_rfl, le_max_left ..⟩
  | tree l r hperm _ =>
    have hpath := hperm.mem_iff.1 he
    have hlt := HuffTree.length_lt_of_mem_paths hpath
    rw [← hperm.length_eq] at hlt
    exact ⟨HuffTree.one_le_length_of_mem_paths_node hpath, by omega⟩

/-- No code of a table begins with another entry's code (43_huffman R242). -/
theorem eq_of_prefix (h : IsCodeTable x table) (he : e ∈ table) (hf : f ∈ table) (hpre : e.2 <+: f.2) :
    e = f := by
  cases h with
  | empty => exact absurd he List.not_mem_nil
  | single s => rw [List.mem_singleton.1 he, List.mem_singleton.1 hf]
  | tree l r hperm _ =>
    exact HuffTree.eq_of_prefix (hperm.mem_iff.1 he) (hperm.mem_iff.1 hf) hpre

/-- The code of two or more symbols is complete (43_huffman R242). -/
theorem sum_complete (h : IsCodeTable x table) (hlen : 2 ≤ table.length) {N : Nat}
    (hN : ∀ e ∈ table, e.2.length ≤ N) : (table.map fun e => 2 ^ (N - e.2.length)).sum = 2 ^ N := by
  cases h with
  | empty => exact absurd hlen (by decide)
  | single s => exact absurd hlen (by simp)
  | tree l r hperm _ =>
    rw [(hperm.map _).sum_eq]
    exact HuffTree.sum_paths _ fun p hp => hN p (hperm.mem_iff.2 hp)

/-- A more frequent symbol has no longer code: at a smaller depth the less frequent one would have to outweigh
it (43_huffman R244). -/
theorem length_le_of_frequency_lt (h : IsCodeTable x table) (he : e ∈ table) (hf : f ∈ table)
    (hlt : frequency x f.1 < frequency x e.1) : e.2.length ≤ f.2.length := by
  cases h with
  | empty => exact absurd he List.not_mem_nil
  | single s => rw [List.mem_singleton.1 he, List.mem_singleton.1 hf]
  | tree l r hperm houtweighs =>
    by_contra hlonger
    have hle := houtweighs f.2.length e.2.length (Nat.lt_of_not_le hlonger)
      _ (HuffTree.leaf_mem_subtreesAt (hperm.mem_iff.1 hf))
      _ (HuffTree.leaf_mem_subtreesAt (hperm.mem_iff.1 he))
    exact hlt.not_ge hle

end IsCodeTable

theorem code_length_le {x : List Byte} {e : Byte × List Bool} (he : e ∈ codeTable x) :
    e.2.length ≤ 255 := by
  have := (codeTable_cases x).length_bounds he
  have := codeTable_length_le x
  omega

/-- Settles O51: the table's symbols are the present symbols, and a tree of k leaves has paths of fewer than k
steps. -/
theorem huffmanTableSymbolsAndLengths : Obligations.HuffmanTableSymbolsAndLengths := by
  intro x
  refine ⟨?_, fun v => ?_, codeTable_length_le x, fun e he => (codeTable_cases x).length_bounds he⟩
  · exact List.pairwise_map.2 (codeTable_pairwise_lt x)
  · rw [codeTable_symbols, mem_symbols]

/-- Settles O50: no leaf's code begins with another's, and the paths of a tree are complete. -/
theorem huffmanTableIsPrefixFreeAndComplete : Obligations.HuffmanTableIsPrefixFreeAndComplete := by
  intro x
  have htable := codeTable_cases x
  refine ⟨(codeTable_nodup x).of_map.pairwise_of_forall_ne fun e he f hf hne => ⟨?_, ?_⟩,
    fun hlen => htable.sum_complete hlen fun e he => code_length_le he⟩
  · exact fun hpre => hne (htable.eq_of_prefix he hf hpre)
  · exact fun hpre => hne (htable.eq_of_prefix hf he hpre).symm

/-- Settles O52: the leaf of a more frequent symbol is no deeper. -/
theorem huffmanFrequentSymbolsGetNoLongerCodes : Obligations.HuffmanFrequentSymbolsGetNoLongerCodes :=
  fun x _ he _ hf hlt => (codeTable_cases x).length_le_of_frequency_lt he hf hlt

end Sys2Proof.Machine
end

section
/-! The lengths of the Huffman body, metadata and payload (43_huffman R240, R241, R243). -/

namespace Sys2Proof.Machine

/-- A sum over the input bytes, collected by symbol (43_huffman R240). -/
theorem sum_map_eq_sum_symbols (x : List Byte) (g : Byte → Nat) :
    (x.map g).sum = ((symbols x).map fun s => x.count s * g s).sum := by
  have hset : x.toFinset = (symbols x).toFinset := by
    ext v
    simp [mem_symbols]
  rw [Finset.sum_list_map_count, hset, List.sum_toFinset _ (symbols_nodup x)]
  simp only [smul_eq_mul]

theorem hufBody_length (x : List Byte) :
    (hufBody x).length = ((codeTable x).map fun e => x.count e.1 * e.2.length).sum := by
  calc (hufBody x).length
      = (x.map fun v => (codeIn (codeTable x) v).length).sum := by simp [hufBody, List.length_flatMap]
    _ = (((codeTable x).map Prod.fst).map fun s =>
          x.count s * (codeIn (codeTable x) s).length).sum := by
      rw [sum_map_eq_sum_symbols, codeTable_symbols]
    _ = ((codeTable x).map fun e => x.count e.1 * e.2.length).sum := by
      rw [List.map_map]
      exact congrArg List.sum (List.map_congr_left fun e he => by
        rw [Function.comp_apply, codeIn_of_mem (codeTable_nodup x) he])

theorem tableEntry_length (e : Byte × List Bool) : (tableEntry e).length = 2 + ceil8 e.2.length := by
  rw [tableEntry, List.length_cons, List.length_cons, pack_length]
  exact Nat.add_comm _ 2

/-- An entry takes at most 34 bytes, and there are at most 256 (43_huffman R243). -/
theorem tableEntries_length_le (x : List Byte) : ((codeTable x).flatMap tableEntry).length ≤ 8704 := by
  have hentry : ∀ k ∈ (codeTable x).map fun e => (tableEntry e).length, k ≤ 34 := by
    refine List.forall_mem_map.2 fun e he => ?_
    have := code_length_le he
    rw [tableEntry_length, ceil8]
    omega
  have hsum := List.sum_le_card_nsmul _ 34 hentry
  have hcount := codeTable_length_le x
  rw [List.length_map, smul_eq_mul] at hsum
  rw [List.length_flatMap]
  omega

/-- Settles O53: bits by symbol, and at most 256 entries of at most 34 bytes. -/
theorem huffmanBodyAndMetadataLengths : Obligations.HuffmanBodyAndMetadataLengths := by
  intro x
  have := tableEntries_length_le x
  exact ⟨rfl, hufBody_length x, by omega⟩

theorem codeTable_mem_of_mem {x : List Byte} {v : Byte} (hv : v ∈ x) :
    (v, codeIn (codeTable x) v) ∈ codeTable x := by
  rw [← mem_symbols, ← codeTable_symbols] at hv
  obtain ⟨e, he, rfl⟩ := List.mem_map.1 hv
  rwa [codeIn_of_mem (codeTable_nodup x) he]

theorem hufBody_length_le (x : List Byte) : (hufBody x).length ≤ 255 * x.length := by
  have hcode : ∀ k ∈ x.map fun v => (codeIn (codeTable x) v).length, k ≤ 255 :=
    List.forall_mem_map.2 fun v hv => code_length_le (codeTable_mem_of_mem hv)
  have hsum := List.sum_le_card_nsmul _ 255 hcode
  rw [List.length_map, smul_eq_mul, Nat.mul_comm] at hsum
  simpa [hufBody, List.length_flatMap] using hsum

/-- `META` (43_huffman R241). -/
def hufMetadata (x : List Byte) : List Byte :=
  beBytes (hufBody x).length 4 ++ (beBytes (codeTable x).length 2 ++ (codeTable x).flatMap tableEntry)

theorem hufPayload_eq_container (x : List Byte) :
    hufPayload x = container .huffman x.length (hufMetadata x) (pack (hufBody x)) := rfl

theorem hufMetadata_length (x : List Byte) :
    (hufMetadata x).length = 6 + ((codeTable x).flatMap tableEntry).length := by
  rw [hufMetadata, List.length_append, List.length_append, beBytes_length, beBytes_length]
  omega

theorem hufPayload_length (x : List Byte) :
    (hufPayload x).length =
      15 + ((codeTable x).flatMap tableEntry).length + ceil8 (hufBody x).length := by
  rw [hufPayload_eq_container, container_length, hufMetadata_length, pack_length]
  omega

theorem hufPayload_length_le (x : List Byte) : (hufPayload x).length ≤ 8719 + 32 * x.length := by
  have hentries := tableEntries_length_le x
  have hbody := hufBody_length_le x
  rw [hufPayload_length, ceil8]
  omega

end Sys2Proof.Machine
end

section
/-! DEC_HUF undoes HUF.ENC: the table is parsed back, and each walk of the trie takes one code off the body
(48_reference_decoders R365 to R367). -/

namespace Sys2Proof.Machine

/-! ## The table -/

/-- Unpacking a packed sequence in front of other bytes: its bits, then its padding, which is zero. -/
theorem unpack_pack_append (c : List Bool) (rest : List Byte) {k : Nat}
    (hk : c.length + k ≤ 8 * ceil8 c.length) :
    unpack (pack c ++ rest) (c.length + k) = c ++ List.replicate k false := by
  refine List.ext_getElem (by simp) fun i hi _ => ?_
  rw [unpack_length] at hi
  have hbyte : (pack c ++ rest).getD (i / 8) 0 = streamByte c (i / 8) := by
    rw [List.getD_append _ _ _ _ (by rw [pack_length]; omega), pack]
    simp [show i / 8 < ceil8 c.length by omega]
  simp only [unpack, List.getElem_map, List.getElem_range, hbyte]
  rw [streamByte_getLsbD _ _ _ (by omega), show 8 * (i / 8) + (7 - (7 - i % 8)) = i by omega,
    List.getElem_append]
  split <;> simp_all

theorem le_eight_mul_ceil8 (n : Nat) : n ≤ 8 * ceil8 n := by
  rw [ceil8]
  omega

theorem unpack_code (c : List Bool) (rest : List Byte) : unpack (pack c ++ rest) c.length = c := by
  simpa using unpack_pack_append c rest (k := 0) (le_eight_mul_ceil8 c.length)

theorem drop_unpack_code (c : List Bool) (rest : List Byte) :
    ((unpack (pack c ++ rest) (8 * ceil8 c.length)).drop c.length).any id = false := by
  obtain ⟨k, hk⟩ := Nat.exists_eq_add_of_le (le_eight_mul_ceil8 c.length)
  rw [hk, unpack_pack_append c rest hk.ge, List.drop_left]
  simp

/-- The decoder reads an entry the encoder wrote and goes on after it (48 R365). -/
theorem parseTable_tableEntry {e : Byte × List Bool} (hlen : 1 ≤ e.2.length ∧ e.2.length ≤ 255)
    {last : Option Byte} (hlast : ∀ l ∈ last, l.toNat < e.1.toNat) {k : Nat} {rest : List Byte}
    {table : List (Byte × List Bool)} (hrest : parseTable k (some e.1) rest = .ok table) :
    parseTable (k + 1) last (tableEntry e ++ rest) = .ok (e :: table) := by
  obtain ⟨v, c⟩ := e
  dsimp only at hlen
  have hcount : (BitVec.ofNat 8 c.length).toNat = c.length := by
    rw [BitVec.toNat_ofNat, Nat.mod_eq_of_lt (by omega)]
  have hne : BitVec.ofNat 8 c.length ≠ 0 := fun h => by
    have : c.length = 0 := hcount.symm.trans (congrArg BitVec.toNat h)
    omega
  have hascends : ¬ (last.any fun l => decide (v.toNat ≤ l.toNat)) = true := by
    simpa [Option.any_eq_true] using hlast
  have hroom : ¬ ceil8 c.length > (pack c ++ rest).length := by
    rw [List.length_append, pack_length]
    omega
  have hdrop : (pack c ++ rest).drop (ceil8 c.length) = rest := by
    rw [← pack_length c, List.drop_left]
  rw [tableEntry, List.cons_append, List.cons_append, parseTable, if_neg hascends, if_neg hne, hcount,
    if_neg hroom, drop_unpack_code, if_neg Bool.false_ne_true, hdrop, hrest, unpack_code]

theorem parseTable_entries {table : List (Byte × List Bool)}
    (hlen : ∀ e ∈ table, 1 ≤ e.2.length ∧ e.2.length ≤ 255)
    (hsorted : table.Pairwise fun e f => e.1.toNat < f.1.toNat) {last : Option Byte}
    (hlast : ∀ l ∈ last, ∀ e ∈ table, l.toNat < e.1.toNat) :
    parseTable table.length last (table.flatMap tableEntry) = .ok table := by
  induction table generalizing last with
  | nil => rfl
  | cons e table ih =>
    obtain ⟨he, hlen⟩ := List.forall_mem_cons.1 hlen
    obtain ⟨hbelow, hsorted⟩ := List.pairwise_cons.1 hsorted
    have hrest := ih hlen hsorted (last := some e.1) (by simpa using hbelow)
    exact parseTable_tableEntry he (fun l hl => hlast l hl e (by simp)) hrest

theorem prefixFree_of_pairwise {table : List (Byte × List Bool)}
    (h : table.Pairwise fun e f => ¬ e.2 <+: f.2 ∧ ¬ f.2 <+: e.2) : prefixFree table = true := by
  induction table with
  | nil => rfl
  | cons e table ih =>
    obtain ⟨he, htable⟩ := List.pairwise_cons.1 h
    rw [prefixFree, ih htable, Bool.and_true, List.all_eq_true]
    intro f hf
    have := he f hf
    simpa [← List.isPrefixOf_iff_prefix] using this

/-! ## The walks -/

/-- An entry's code begins with no other entry's code (48 R365). -/
def PrefixCode (node : List (Byte × List Bool)) : Prop :=
  ∀ e ∈ node, ∀ f ∈ node, e.2 <+: f.2 → e = f

theorem mem_trieChild {bit : Bool} {node : List (Byte × List Bool)} {v : Byte} {c : List Bool} :
    (v, c) ∈ trieChild bit node ↔ (v, bit :: c) ∈ node := by
  rw [trieChild, List.mem_filterMap]
  constructor
  · rintro ⟨⟨u, d⟩, hmem, hd⟩
    cases d with
    | nil => exact nomatch hd
    | cons b d =>
      obtain ⟨rfl, h⟩ := Option.ite_none_right_eq_some.1 hd
      cases h
      exact hmem
  · exact fun hmem => ⟨(v, bit :: c), hmem, by simp⟩

theorem PrefixCode.trieChild {node : List (Byte × List Bool)} (h : PrefixCode node) (bit : Bool) :
    PrefixCode (trieChild bit node) := by
  rintro ⟨v, c⟩ hv ⟨u, d⟩ hu hpre
  cases h _ (mem_trieChild.1 hv) _ (mem_trieChild.1 hu) ((List.prefix_cons_inj bit).2 hpre)
  rfl

/-- A node where a code ends has no other entry, so its symbol is that code's (48 R366). -/
theorem leafSymbol_of_end {node : List (Byte × List Bool)} (h : PrefixCode node) {v : Byte}
    (hv : (v, []) ∈ node) : leafSymbol node = some v := by
  have hfound : node.find? (fun e => e.2.isEmpty) = some (v, []) := by
    cases hfind : node.find? (fun e => e.2.isEmpty) with
    | none => exact absurd rfl (List.find?_eq_none.1 hfind _ hv)
    | some e => rw [h _ hv e (List.mem_of_find?_eq_some hfind) List.nil_prefix]
  rw [leafSymbol, hfound]
  rfl

/-- A node on the way to the end of a code is no leaf. -/
theorem leafSymbol_of_inner {node : List (Byte × List Bool)} (h : PrefixCode node) {v : Byte} {b : Bool}
    {c : List Bool} (hv : (v, b :: c) ∈ node) : leafSymbol node = none := by
  rw [leafSymbol, Option.map_eq_none_iff, List.find?_eq_none]
  intro e he hempty
  have hnil : e.2 = [] := List.isEmpty_iff.1 hempty
  rw [h e he _ hv (hnil ▸ List.nil_prefix)] at hnil
  exact nomatch hnil

/-- A walk takes one code off the bits and gives its symbol (48 R367). -/
theorem walkTrie_code {node : List (Byte × List Bool)} (h : PrefixCode node) {v : Byte} {b : Bool}
    {c : List Bool} (hv : (v, b :: c) ∈ node) (t : List Bool) :
    walkTrie node (b :: c ++ t) = .ok (v, t) := by
  induction c generalizing node b with
  | nil =>
    have hchild : (v, []) ∈ trieChild b node := mem_trieChild.2 hv
    simp [walkTrie, List.ne_nil_of_mem hchild, leafSymbol_of_end (h.trieChild b) hchild]
  | cons b' c ih =>
    have hchild : (v, b' :: c) ∈ trieChild b node := mem_trieChild.2 hv
    rw [List.cons_append, walkTrie]
    simp only [List.isEmpty_eq_false_iff.2 (List.ne_nil_of_mem hchild),
      leafSymbol_of_inner (h.trieChild b) hchild]
    exact ih (h.trieChild b) hchild

theorem walkMany_codes {table : List (Byte × List Bool)} (h : PrefixCode table) {x : List Byte}
    (hx : ∀ v ∈ x, (v, codeIn table v) ∈ table ∧ codeIn table v ≠ []) :
    walkMany table x.length (x.flatMap (codeIn table)) = .ok x := by
  induction x with
  | nil => rfl
  | cons v x ih =>
    obtain ⟨⟨hmem, hne⟩, hx⟩ := List.forall_mem_cons.1 hx
    obtain ⟨b, c, hcode⟩ := List.exists_cons_of_ne_nil hne
    rw [hcode] at hmem
    rw [List.flatMap_cons, hcode, List.length_cons, walkMany, walkTrie_code h hmem]
    simp [ih hx]

/-! ## The payload -/

theorem parseTable_codeTable (x : List Byte) :
    parseTable (codeTable x).length none ((codeTable x).flatMap tableEntry) = .ok (codeTable x) := by
  have hlen : ∀ e ∈ codeTable x, 1 ≤ e.2.length ∧ e.2.length ≤ 255 := fun e he =>
    ⟨((codeTable_cases x).length_bounds he).1, code_length_le he⟩
  exact parseTable_entries hlen (codeTable_pairwise_lt x) (by simp)

theorem walkMany_hufBody (x : List Byte) : walkMany (codeTable x) x.length (hufBody x) = .ok x := by
  have htable := codeTable_cases x
  refine walkMany_codes (fun e he f hf => htable.eq_of_prefix he hf) fun v hv => ?_
  have hmem := codeTable_mem_of_mem hv
  exact ⟨hmem, List.ne_nil_of_length_pos (htable.length_bounds hmem).1⟩

theorem codeTable_ne_nil {x : List Byte} (hx : 0 < x.length) : codeTable x ≠ [] := by
  obtain ⟨v, hv⟩ := List.exists_mem_of_length_pos hx
  exact List.ne_nil_of_mem (codeTable_mem_of_mem hv)

/-- BODYBITS finds the bits of a packed body (48 R363). -/
theorem bodyBits_pack {s : List Bool} (hs : s.length < 2 ^ 32) (rest : List Byte) :
    bodyBits (beBytes s.length 4 ++ rest) (pack s) = .ok s := by
  have hcount : unbe ((beBytes s.length 4 ++ rest).take 4) = s.length := by
    rw [List.take_left' (beBytes_length ..), unbe_beBytes_four hs]
  rw [bodyBits, hcount, pack_length, if_neg (lt_irrefl _), if_neg (lt_irrefl _), unpack_pack]

/-- DEC_HUF gives the input back where n and the number of body bits fit their fields (48 R370). -/
theorem decHuf_hufPayload {x : List Byte} (hx : x.length < 2 ^ 32) (hbits : (hufBody x).length < 2 ^ 32) :
    decHuf (hufPayload x) = .ok x := by
  have hmetadata := hufMetadata_length x
  have hentries := tableEntries_length_le x
  have hcount := codeTable_length_le x
  have hparse := parsePayload_container .huffman (pack (hufBody x)) hx
    (show (hufMetadata x).length < 2 ^ 32 by omega)
  have hsymbols : unbe (((hufMetadata x).drop 4).take 2) = (codeTable x).length := by
    have htake : ((hufMetadata x).drop 4).take 2 = beBytes (codeTable x).length 2 := rfl
    rw [htake, unbe_beBytes]
    omega
  have htable : (hufMetadata x).drop 6 = (codeTable x).flatMap tableEntry := rfl
  have hprefix := prefixFree_of_pairwise (huffmanTableIsPrefixFreeAndComplete x).1
  have hnonempty : ¬ (x.length > 0 ∧ (codeTable x).isEmpty = true) := fun ⟨hpos, hempty⟩ =>
    codeTable_ne_nil hpos (List.isEmpty_iff.1 hempty)
  have hbody : bodyBits (hufMetadata x) (pack (hufBody x)) = .ok (hufBody x) := bodyBits_pack hbits _
  rw [decHuf, hufPayload_eq_container, hparse]
  simp only [hsymbols, htable, parseTable_codeTable, hprefix, hbody, walkMany_hufBody]
  rw [if_neg (by omega), if_neg (by omega), if_neg (by decide), if_neg hnonempty]

theorem hufPayload_layout (x : List Byte) :
    hufPayload x = 0x02 :: beBytes x.length 4 ++
      beBytes (6 + ((codeTable x).flatMap tableEntry).length) 4 ++
      beBytes (hufBody x).length 4 ++ beBytes (codeTable x).length 2 ++
      (codeTable x).flatMap tableEntry ++ pack (hufBody x) := by
  rw [hufPayload_eq_container, container, hufMetadata_length, hufMetadata, Codec.algorithmId]
  simp only [List.append_assoc]

/-- Settles O38: DEC_HUF parses the table back and walks it; a payload that fits OUT has fewer than 2^32 body
bits. -/
theorem hufEncodeWritesADecodablePayload : Obligations.HufEncodeWritesADecodablePayload := by
  intro s x hwf hl hc hx
  refine ⟨hufPayload_length_le x, fun hfit => ?_⟩
  have hn : x.length < 2 ^ 32 := hl ▸ s.inLen.isLt
  have hbits : (hufBody x).length < 2 ^ 32 := by
    obtain ⟨_, ⟨_, hout⟩, _⟩ := hwf
    have := hufPayload_length x
    have := le_eight_mul_ceil8 (hufBody x).length
    omega
  obtain ⟨m, hexec, hm⟩ := encodeWith_stores (encode .hufEnc) hl hc hx
    (payload := fun x => .ok (hufPayload x)) rfl hfit
  exact ⟨m, hexec, hm, hufPayload_layout x, decHuf_hufPayload hn hbits⟩

end Sys2Proof.Machine
end

section
/-! The ceiling of the binary logarithm, and READ on bits that stand in front (00_scope R10, R11;
48_reference_decoders R363). -/

namespace Sys2Proof.Machine

theorem bitlen_le_iff {v k : Nat} : bitlen v ≤ k ↔ v < 2 ^ k := by
  rw [bitlen]
  split
  · next hv => simp [hv]
  · next hv => rw [Nat.succ_le_iff, Nat.log2_lt hv]

theorem clog2_le_iff {b k : Nat} (hb : 1 ≤ b) : clog2 b ≤ k ↔ b ≤ 2 ^ k := by
  rw [clog2, bitlen_le_iff]
  omega

theorem clog2_eq_of_least {b k : Nat} (hb : 1 ≤ b) (hk : b ≤ 2 ^ k) (hleast : ∀ j, b ≤ 2 ^ j → k ≤ j) :
    clog2 b = k :=
  le_antisymm ((clog2_le_iff hb).2 hk) (hleast _ ((clog2_le_iff hb).1 le_rfl))

/-- A divisor is 1, or lies above one power of two and not above the next. -/
theorem clog2_cases {b : Nat} (hb : 1 ≤ b) :
    (b = 1 ∧ clog2 b = 0) ∨ ∃ j, clog2 b = j + 1 ∧ 2 ^ j < b ∧ b ≤ 2 ^ (j + 1) := by
  have hle : b ≤ 2 ^ clog2 b := (clog2_le_iff hb).1 le_rfl
  cases hk : clog2 b with
  | zero =>
    rw [hk] at hle
    exact .inl ⟨le_antisymm hle hb, rfl⟩
  | succ j =>
    rw [hk] at hle
    have hlt : ¬ b ≤ 2 ^ j := fun h => by
      have := (clog2_le_iff hb).2 h
      omega
    exact .inr ⟨j, rfl, Nat.not_le.1 hlt, hle⟩

/-- One bit more is the lowest bit, at the end. -/
theorem msbBits_succ_eq_append (v n : Nat) :
    msbBits v (n + 1) = msbBits (v / 2) n ++ msbBits v 1 := by
  induction n with
  | zero => rfl
  | succ n ih =>
    rw [msbBits, ih, Nat.testBit_succ]
    rfl

theorem readBits_msbBits (v n : Nat) (t : List Bool) :
    readBits (msbBits v n ++ t) n = .ok (v % 2 ^ n, t) := by
  have hroom : ¬ (msbBits v n ++ t).length < n := by
    rw [List.length_append, msbBits_length]
    omega
  rw [readBits, if_neg hroom, List.take_left' (msbBits_length v n), List.drop_left' (msbBits_length v n),
    bitsVal_msbBits]

end Sys2Proof.Machine
end

section
/-! The estimated divisor (44_golomb R283). -/

namespace Sys2Proof.Machine

theorem golombEstimate_of_ne_nil {x : List Byte} (hx : x ≠ []) :
    golombEstimate x = max 1 ((69 * (x.map BitVec.toNat).sum + 50 * x.length) / (100 * x.length)) :=
  if_neg fun h => hx (List.length_eq_zero_iff.1 h)

theorem sum_bytes_le (x : List Byte) : (x.map BitVec.toNat).sum ≤ 255 * x.length := by
  have hbyte : ∀ k ∈ x.map BitVec.toNat, k ≤ 255 := List.forall_mem_map.2 fun v _ => by omega
  have hsum := List.sum_le_card_nsmul _ 255 hbyte
  rwa [List.length_map, smul_eq_mul, Nat.mul_comm] at hsum

/-- A mean of 255 at the most gives 176 at the most. -/
theorem golombEstimate_bounds (x : List Byte) : 1 ≤ golombEstimate x ∧ golombEstimate x ≤ 176 := by
  by_cases hx : x = []
  · subst hx
    decide
  · have hpos : 0 < x.length := List.length_pos_iff.2 hx
    have hsum := sum_bytes_le x
    have hquot : (69 * (x.map BitVec.toNat).sum + 50 * x.length) / (100 * x.length) < 177 :=
      Nat.div_lt_of_lt_mul (by omega)
    rw [golombEstimate_of_ne_nil hx]
    omega

/-- Settles O54: the estimate is a quotient rounded down, or 1 where that is 0. -/
theorem golombEstimateIsTheRoundedMean : Obligations.GolombEstimateIsTheRoundedMean := by
  refine ⟨fun arg0 x => golombEncode_estimated (by decide) arg0 x, rfl, fun x hx => ?_⟩
  obtain ⟨hmin, hmax⟩ := golombEstimate_bounds x
  refine ⟨hmin, hmax, ?_⟩
  have hpos : 0 < 100 * x.length := Nat.mul_pos (by decide) (List.length_pos_iff.2 hx)
  rw [golombEstimate_of_ne_nil hx]
  generalize 69 * (x.map BitVec.toNat).sum + 50 * x.length = total
  constructor
  · calc total < 100 * x.length * (total / (100 * x.length) + 1) := Nat.lt_mul_div_succ _ hpos
      _ ≤ 100 * x.length * (max 1 (total / (100 * x.length)) + 1) :=
        Nat.mul_le_mul_left _ (Nat.succ_le_succ (le_max_right _ _))
  · rcases le_total (total / (100 * x.length)) 1 with h | h
    · exact .inl (max_eq_left h)
    · rw [max_eq_right h]
      exact .inr (Nat.mul_div_le _ _)

end Sys2Proof.Machine
end

section
/-! The bits and the lengths of Golomb codes and payloads (44_golomb R284 to R289). -/

namespace Sys2Proof.Machine

theorem unaryBits_succ (q : Nat) : unaryBits (q + 1) = true :: unaryBits q := rfl

theorem unaryBits_length (q : Nat) : (unaryBits q).length = q + 1 := by simp [unaryBits]

section
variable {b r : Nat}

theorem truncatedBits_of_short (h : r < 2 ^ clog2 b - b) :
    truncatedBits b r = msbBits r (clog2 b - 1) := if_pos h

theorem truncatedBits_of_long (h : 2 ^ clog2 b - b ≤ r) :
    truncatedBits b r = msbBits (r + (2 ^ clog2 b - b)) (clog2 b) := if_neg (Nat.not_lt.2 h)

theorem truncatedBits_length_le (b r : Nat) : (truncatedBits b r).length ≤ clog2 b := by
  rcases Nat.lt_or_ge r (2 ^ clog2 b - b) with h | h
  · rw [truncatedBits_of_short h, msbBits_length]
    exact Nat.sub_le _ _
  · rw [truncatedBits_of_long h, msbBits_length]

end

theorem golombCode_eq_replicate_append (b v : Nat) :
    golombCode b v = List.replicate (v / b) true ++ false :: truncatedBits b (v % b) :=
  List.append_assoc _ _ _

theorem golombCode_length (b v : Nat) :
    (golombCode b v).length = v / b + 1 + (truncatedBits b (v % b)).length := by
  rw [golombCode, List.length_append, unaryBits_length]

/-- Divisor 1 has no remainder to code; a larger one at least halves the quotient and has at most 32 bits of
remainder. -/
theorem golombCode_length_le {b v : Nat} (hb : 1 ≤ b) (hword : b < 2 ^ 32) (hv : v ≤ 255) :
    (golombCode b v).length ≤ 256 := by
  have htail := truncatedBits_length_le b (v % b)
  rw [golombCode_length]
  rcases Nat.eq_or_lt_of_le hb with rfl | hb2
  · have hzero : clog2 1 = 0 := rfl
    rw [Nat.div_one]
    omega
  · have hhalf : v / b ≤ v / 2 := Nat.div_le_div_left hb2 (by decide)
    have hbits : clog2 b ≤ 32 := (clog2_le_iff hb).2 hword.le
    omega

theorem golombBody_length_le {b : Nat} (hb : 1 ≤ b) (hword : b < 2 ^ 32) (x : List Byte) :
    (golombBody b x).length ≤ 256 * x.length := by
  have hcode : ∀ k ∈ x.map fun v => (golombCode b v.toNat).length, k ≤ 256 :=
    List.forall_mem_map.2 fun v _ => golombCode_length_le hb hword (by omega)
  have hsum := List.sum_le_card_nsmul _ 256 hcode
  rwa [List.length_map, smul_eq_mul, Nat.mul_comm, ← List.length_flatMap] at hsum

/-- `META` (44_golomb R285). -/
def golombMetadata (b : Nat) (x : List Byte) : List Byte :=
  beBytes (golombBody b x).length 4 ++ beBytes b 4

theorem golombMetadata_length (b : Nat) (x : List Byte) : (golombMetadata b x).length = 8 := by
  rw [golombMetadata, List.length_append, beBytes_length, beBytes_length]

theorem golombPayload_eq_container (b : Nat) (x : List Byte) :
    golombPayload b x = container .golomb x.length (golombMetadata b x) (pack (golombBody b x)) := rfl

theorem golombPayload_length (b : Nat) (x : List Byte) :
    (golombPayload b x).length = 17 + ceil8 (golombBody b x).length := by
  rw [golombPayload_eq_container, container_length, golombMetadata_length, pack_length]

/-- Settles O55: the least k is the ceiling of the logarithm, by which the remainder's two forms are told
apart. -/
theorem golombCodeBitsAndLength : Obligations.GolombCodeBitsAndLength := by
  intro b v k hb hk hleast
  obtain rfl : clog2 b = k := clog2_eq_of_least hb hk hleast
  refine ⟨fun hshort => ?_, fun hlong => ?_, fun hv hword => golombCode_length_le hb hword hv, ?_,
    fun x => ⟨rfl, golombPayload_length b x, fun hword => golombBody_length_le hb hword x⟩⟩
  · rw [golombCode_length, golombCode_eq_replicate_append, truncatedBits_of_short hshort, msbBits_length,
      msbBits_eq_map]
    exact ⟨rfl, rfl⟩
  · rw [golombCode_length, golombCode_eq_replicate_append, truncatedBits_of_long hlong, msbBits_length,
      msbBits_eq_map]
    exact ⟨rfl, rfl⟩
  · rw [golombCode_length]
    rfl

end Sys2Proof.Machine
end

section
/-! The reference decoder takes one Golomb code off the bits, whatever follows (44_golomb R290;
48_reference_decoders R368). -/

namespace Sys2Proof.Machine

/-- The decoder counts the ones as long as a byte could need as many. -/
theorem readUnary_unaryBits {b q k : Nat} (h : (k + q) * b ≤ 255) (t : List Bool) :
    readUnary b k (unaryBits q ++ t) = .ok (k + q, t) := by
  induction q generalizing k with
  | zero => rfl
  | succ q ih =>
    have hrest : (k + 1 + q) * b ≤ 255 := by rwa [Nat.add_right_comm]
    have hnext : (k + 1) * b ≤ 255 :=
      (Nat.mul_le_mul_right b (Nat.le_add_right (k + 1) q)).trans hrest
    rw [unaryBits_succ, List.cons_append, readUnary, if_neg (Nat.not_lt.2 hnext), ih hrest,
      Nat.add_right_comm, Nat.add_assoc]

/-- The first k - 1 bits tell a short remainder, which is below 2^k - b, from a long one. -/
theorem readRemainder_truncatedBits {b r : Nat} (hr : r < b) (t : List Bool) :
    readRemainder b (truncatedBits b r ++ t) = .ok (r, t) := by
  rcases clog2_cases (show 1 ≤ b by omega) with ⟨rfl, hk⟩ | ⟨j, hk, hlo, hhi⟩
  · obtain rfl : r = 0 := by omega
    rfl
  rw [readRemainder, hk, if_neg (Nat.succ_ne_zero j), Nat.add_sub_cancel]
  rw [Nat.pow_succ] at hhi ⊢
  rcases Nat.lt_or_ge r (2 ^ j * 2 - b) with h | h
  · have hz : r % 2 ^ j = r := Nat.mod_eq_of_lt (by omega)
    rw [truncatedBits_of_short (by rwa [hk, Nat.pow_succ]), hk, Nat.add_sub_cancel, readBits_msbBits]
    simp only [hz, if_pos h]
  · have hz : (r + (2 ^ j * 2 - b)) / 2 % 2 ^ j = (r + (2 ^ j * 2 - b)) / 2 :=
      Nat.mod_eq_of_lt (by omega)
    have hlong : ¬ (r + (2 ^ j * 2 - b)) / 2 < 2 ^ j * 2 - b := by omega
    rw [truncatedBits_of_long (by rwa [hk, Nat.pow_succ]), hk, Nat.pow_succ, msbBits_succ_eq_append,
      List.append_assoc, readBits_msbBits]
    simp only [hz, if_neg hlong, readBits_msbBits]
    congr 2
    omega

theorem readGolomb_golombCode {b : Nat} (hb : 1 ≤ b) (v : Byte) (t : List Bool) :
    readGolomb b (golombCode b v.toNat ++ t) = .ok (v, t) := by
  have hsplit : v.toNat / b * b + v.toNat % b = v.toNat := Nat.div_add_mod' _ _
  have hquot : (0 + v.toNat / b) * b ≤ 255 := by
    rw [Nat.zero_add]
    omega
  have hbyte : ¬ v.toNat > 255 := by omega
  rw [readGolomb, golombCode, List.append_assoc, readUnary_unaryBits hquot]
  simp only [readRemainder_truncatedBits (Nat.mod_lt v.toNat hb), Nat.zero_add, hsplit, if_neg hbyte,
    BitVec.ofNat_toNat, BitVec.setWidth_eq]

theorem readGolombs_golombBody {b : Nat} (hb : 1 ≤ b) (x : List Byte) :
    readGolombs b x.length (golombBody b x) = .ok x := by
  induction x with
  | nil => rfl
  | cons v x ih =>
    have hbody : golombBody b (v :: x) = golombCode b v.toNat ++ golombBody b x := rfl
    rw [hbody, List.length_cons, readGolombs, readGolomb_golombCode hb]
    simp only [ih]

/-! ## No code begins another -/

/-- The zero ends the unary part, so it can be told from what follows. -/
theorem unaryBits_append_inj {q q' : Nat} {t t' : List Bool}
    (h : unaryBits q ++ t = unaryBits q' ++ t') : q = q' ∧ t = t' := by
  induction q generalizing q' with
  | zero =>
    cases q' with
    | zero => exact ⟨rfl, List.tail_eq_of_cons_eq h⟩
    | succ q' => cases List.head_eq_of_cons_eq h
  | succ q ih =>
    cases q' with
    | zero => cases List.head_eq_of_cons_eq h
    | succ q' =>
      obtain ⟨rfl, ht⟩ := ih (List.tail_eq_of_cons_eq h)
      exact ⟨rfl, ht⟩

theorem truncatedBits_append_inj {b r r' : Nat} (hr : r < b) (hr' : r' < b) {t t' : List Bool}
    (h : truncatedBits b r ++ t = truncatedBits b r' ++ t') : r = r' := by
  have hread := readRemainder_truncatedBits hr t
  rw [h, readRemainder_truncatedBits hr'] at hread
  cases hread
  rfl

theorem eq_of_golombCode_prefix {b v v' : Nat} (hb : 1 ≤ b) (h : golombCode b v <+: golombCode b v') :
    v = v' := by
  obtain ⟨t, ht⟩ := h
  rw [golombCode, golombCode, List.append_assoc] at ht
  obtain ⟨hquot, hrest⟩ := unaryBits_append_inj ht
  have hrem : v % b = v' % b :=
    truncatedBits_append_inj (t := t) (t' := []) (Nat.mod_lt _ hb) (Nat.mod_lt _ hb)
      (by rwa [List.append_nil])
  rw [← Nat.div_add_mod v b, hquot, hrem, Nat.div_add_mod]

/-- Settles O56: the zero ends the quotient, and since the decoder recovers a remainder whatever follows, its
bits begin those of no other. -/
theorem golombCodesArePrefixFreeAndInvertible : Obligations.GolombCodesArePrefixFreeAndInvertible :=
  fun _ hb => ⟨fun _ _ => eq_of_golombCode_prefix hb, readGolomb_golombCode hb⟩

end Sys2Proof.Machine
end

section
/-! GOL.ENC (44_golomb R280 to R285) and its decoder (48_reference_decoders R368). -/

namespace Sys2Proof.Machine

/-- DEC_GOL gives the input back where n, b and the number of body bits fit their fields (48 R370). -/
theorem decGol_golombPayload {b : Nat} {x : List Byte} (hx : x.length < 2 ^ 32) (hb : 1 ≤ b)
    (hword : b < 2 ^ 32) (hbits : (golombBody b x).length < 2 ^ 32) :
    decGol (golombPayload b x) = .ok x := by
  have hmetadata := golombMetadata_length b x
  have hparse := parsePayload_container .golomb (pack (golombBody b x)) hx
    (show (golombMetadata b x).length < 2 ^ 32 by omega)
  have hdivisor : unbe ((golombMetadata b x).drop 4) = b := by
    have hdrop : (golombMetadata b x).drop 4 = beBytes b 4 := rfl
    rw [hdrop, unbe_beBytes_four hword]
  have hbody : bodyBits (golombMetadata b x) (pack (golombBody b x)) = .ok (golombBody b x) :=
    bodyBits_pack hbits _
  rw [decGol, golombPayload_eq_container, hparse]
  simp only [hdivisor, hbody, readGolombs_golombBody hb]
  rw [if_neg (not_not_intro hmetadata), if_neg (by omega)]

theorem golombPayload_layout (b : Nat) (x : List Byte) :
    golombPayload b x = 0x03 :: beBytes x.length 4 ++ [0x00, 0x00, 0x00, 0x08] ++
      beBytes (golombBody b x).length 4 ++ beBytes b 4 ++ pack (golombBody b x) := by
  have height : beBytes 8 4 = [0x00, 0x00, 0x00, 0x08] := rfl
  rw [golombPayload_eq_container, container, golombMetadata_length, height, golombMetadata,
    Codec.algorithmId]
  simp only [List.append_assoc]

/-- `b` is the divisor that GOL.ENC in mode m codes x with, where ARG0 is v (44_golomb R280, R282, R283). -/
def IsGolombDivisor (m : Byte) (v : Word) (x : List Byte) (b : Nat) : Prop :=
  m.toNat = 0 ∧ v.toNat ≠ 0 ∧ b = v.toNat ∨ m.toNat = 1 ∧ b = golombEstimate x

namespace IsGolombDivisor
variable {m : Byte} {v : Word} {x : List Byte} {b : Nat}

theorem wellFormed (h : IsGolombDivisor m v x b) : (Instr.golEnc m).wellFormed := by
  refine if_pos ?_
  rcases h with ⟨hm, _⟩ | ⟨hm, _⟩ <;> omega

theorem golombEncode_eq (h : IsGolombDivisor m v x b) :
    golombEncode m v x = .ok (golombPayload b x) := by
  rcases h with ⟨hm, hv, rfl⟩ | ⟨hm, rfl⟩
  · obtain rfl : m = 0 := BitVec.eq_of_toNat_eq hm
    exact golombEncode_supplied hv x
  · obtain rfl : m = 1 := BitVec.eq_of_toNat_eq hm
    exact golombEncode_estimated (by decide) v x

theorem bounds (h : IsGolombDivisor m v x b) : 1 ≤ b ∧ b < 2 ^ 32 := by
  rcases h with ⟨_, hv, rfl⟩ | ⟨_, rfl⟩
  · exact ⟨Nat.one_le_iff_ne_zero.2 hv, v.isLt⟩
  · have := golombEstimate_bounds x
    omega

end IsGolombDivisor

/-- Settles O39: in both modes the divisor is a nonzero word, so the payload holds it in full and its codes
are read back; a payload that fits OUT has fewer than 2^32 body bits. -/
theorem golEncodeWritesADecodablePayload : Obligations.GolEncodeWritesADecodablePayload := by
  intro s m b x hwf hdivisor hl hc hx
  replace hdivisor : IsGolombDivisor m s.arg0 x b := hdivisor
  obtain ⟨hb, hword⟩ := hdivisor.bounds
  have hlength := golombPayload_length b x
  refine ⟨?_, fun hfit => ?_⟩
  · have := golombBody_length_le hb hword x
    rw [hlength, ceil8]
    omega
  · have hn : x.length < 2 ^ 32 := hl ▸ s.inLen.isLt
    have hbits : (golombBody b x).length < 2 ^ 32 := by
      obtain ⟨_, ⟨_, hout⟩, _⟩ := hwf
      have := le_eight_mul_ceil8 (golombBody b x).length
      omega
    obtain ⟨o, hexec, ho⟩ :=
      encodeWith_stores (encode (.golEnc m)) hl hc hx hdivisor.golombEncode_eq hfit
    rw [exec, execGolEnc, checked_of_wellFormed hdivisor.wellFormed]
    exact ⟨o, hexec, ho, golombPayload_layout b x, decGol_golombPayload hn hb hword hbits⟩

/-- An encode whose codec refuses the formed input fails with the codec's error. -/
theorem encodeWith_of_error {s : State} {x : List Byte} {e : ErrorKind}
    {payload : List Byte → Except ErrorKind (List Byte)} (w : Word) (hl : s.inLen.toNat = x.length)
    (hc : x.length ≤ s.params.inCap) (hx : ∀ a, a < x.length → s.input.read a = x[a]?)
    (he : payload x = .error e) : encodeWith w payload s = .next (s.raiseEncode e w) := by
  rw [encodeWith_of_input w payload hl hc hx, he]

theorem golombEncode_zero (x : List Byte) :
    golombEncode 0 0x00000000 x = .error .configuration := rfl

/-- Settles O44: the input is formed, and then the codec refuses the divisor, whatever the input is. -/
theorem golEncodeWithZeroDivisorFails : Obligations.GolEncodeWithZeroDivisorFails := by
  intro s harg hc hwritten
  obtain ⟨x, hread⟩ := Memory.exists_readBytes_ok hwritten
  obtain ⟨hl, hx⟩ := Memory.readBytes_ok hread
  rw [← hl] at hc hx
  exact encodeWith_of_error (encode (.golEnc 0)) hl.symm hc (fun a ha => by simpa using hx a ha)
    (harg ▸ golombEncode_zero x)

end Sys2Proof.Machine
end

section
/-! The width of an LZW code, and the body as codes in their widths (45_lzw R325). -/

namespace Sys2Proof.Machine

theorem lt_two_pow_bitlen (v : Nat) : v < 2 ^ bitlen v := bitlen_le_iff.1 le_rfl

theorem two_pow_bitlen_pred_le {v : Nat} (hv : v ≠ 0) : 2 ^ (bitlen v - 1) ≤ v := by
  by_contra hlt
  have hle := bitlen_le_iff.2 (Nat.not_le.1 hlt)
  have hzero : bitlen v = 0 := by omega
  exact hv (Nat.lt_one_iff.1 (bitlen_le_iff.1 hzero.le))

/-- A dictionary that is full needs all W bits for its largest code. -/
theorem bitlen_two_pow_pred {W : Nat} (hW : 1 ≤ W) : bitlen (2 ^ W - 1) = W := by
  obtain ⟨j, rfl⟩ := Nat.exists_eq_add_of_le' hW
  have hpos : 0 < 2 ^ j := Nat.two_pow_pos j
  have hlong : ¬ bitlen (2 ^ (j + 1) - 1) ≤ j := fun h => by
    have := bitlen_le_iff.1 h
    omega
  have hfits : bitlen (2 ^ (j + 1) - 1) ≤ j + 1 := bitlen_le_iff.2 (by omega)
  omega

theorem lzwWidth_le (k W : Nat) : lzwWidth k W ≤ W := by
  have := Nat.two_pow_pos W
  exact bitlen_le_iff.2 (by omega)

theorem lt_two_pow_lzwWidth {c k W : Nat} (hc : c < min (256 + k) (2 ^ W)) : c < 2 ^ lzwWidth k W :=
  (Nat.le_sub_one_of_lt hc).trans_lt (lt_two_pow_bitlen _)

theorem lzwPut_eq_flatMap (W k : Nat) (codes : List Nat) :
    lzwPut W k codes = (codes.zipIdx k).flatMap fun p => msbBits p.1 (lzwWidth p.2 W) := by
  induction codes generalizing k with
  | nil => rfl
  | cons c codes ih => rw [lzwPut, ih, List.zipIdx_cons, List.flatMap_cons]

theorem lzwPut_length_le (W k : Nat) (codes : List Nat) :
    (lzwPut W k codes).length ≤ W * codes.length := by
  induction codes generalizing k with
  | nil => exact Nat.zero_le _
  | cons c codes ih =>
    have hwidth := lzwWidth_le k W
    have hrest := ih (k + 1)
    rw [lzwPut, List.length_append, msbBits_length, List.length_cons, Nat.mul_succ]
    omega

/-- Settles O57: the width is the number of bits of the largest code, and W bits hold any code below 2^W. -/
theorem lzwWidthIsThatOfTheLargestCode : Obligations.LzwWidthIsThatOfTheLargestCode := by
  intro k W hmin _
  have hpow : 2 ^ 9 ≤ 2 ^ W := Nat.pow_le_pow_right (by decide) hmin
  refine ⟨fun x => ?_, lt_two_pow_bitlen _, two_pow_bitlen_pred_le (by omega), lzwWidth_le k W,
    fun hfull => ?_⟩
  · simp only [← msbBits_eq_map]
    exact lzwPut_eq_flatMap W 0 _
  · rw [lzwWidth, min_eq_right hfull, bitlen_two_pow_pred (by omega)]

end Sys2Proof.Machine
end

section
/-! The dictionary of LZW: what an insertion does, and many of them (45_lzw R321, R323, R327). -/

namespace Sys2Proof.Machine

theorem lzwInsert_cases (W : Nat) (D : List (List Byte)) (e : List Byte) :
    (D.length < 2 ^ W ∧ lzwInsert W D e = D ++ [e]) ∨ (2 ^ W ≤ D.length ∧ lzwInsert W D e = D) := by
  rcases Nat.lt_or_ge D.length (2 ^ W) with h | h
  · exact .inl ⟨h, if_pos h⟩
  · exact .inr ⟨h, if_neg (Nat.not_lt.2 h)⟩

section
variable {W : Nat} {D : List (List Byte)}

theorem mem_lzwInsert_of_mem {d : List Byte} (h : d ∈ D) (e : List Byte) : d ∈ lzwInsert W D e := by
  rcases lzwInsert_cases W D e with ⟨_, he⟩ | ⟨_, he⟩
  · rw [he]
    exact List.mem_append_left _ h
  · rwa [he]

theorem lzwInsert_length (h : D.length ≤ 2 ^ W) (e : List Byte) :
    (lzwInsert W D e).length = min (D.length + 1) (2 ^ W) := by
  rcases lzwInsert_cases W D e with ⟨hroom, he⟩ | ⟨hfull, he⟩
  · rw [he, List.length_append, List.length_singleton]
    omega
  · rw [he]
    omega

theorem lzwInsert_length_le (h : D.length ≤ 2 ^ W) (e : List Byte) : (lzwInsert W D e).length ≤ 2 ^ W :=
  (lzwInsert_length h e).trans_le (min_le_right _ _)

theorem lzwGrow_length_le (h : D.length ≤ 2 ^ W) (prev : Option (List Byte)) (e : List Byte) :
    (lzwGrow W D prev e).length ≤ 2 ^ W := by
  cases prev with
  | none => exact h
  | some p => exact lzwInsert_length_le h _

/-- Insertions in order put the new entries at the end, cut off at 2^W. -/
theorem foldl_lzwInsert (h : D.length ≤ 2 ^ W) (es : List (List Byte)) :
    es.foldl (lzwInsert W) D = (D ++ es).take (2 ^ W) := by
  induction es generalizing D with
  | nil => rw [List.foldl_nil, List.append_nil, List.take_of_length_le h]
  | cons e es ih =>
    rw [List.foldl_cons, ih (lzwInsert_length_le h e)]
    rcases lzwInsert_cases W D e with ⟨_, he⟩ | ⟨hfull, he⟩
    · rw [he, List.append_assoc, List.singleton_append]
    · rw [he, List.take_append_of_le_length hfull, List.take_append_of_le_length hfull]

theorem foldl_lzwInsert_length (h : D.length ≤ 2 ^ W) (es : List (List Byte)) :
    (es.foldl (lzwInsert W) D).length = min (D.length + es.length) (2 ^ W) := by
  rw [foldl_lzwInsert h, List.length_take, List.length_append, min_comm]

end

theorem getElem?_lzwCode {D : List (List Byte)} {e : List Byte} (h : e ∈ D) :
    D[lzwCode D e]? = some e := by
  have hlt : D.findIdx (fun d => d == e) < D.length :=
    List.findIdx_lt_length_of_exists ⟨e, h, beq_self_eq_true e⟩
  rw [lzwCode, List.getElem?_eq_getElem hlt]
  exact congrArg some (eq_of_beq (List.findIdx_getElem (w := hlt)))

theorem byte_mem_lzwInitial (b : Byte) : [b] ∈ lzwInitial :=
  List.mem_map.2 ⟨b.toNat, List.mem_range.2 b.isLt, by rw [BitVec.ofNat_toNat, BitVec.setWidth_eq]⟩

theorem lzwInitial_length_le {W : Nat} (hW : 9 ≤ W) : lzwInitial.length ≤ 2 ^ W := by
  have hpow : 2 ^ 9 ≤ 2 ^ W := Nat.pow_le_pow_right (by decide) hW
  rw [lzwInitial_length]
  omega

end Sys2Proof.Machine
end

section
/-! What the LZW scan keeps (45_lzw R322), and the sequences its codes name: a parse of the input, from which
the encoder's statements and the decoder's follow. -/

namespace Sys2Proof.Machine

/-! ## The state between two input bytes -/

/-- Every byte has its code, the current sequence is in the dictionary, and the dictionary has grown by one
entry for each code, up to 2^W. -/
structure LzwState.Inv (W : Nat) (t : LzwState) : Prop where
  bytes : ∀ b : Byte, [b] ∈ t.dictionary
  current : t.current = [] ∨ t.current ∈ t.dictionary
  size : t.dictionary.length = min (256 + t.codes.length) (2 ^ W)

theorem lzwStart_inv {W : Nat} (hW : 9 ≤ W) : lzwStart.Inv W where
  bytes := byte_mem_lzwInitial
  current := .inl rfl
  size := by
    have hle := lzwInitial_length_le hW
    rw [lzwInitial_length] at hle
    rw [lzwStart_dictionary, lzwStart_codes, lzwInitial_length, List.length_nil, Nat.add_zero,
      min_eq_left hle]

theorem LzwState.Inv.step {W : Nat} {t : LzwState} (h : t.Inv W) (c : Byte) : (lzwStep W t c).Inv W := by
  rcases lzwStep_cases W t c with ⟨hmem, hstep⟩ | ⟨_, hstep⟩
  · rw [hstep]
    exact ⟨h.bytes, .inr hmem, h.size⟩
  · rw [hstep]
    have hbytes : ∀ b : Byte, [b] ∈ lzwInsert W t.dictionary (t.current ++ [c]) := fun b =>
      mem_lzwInsert_of_mem (h.bytes b) _
    refine ⟨hbytes, .inr (hbytes c), ?_⟩
    have hsize := h.size
    rw [lzwInsert_length (hsize.trans_le (min_le_right _ _)), List.length_append, List.length_singleton]
    omega

theorem lzwScan_inv {W : Nat} (hW : 9 ≤ W) (x : List Byte) : (lzwScan W x).Inv W :=
  List.foldlRecOn x (lzwStep W) (lzwStart_inv hW) fun _ h c _ => h.step c

/-! ## The parse -/

/-- `parts` are the sequences that `codes` name, each longest where it stands: D is the dictionary before the
first code, and each later one has the sequence before it with the next byte (45_lzw R322 to R324). -/
inductive LzwParse (W : Nat) : List (List Byte) → List (List Byte) → List Nat → Prop
  | nil (D : List (List Byte)) : LzwParse W D [] []
  | cons {D parts : List (List Byte)} {p : List Byte} {c : Nat} {codes : List Nat} (hne : p ≠ [])
      (hcode : D[c]? = some p) (hlongest : ∀ q ∈ parts.head?, p ++ q.take 1 ∉ D)
      (hrest : LzwParse W (lzwInsert W D (p ++ (parts.headD []).take 1)) parts codes) :
      LzwParse W D (p :: parts) (c :: codes)

/-- The codes after the end of the input (45_lzw R324). -/
def LzwState.finish (t : LzwState) : List Nat :=
  if t.current.isEmpty then t.codes else t.codes ++ [lzwCode t.dictionary t.current]

theorem lzwCodes_eq_finish (W : Nat) (x : List Byte) : lzwCodes W x = (lzwScan W x).finish := rfl

theorem exists_cons_of_flatten_eq_cons {parts : List (List Byte)} {c : Byte} {x : List Byte}
    (hne : ∀ p ∈ parts, p ≠ []) (h : parts.flatten = c :: x) :
    ∃ q rest, parts = q :: rest ∧ q.take 1 = [c] := by
  match parts with
  | [] => cases h
  | [] :: rest => exact absurd rfl (hne [] List.mem_cons_self)
  | (b :: q) :: rest =>
    cases h
    exact ⟨_, _, rfl, rfl⟩

section
variable {W : Nat} {D parts : List (List Byte)} {codes : List Nat}

theorem LzwParse.ne_nil (h : LzwParse W D parts codes) : ∀ p ∈ parts, p ≠ [] := by
  induction h with
  | nil D => simp
  | cons hne hcode hlongest hrest ih => exact List.forall_mem_cons.2 ⟨hne, ih⟩

theorem LzwParse.length_eq (h : LzwParse W D parts codes) : parts.length = codes.length := by
  induction h with
  | nil D => rfl
  | cons hne hcode hlongest hrest ih => rw [List.length_cons, ih, List.length_cons]

end

/-- From any state the scan is in, the codes it goes on to emit are a parse of the current sequence and the
input left. -/
theorem exists_lzwParse_of_inv {W : Nat} {t : LzwState} (ht : t.Inv W) (x : List Byte) :
    ∃ parts codes, (x.foldl (lzwStep W) t).finish = t.codes ++ codes ∧
      parts.flatten = t.current ++ x ∧ LzwParse W t.dictionary parts codes := by
  induction x generalizing t with
  | nil =>
    rcases eq_or_ne t.current [] with hcur | hcur
    · exact ⟨[], [], by simp [LzwState.finish, hcur], by simp [hcur], .nil _⟩
    · have hmem := ht.current.resolve_left hcur
      exact ⟨[t.current], [lzwCode t.dictionary t.current], by simp [LzwState.finish, hcur], by simp,
        .cons hcur (getElem?_lzwCode hmem) (by simp) (.nil _)⟩
  | cons c x ih =>
    obtain ⟨parts, codes, hfinish, hflatten, hparse⟩ := ih (ht.step c)
    rw [List.foldl_cons, hfinish]
    rcases lzwStep_cases W t c with ⟨_, hstep⟩ | ⟨hnew, hstep⟩
    · rw [hstep] at hflatten hparse ⊢
      exact ⟨parts, codes, rfl, by simpa using hflatten, hparse⟩
    · rw [hstep] at hflatten hparse ⊢
      have hcur : t.current ≠ [] := fun h => hnew (by simpa [h] using ht.bytes c)
      obtain ⟨q, rest, rfl, hq⟩ := exists_cons_of_flatten_eq_cons hparse.ne_nil hflatten
      refine ⟨t.current :: q :: rest, lzwCode t.dictionary t.current :: codes, by simp,
        by rw [List.flatten_cons, hflatten]; rfl, ?_⟩
      refine .cons hcur (getElem?_lzwCode (ht.current.resolve_left hcur)) ?_ ?_
      · simpa [hq] using hnew
      · simpa [hq] using hparse

theorem exists_lzwParse {W : Nat} (hW : 9 ≤ W) (x : List Byte) :
    ∃ parts, parts.flatten = x ∧ LzwParse W lzwInitial parts (lzwCodes W x) := by
  obtain ⟨parts, codes, hfinish, hflatten, hparse⟩ := exists_lzwParse_of_inv (lzwStart_inv hW) x
  obtain rfl : lzwCodes W x = codes := hfinish
  exact ⟨parts, hflatten, hparse⟩

theorem lzwScan_codes_prefix {W : Nat} (hW : 9 ≤ W) {x y : List Byte} (h : y <+: x) :
    (lzwScan W y).codes <+: lzwCodes W x := by
  obtain ⟨z, rfl⟩ := h
  obtain ⟨_, codes, hfinish, _⟩ := exists_lzwParse_of_inv (lzwScan_inv hW y) z
  exact ⟨codes, by rw [lzwCodes_eq_finish, lzwScan_append, hfinish]⟩

/-! ## The dictionary before the k-th code -/

/-- The entry the j-th code brings in: its sequence with the next input byte (45_lzw R323). -/
def lzwEntryAt (parts : List (List Byte)) (j : Nat) : List Byte :=
  parts.getD j [] ++ (parts.getD (j + 1) []).take 1

/-- The dictionary D with the entries of the first k codes inserted. -/
def lzwDictionaryAt (W : Nat) (D parts : List (List Byte)) (k : Nat) : List (List Byte) :=
  ((List.range k).map (lzwEntryAt parts)).foldl (lzwInsert W) D

section
variable {W : Nat} {D parts : List (List Byte)} {codes : List Nat}

theorem lzwDictionaryAt_cons_succ (p : List Byte) (k : Nat) :
    lzwDictionaryAt W D (p :: parts) (k + 1) =
      lzwDictionaryAt W (lzwInsert W D (p ++ (parts.headD []).take 1)) parts k := by
  have hfirst : lzwEntryAt (p :: parts) 0 = p ++ (parts.headD []).take 1 := by cases parts <;> rfl
  rw [lzwDictionaryAt, List.range_succ_eq_map, List.map_cons, List.map_map, List.foldl_cons, hfirst]
  rfl

theorem lzwDictionaryAt_length (h : D.length ≤ 2 ^ W) (k : Nat) :
    (lzwDictionaryAt W D parts k).length = min (D.length + k) (2 ^ W) := by
  rw [lzwDictionaryAt, foldl_lzwInsert_length h, List.length_map, List.length_range]

theorem LzwParse.code_names_longest (h : LzwParse W D parts codes) {k c : Nat} {p : List Byte}
    (hp : parts[k]? = some p) (hc : codes[k]? = some c) :
    (lzwDictionaryAt W D parts k)[c]? = some p ∧
      ∀ q, parts[k + 1]? = some q → p ++ q.take 1 ∉ lzwDictionaryAt W D parts k := by
  induction h generalizing k with
  | nil D => cases hp
  | @cons D parts p' c' codes hne hcode hlongest hrest ih =>
    cases k with
    | zero =>
      cases hp
      cases hc
      exact ⟨hcode, fun q hq => hlongest q (by rwa [List.head?_eq_getElem?])⟩
    | succ k =>
      rw [lzwDictionaryAt_cons_succ]
      exact ih hp hc

end

/-- Settles O58: the scan's parse, whose dictionaries are the initial one with the entries inserted. -/
theorem lzwCodesNameTheLongestEntries : Obligations.LzwCodesNameTheLongestEntries := by
  intro W x hmin _
  obtain ⟨parts, hflatten, hparse⟩ := exists_lzwParse hmin x
  refine ⟨parts, hflatten, hparse.ne_nil, hparse.length_eq, fun k p c D hp hc hD => ?_⟩
  obtain rfl : D = lzwDictionaryAt W lzwInitial parts k :=
    hD.trans (foldl_lzwInsert (lzwInitial_length_le hmin) _).symm
  exact hparse.code_names_longest hp hc

end Sys2Proof.Machine
end

section
/-! The bounds of an LZW encode (45_lzw R326, R329). -/

namespace Sys2Proof.Machine

theorem length_le_flatten_length {parts : List (List Byte)} (hne : ∀ p ∈ parts, p ≠ []) :
    parts.length ≤ parts.flatten.length := by
  induction parts with
  | nil => exact le_rfl
  | cons p parts ih =>
    obtain ⟨hp, hrest⟩ := List.forall_mem_cons.1 hne
    have hpos := List.length_pos_iff.2 hp
    have hle := ih hrest
    rw [List.length_cons, List.flatten_cons, List.length_append]
    omega

section
variable {W : Nat} (hW : 9 ≤ W)
include hW

/-- Each code names a nonempty part of the input. -/
theorem lzwCodes_length_le (x : List Byte) : (lzwCodes W x).length ≤ x.length := by
  obtain ⟨parts, rfl, hparse⟩ := exists_lzwParse hW x
  rw [← hparse.length_eq]
  exact length_le_flatten_length hparse.ne_nil

theorem lzwCodes_length_pos {x : List Byte} (hx : 1 ≤ x.length) : 1 ≤ (lzwCodes W x).length := by
  obtain ⟨parts, rfl, hparse⟩ := exists_lzwParse hW x
  rw [← hparse.length_eq]
  refine List.length_pos_iff.2 fun hnil => ?_
  rw [hnil] at hx
  exact absurd hx (by decide)

/-- The k-th code lies in the dictionary it is looked up in, which has k entries more than at the start. -/
theorem lzwCodes_lt {x : List Byte} {k c : Nat} (hc : (lzwCodes W x)[k]? = some c) :
    c < min (256 + k) (2 ^ W) := by
  obtain ⟨parts, -, hparse⟩ := exists_lzwParse hW x
  obtain ⟨hk, -⟩ := List.getElem?_eq_some_iff.1 hc
  rw [← hparse.length_eq] at hk
  obtain ⟨hname, -⟩ := hparse.code_names_longest (List.getElem?_eq_getElem hk) hc
  obtain ⟨hlt, -⟩ := List.getElem?_eq_some_iff.1 hname
  rwa [lzwDictionaryAt_length (lzwInitial_length_le hW), lzwInitial_length] at hlt

theorem lzwBody_length_le (hmax : W ≤ 16) (x : List Byte) : (lzwBody W x).length ≤ 16 * x.length :=
  (lzwPut_length_le W 0 _).trans (Nat.mul_le_mul hmax (lzwCodes_length_le hW x))

end

/-- `META` (45_lzw R326). -/
def lzwMetadata (W : Nat) (x : List Byte) : List Byte :=
  beBytes (lzwBody W x).length 4 ++ [BitVec.ofNat 8 W, 0x00]

theorem lzwMetadata_length (W : Nat) (x : List Byte) : (lzwMetadata W x).length = 6 := by
  rw [lzwMetadata, List.length_append, beBytes_length, List.length_cons, List.length_singleton]

theorem lzwPayload_eq_container (W : Nat) (x : List Byte) :
    lzwPayload W x = container .lzw x.length (lzwMetadata W x) (pack (lzwBody W x)) := rfl

theorem lzwPayload_length (W : Nat) (x : List Byte) :
    (lzwPayload W x).length = 15 + ceil8 (lzwBody W x).length := by
  rw [lzwPayload_eq_container, container_length, lzwMetadata_length, pack_length]

theorem lzwPayload_length_le {W : Nat} (hmin : 9 ≤ W) (hmax : W ≤ 16) (x : List Byte) :
    (lzwPayload W x).length ≤ 15 + 2 * x.length := by
  have hbody := lzwBody_length_le hmin hmax x
  rw [lzwPayload_length, ceil8]
  omega

/-- Settles O59: the scan's invariant gives the size of its dictionary, its parse the number of the codes and
their values. -/
theorem lzwBounds : Obligations.LzwBounds := by
  intro W x hmin hmax
  refine ⟨fun y hy => ?_, lzwCodes_length_le hmin x, lzwCodes_length_pos hmin, fun k c hc => ?_,
    lzwBody_length_le hmin hmax x, lzwPayload_length_le hmin hmax x, lzwInitial_length_le hmin,
    fun D prev e hD => ⟨lzwInsert_length_le hD e, lzwGrow_length_le hD prev e⟩⟩
  · have hsize := (lzwScan_inv hmin y).size
    exact ⟨hsize, hsize.trans_le (min_le_right _ _), lzwScan_codes_prefix hmin hy⟩
  · have hlt := lzwCodes_lt hmin hc
    exact ⟨hlt, lt_two_pow_lzwWidth hlt⟩

end Sys2Proof.Machine
end

section
/-! DEC_LZW undoes LZW.ENC: its dictionary is one entry behind the encoder's, and the entry it lacks is
the one that the sequence before and the code just read define (48_reference_decoders R369). -/

namespace Sys2Proof.Machine

/-- What the decoder rests on before a code: there is a nonempty sequence before it, or it is the first and
the dictionary holds the bytes alone. -/
def LzwDecoderReady (D : List (List Byte)) : Option (List Byte) → Prop
  | none => D.length = 256
  | some r => r ≠ []

theorem lzwEntry_of_lt {W c : Nat} {D : List (List Byte)} {prev : Option (List Byte)} {p : List Byte}
    (hready : LzwDecoderReady D prev) (hc : D[c]? = some p) : lzwEntry W D prev c = .ok p := by
  obtain ⟨hlt, -⟩ := List.getElem?_eq_some_iff.1 hc
  have hget : D.getD c [] = p := by rw [List.getD_eq_getElem?_getD, hc, Option.getD_some]
  cases prev with
  | none =>
    have hsize : D.length = 256 := hready
    rw [lzwEntry, if_neg (by omega), hget]
  | some r => rw [lzwEntry, if_pos hlt, hget]

/-- A code of the encoder's dictionary names the same sequence to the decoder, also where it is the entry
being defined (the KwKwK case): then the sequence begins with the one before it. -/
theorem lzwEntry_of_lzwGrow {W c : Nat} {D : List (List Byte)} {prev : Option (List Byte)} {p : List Byte}
    (hready : LzwDecoderReady D prev) (hc : (lzwGrow W D prev p)[c]? = some p) :
    lzwEntry W D prev c = .ok p := by
  cases prev with
  | none => exact lzwEntry_of_lt hready hc
  | some r =>
    rw [lzwGrow] at hc
    rcases lzwInsert_cases W D (r ++ p.take 1) with ⟨hroom, hinsert⟩ | ⟨_, hinsert⟩
    · rw [hinsert] at hc
      rcases Nat.lt_or_ge c D.length with hlt | hge
      · exact lzwEntry_of_lt hready (by rwa [List.getElem?_append_left hlt] at hc)
      · rw [List.getElem?_append_right hge, List.getElem?_singleton] at hc
        obtain ⟨hlast, hp⟩ : c - D.length = 0 ∧ r ++ p.take 1 = p := by simpa using hc
        obtain ⟨b, r, rfl⟩ := List.exists_cons_of_ne_nil hready
        obtain ⟨p, rfl⟩ : ∃ p', p = b :: p' := ⟨_, hp.symm⟩
        rw [lzwEntry, if_neg (by omega), if_pos (by omega)]
        exact congrArg _ hp
    · exact lzwEntry_of_lt hready (by rwa [hinsert] at hc)

/-- One turn of the loop reads one code and adds its sequence. -/
theorem lzwUnscan_turn {W n fuel k c : Nat} {D : List (List Byte)} {prev : Option (List Byte)}
    {p y : List Byte} {t : List Bool} (hready : LzwDecoderReady D prev) (hne : p ≠ [])
    (hname : (lzwGrow W D prev p)[c]? = some p) (hlt : c < 2 ^ lzwWidth k W)
    (hn : (y ++ p).length ≤ n) :
    lzwUnscan W n (fuel + 1) k D prev y (msbBits c (lzwWidth k W) ++ t) =
      lzwUnscan W n fuel (k + 1) (lzwGrow W D prev p) (some p) (y ++ p) t := by
  have hmore : ¬ y.length ≥ n := by
    have hpos := List.length_pos_iff.2 hne
    rw [List.length_append] at hn
    omega
  rw [lzwUnscan, if_neg hmore, readBits_msbBits, Nat.mod_eq_of_lt hlt]
  simp only [lzwEntry_of_lzwGrow hready hname, if_neg (Nat.not_lt.2 hn)]

theorem lzwUnscan_of_done {W n : Nat} {y : List Byte} (hn : n ≤ y.length) (fuel k : Nat)
    (D : List (List Byte)) (prev : Option (List Byte)) (t : List Bool) :
    lzwUnscan W n fuel k D prev y t = .ok y := by
  cases fuel with
  | zero => rfl
  | succ fuel => rw [lzwUnscan, if_pos hn]

/-- The decoder gives a parse's sequences back. Before each code, what is left is a parse from the dictionary
it will have after that code. -/
theorem lzwUnscan_lzwPut {W fuel k : Nat} {D' D parts : List (List Byte)} {codes : List Nat}
    {prev : Option (List Byte)} {y : List Byte} (h : LzwParse W D' parts codes)
    (hD : D' = lzwGrow W D prev (parts.headD [])) (hready : LzwDecoderReady D prev)
    (hsize : D'.length = min (256 + k) (2 ^ W)) (hfuel : codes.length ≤ fuel) :
    lzwUnscan W (y ++ parts.flatten).length fuel k D prev y (lzwPut W k codes) =
      .ok (y ++ parts.flatten) := by
  induction h generalizing D prev fuel k y with
  | nil =>
    rw [List.flatten_nil, List.append_nil, lzwUnscan_of_done le_rfl]
  | @cons D' parts p c codes hne hcode hlongest hrest ih =>
    subst hD
    obtain ⟨fuel, rfl⟩ := Nat.exists_eq_add_of_le' (Nat.one_le_of_lt hfuel)
    obtain ⟨hlt, -⟩ := List.getElem?_eq_some_iff.1 hcode
    rw [List.flatten_cons, ← List.append_assoc, lzwPut,
      lzwUnscan_turn hready hne hcode (lt_two_pow_lzwWidth (hsize ▸ hlt))
        (by rw [List.length_append (bs := parts.flatten)]; exact Nat.le_add_right _ _)]
    refine ih rfl hne ?_ (Nat.le_of_succ_le_succ hfuel)
    rw [lzwInsert_length (hsize.trans_le (min_le_right _ _)), hsize]
    omega

theorem lzwUnscan_lzwBody {W : Nat} (hW : 9 ≤ W) (x : List Byte) :
    lzwUnscan W x.length x.length 0 lzwInitial none [] (lzwBody W x) = .ok x := by
  have hfuel := lzwCodes_length_le hW x
  obtain ⟨parts, hflatten, hparse⟩ := exists_lzwParse hW x
  have hsize : lzwInitial.length = min (256 + 0) (2 ^ W) := (lzwStart_inv hW).size
  have hloop := lzwUnscan_lzwPut (y := []) (prev := none) hparse rfl lzwInitial_length hsize hfuel
  rwa [List.nil_append, hflatten] at hloop

/-- DEC_LZW gives the input back where n and the number of body bits fit their fields (48 R370). -/
theorem decLzw_lzwPayload {W : Nat} {x : List Byte} (hmin : 9 ≤ W) (hmax : W ≤ 16)
    (hx : x.length < 2 ^ 32) (hbits : (lzwBody W x).length < 2 ^ 32) :
    decLzw (lzwPayload W x) = .ok x := by
  have hmetadata := lzwMetadata_length W x
  have hparse := parsePayload_container .lzw (pack (lzwBody W x)) hx
    (show (lzwMetadata W x).length < 2 ^ 32 by omega)
  have hwidth : ((lzwMetadata W x).getD 4 0).toNat = W := by
    have hget : (lzwMetadata W x).getD 4 0 = BitVec.ofNat 8 W := rfl
    rw [hget, BitVec.toNat_ofNat]
    omega
  have hpolicy : (lzwMetadata W x).getD 5 0 = 0x00 := rfl
  have hbody : bodyBits (lzwMetadata W x) (pack (lzwBody W x)) = .ok (lzwBody W x) :=
    bodyBits_pack hbits _
  rw [decLzw, lzwPayload_eq_container, hparse]
  simp only [hwidth, hbody, lzwUnscan_lzwBody hmin]
  rw [if_neg (not_not_intro hmetadata), if_neg (by omega), if_neg (not_not_intro hpolicy)]

theorem lzwPayload_layout (W : Byte) (x : List Byte) :
    lzwPayload W.toNat x = 0x04 :: beBytes x.length 4 ++ [0x00, 0x00, 0x00, 0x06] ++
      beBytes (lzwBody W.toNat x).length 4 ++ [W, 0x00] ++ pack (lzwBody W.toNat x) := by
  have hsix : beBytes 6 4 = [0x00, 0x00, 0x00, 0x06] := rfl
  rw [lzwPayload_eq_container, container, lzwMetadata_length, hsix, lzwMetadata, Codec.algorithmId,
    BitVec.ofNat_toNat, BitVec.setWidth_eq]
  simp only [List.append_assoc]

/-- Settles O40: the scan's codes are a parse of the input, which the decoder follows one entry behind; a
payload that fits OUT has fewer than 2^32 body bits. -/
theorem lzwEncodeWritesADecodablePayload : Obligations.LzwEncodeWritesADecodablePayload := by
  intro s W x hwf hmin hmax hl hc hx
  refine ⟨lzwPayload_length_le hmin hmax x, fun hfit => ?_⟩
  have hn : x.length < 2 ^ 32 := hl ▸ s.inLen.isLt
  have hbits : (lzwBody W.toNat x).length < 2 ^ 32 := by
    obtain ⟨_, ⟨_, hout⟩, _⟩ := hwf
    have := lzwPayload_length W.toNat x
    have := le_eight_mul_ceil8 (lzwBody W.toNat x).length
    omega
  obtain ⟨m, hexec, hm⟩ := encodeWith_stores (encode (.lzwEnc W)) hl hc hx
    (payload := fun x => .ok (lzwPayload W.toNat x)) rfl hfit
  have hlegal : (Instr.lzwEnc W).wellFormed := if_pos ⟨hmin, hmax⟩
  rw [exec, execLzwEnc, checked_of_wellFormed hlegal]
  exact ⟨m, hexec, hm, lzwPayload_layout W x, decLzw_lzwPayload hmin hmax hn hbits⟩

end Sys2Proof.Machine
end

section
/-! Every decoder begins with the container checks of PARSE, so a container that fails one of them is
refused by all four (48_reference_decoders R362, R372). -/

namespace Sys2Proof.Machine

/-- P is no container of algorithm id a: no header, another id, or metadata cut short (48 R362). -/
def IsBadContainer (P : List Byte) (a : Byte) : Prop :=
  P.length < 9 ∨ P[0]? ≠ some a ∨ P.length < 9 + unbe ((P.drop 5).take 4)

section
variable {P : List Byte} {e : DecodeFailure}

theorem parsePayload_of_isBadContainer {a : Byte} (h : IsBadContainer P a) :
    parsePayload P a = .error .corruptPayload := by
  by_cases hshort : P.length < 9
  · rw [parsePayload, if_pos hshort]
  by_cases hid : P.getD 0 0 ≠ a
  · rw [parsePayload, if_neg hshort, if_pos hid]
  have hhead : P[0]? = some a := by
    rw [List.getD_eq_getElem _ _ (by omega)] at hid
    rw [List.getElem?_eq_getElem (by omega), not_ne_iff.1 hid]
  have hcut : 9 + unbe ((P.drop 5).take 4) > P.length := (h.resolve_left hshort).resolve_left (· hhead)
  rw [parsePayload, if_neg hshort, if_neg hid, if_pos hcut]

theorem decRle_of_parse_error (h : parsePayload P 0x01 = .error e) : decRle P = .error e := by
  rw [decRle, Codec.algorithmId, h]

theorem decHuf_of_parse_error (h : parsePayload P 0x02 = .error e) : decHuf P = .error e := by
  rw [decHuf, Codec.algorithmId, h]

theorem decGol_of_parse_error (h : parsePayload P 0x03 = .error e) : decGol P = .error e := by
  rw [decGol, Codec.algorithmId, h]

theorem decLzw_of_parse_error (h : parsePayload P 0x04 = .error e) : decLzw P = .error e := by
  rw [decLzw, Codec.algorithmId, h]

end

/-- Settles O60: each decoder passes on the error of PARSE. -/
theorem decodersRefuseBadContainers : Obligations.DecodersRefuseBadContainers := by
  intro i d P id hrow hd hbad
  have hparse : parsePayload P id = .error .corruptPayload := parsePayload_of_isBadContainer hbad
  simp only [List.mem_cons, Prod.mk.injEq, List.not_mem_nil, or_false] at hrow
  rcases hrow with ⟨rfl, rfl⟩ | ⟨rfl, rfl⟩ | ⟨rfl, rfl⟩ | ⟨rfl, rfl⟩ <;> cases hd
  · exact decRle_of_parse_error hparse
  · exact decHuf_of_parse_error hparse
  · exact decGol_of_parse_error hparse
  · exact decLzw_of_parse_error hparse

end Sys2Proof.Machine
end

section
/-! The round trip for all four codecs at once (48_reference_decoders R370): what an encode stores is its
codec's payload of the input, and each decoder undoes its codec on payloads that fit OUT. -/

namespace Sys2Proof.Machine

/-- The decoder d undoes a codec, for inputs whose length is a word and payloads within the largest OUT_CAP
(00_scope R7). -/
def DecodesPayloadsOf (payload : List Byte → Except ErrorKind (List Byte))
    (d : List Byte → Decoded (List Byte)) : Prop :=
  ∀ x P, x.length < 2 ^ 32 → P.length ≤ 2 ^ 28 → payload x = .ok P → d P = .ok x

/-- A bit-packed payload that OUT can hold has a body whose bit count fits `body_bits`. -/
theorem bits_lt_of_packedContainer_le {c : Codec} {n : Nat} {rest : List Byte} {s : List Bool}
    (h : (packedContainer c n rest s).length ≤ 2 ^ 28) : s.length < 2 ^ 32 := by
  have hceil := le_eight_mul_ceil8 s.length
  rw [packedContainer, container_length, pack_length] at h
  omega

theorem golombDivisor_bounds {mode : Byte} {arg0 : Word} {x : List Byte} {b : Nat}
    (h : golombDivisor mode arg0 x = .ok b) : 1 ≤ b ∧ b < 2 ^ 32 := by
  unfold golombDivisor at h
  split at h
  · split at h <;> cases h
    next hne => exact ⟨Nat.one_le_iff_ne_zero.2 hne, arg0.isLt⟩
  · cases h
    have := golombEstimate_bounds x
    omega

/-- A payload of GOL.ENC is a Golomb payload whose divisor is a nonzero word. -/
theorem exists_divisor_of_golombEncode {mode : Byte} {arg0 : Word} {x P : List Byte}
    (h : golombEncode mode arg0 x = .ok P) : ∃ b, (1 ≤ b ∧ b < 2 ^ 32) ∧ P = golombPayload b x := by
  unfold golombEncode at h
  split at h
  · cases h
  next b hb =>
    cases h
    exact ⟨b, golombDivisor_bounds hb, rfl⟩

theorem decRle_decodesPayloads : DecodesPayloadsOf (fun x => .ok (rlePayload x)) decRle := by
  rintro x _ hx - ⟨⟩
  exact decRle_rlePayload hx

theorem decHuf_decodesPayloads : DecodesPayloadsOf (fun x => .ok (hufPayload x)) decHuf := by
  rintro x _ hx hfit ⟨⟩
  exact decHuf_hufPayload hx (bits_lt_of_packedContainer_le hfit)

theorem decGol_decodesPayloads (mode : Byte) (arg0 : Word) :
    DecodesPayloadsOf (golombEncode mode arg0) decGol := by
  intro x P hx hfit hP
  obtain ⟨b, ⟨hpos, hword⟩, rfl⟩ := exists_divisor_of_golombEncode hP
  exact decGol_golombPayload hx hpos hword (bits_lt_of_packedContainer_le hfit)

theorem decLzw_decodesPayloads {W : Nat} (hmin : 9 ≤ W) (hmax : W ≤ 16) :
    DecodesPayloadsOf (fun x => .ok (lzwPayload W x)) decLzw := by
  rintro x _ hx hfit ⟨⟩
  exact decLzw_lzwPayload hmin hmax hx (bits_lt_of_packedContainer_le hfit)

theorem lzwEnc_wellFormed_iff {W : Byte} :
    (Instr.lzwEnc W).wellFormed ↔ 9 ≤ W.toNat ∧ W.toNat ≤ 16 := by
  simp [Instr.wellFormed, Instr.check]

/-- A legal encode runs a codec that its matching decoder undoes. -/
theorem exec_of_matchingDecoder {i : Instr} {d : List Byte → Decoded (List Byte)}
    (hd : matchingDecoder i = some d) (hlegal : i.wellFormed) (s : State) :
    ∃ payload, exec i s = encodeWith (encode i) payload s ∧ DecodesPayloadsOf payload d := by
  cases i with
  | rleEnc =>
    cases hd
    exact ⟨_, rfl, decRle_decodesPayloads⟩
  | hufEnc =>
    cases hd
    exact ⟨_, rfl, decHuf_decodesPayloads⟩
  | golEnc m =>
    cases hd
    exact ⟨_, checked_of_wellFormed hlegal s _, decGol_decodesPayloads m s.arg0⟩
  | lzwEnc W =>
    cases hd
    obtain ⟨hmin, hmax⟩ := lzwEnc_wellFormed_iff.1 hlegal
    exact ⟨_, checked_of_wellFormed hlegal s _, decLzw_decodesPayloads hmin hmax⟩
  | nop | bsClear | bsWrite | bsRead | bsFinish | bsLoad => cases hd

/-- The first IN_LEN bytes of IN are the input (20_memory R77), so two inputs of one state are equal. -/
theorem input_unique {s : State} {x y : List Byte} (hx : s.inLen.toNat = x.length)
    (hxs : ∀ a, a < x.length → s.input.read a = x[a]?) (hy : s.inLen.toNat = y.length)
    (hys : ∀ a, a < y.length → s.input.read a = y[a]?) : x = y := by
  have hlen : x.length = y.length := hx.symm.trans hy
  refine List.ext_getElem?_iff.2 fun a => ?_
  rcases Nat.lt_or_ge a x.length with ha | ha
  · rw [← hxs a ha, hys a (hlen ▸ ha)]
  · rw [List.getElem?_eq_none ha, List.getElem?_eq_none (hlen ▸ ha)]

theorem storePayload_read (P : List Byte) (s : State) (a : Nat) :
    (s.storePayload P).output.read a = P[a]? := by
  rw [State.storePayload_output, Memory.read_ofBytes, if_pos (Nat.zero_le a), Nat.sub_zero]

theorem storePayload_outLen_toNat {P : List Byte} (hP : P.length < 2 ^ 32) (s : State) :
    (s.storePayload P).outLen.toNat = P.length := by
  rw [State.storePayload_outLen, BitVec.toNat_ofNat, Nat.mod_eq_of_lt hP]

/-- Settles O41: an encode that ends in DONE is legal and has stored its codec's payload, which fits OUT. -/
theorem everySuccessfulEncodeRoundTrips : Obligations.EverySuccessfulEncodeRoundTrips := by
  intro i d s t x hwf hd hl hx h ht
  obtain ⟨payload, hexec, hdecodes⟩ := exec_of_matchingDecoder hd (wellFormed_of_done h ht) s
  obtain ⟨y, P, hly, -, hy, hP, hfit, rfl⟩ := encodeWith_done (hexec.symm.trans h) ht
  obtain rfl : x = y := input_unique hl hx hly hy
  obtain ⟨-, ⟨-, hout⟩, -⟩ := hwf
  have hroom : P.length ≤ 2 ^ 28 := hfit.trans hout
  exact ⟨P, storePayload_read P s, storePayload_outLen_toNat (by omega) s,
    hdecodes x P (hl ▸ s.inLen.isLt) hroom hP⟩

end Sys2Proof.Machine
end

section
/-! What a command reads of IN, and how an UNWRITTEN byte ends it: a command either reads its whole extent
and has a next state, or faults at the first UNWRITTEN byte of it (60_exceptions R417, 70_reset R462). -/

namespace Sys2Proof.Machine

/-! ## MemRead, by the first byte that holds no value -/

/-- MemRead answers exactly when all its bytes hold a value. -/
theorem Memory.readBytes_ok_iff {m : Memory} {n : Nat} :
    (∃ bytes, m.readBytes 0 n = .ok bytes) ↔ ∀ a, a < n → (m.read a).isSome := by
  refine ⟨fun ⟨bytes, hread⟩ a ha => ?_, Memory.exists_readBytes_ok⟩
  obtain ⟨hlen, hbytes⟩ := Memory.readBytes_ok hread
  have hbyte : m.read a = bytes[a]? := by simpa using hbytes a ha
  simpa [hbyte, hlen] using ha

/-- MemRead fails at a byte that holds no value when all the bytes before it hold one. -/
theorem Memory.readBytes_of_first_unwritten {m : Memory} {a n : Nat} (ha : a < n) (hnone : m.read a = none)
    (hbefore : ∀ b, b < a → (m.read b).isSome) : m.readBytes 0 n = .error a := by
  cases hread : m.readBytes 0 n with
  | ok bytes => simpa [hnone] using Memory.readBytes_ok_iff.1 ⟨bytes, hread⟩ a ha
  | error e =>
    obtain ⟨-, -, he, hsome⟩ := Memory.readBytes_error hread
    rcases Nat.lt_trichotomy e a with hlt | rfl | hgt
    · simpa [he] using hbefore e hlt
    · rfl
    · simpa [hnone] using hsome a (Nat.zero_le a) hgt

/-! ## The outcome of a command that reads n bytes of IN -/

/-- The outcome r is that of a command that reads IN bytes 0 to n - 1 and depends on them: the fault at the
first UNWRITTEN one, or a next state. -/
def ReadsInput (s : State) (n : Nat) (r : Result) : Prop :=
  (∃ a, s.input.readBytes 0 n = .error a ∧ r = .fault (.unwrittenInput a)) ∨
    ∃ bytes t, s.input.readBytes 0 n = .ok bytes ∧ r = .next t

theorem readsInput_zero (s t : State) : ReadsInput s 0 (.next t) := .inr ⟨[], t, rfl, rfl⟩

section
variable {s : State} {n : Nat} {r : Result}

theorem ReadsInput.fault_of_first_unwritten (h : ReadsInput s n r) {a : Nat} (ha : a < n)
    (hnone : s.input.read a = none) (hbefore : ∀ b, b < a → (s.input.read b).isSome) :
    r = .fault (.unwrittenInput a) := by
  have hread := Memory.readBytes_of_first_unwritten ha hnone hbefore
  rcases h with ⟨e, he, hr⟩ | ⟨bytes, t, hok, _⟩
  · cases hread.symm.trans he
    exact hr
  · cases hread.symm.trans hok

theorem ReadsInput.inputWritten_iff (h : ReadsInput s n r) :
    s.inputWritten n ↔ ∃ t, r = .next t := by
  rw [State.inputWritten, ← Memory.readBytes_ok_iff]
  rcases h with ⟨e, he, hr⟩ | ⟨bytes, t, hok, hr⟩
  · simp [he, hr]
  · simp [hok, hr]

theorem ReadsInput.not_refused (h : ReadsInput s n r) (why : Refusal) : r ≠ .refused why := by
  rcases h with ⟨e, -, rfl⟩ | ⟨bytes, t, -, rfl⟩ <;> nofun

end

/-! ## The extent of each command -/

theorem readExtent_of_not_wellFormed {i : Instr} (h : ¬ i.wellFormed) (s : State) :
    s.readExtent i = 0 := by
  cases i with
  | golEnc m => exact if_neg fun hm => h (if_pos hm)
  | lzwEnc W => exact if_neg fun hW => h (if_pos hW)
  | bsWrite | bsRead => rfl
  | nop | bsClear | bsFinish | bsLoad | rleEnc | hufEnc => exact absurd rfl h

theorem golEnc_wellFormed_iff {m : Byte} : (Instr.golEnc m).wellFormed ↔ m.toNat ≤ 1 := by
  simp [Instr.wellFormed, Instr.check]

theorem readExtent_of_encode {i : Instr} (hi : isEncode i = true) (h : i.wellFormed) (s : State) :
    s.readExtent i = s.encodeExtent := by
  cases i with
  | rleEnc | hufEnc => rfl
  | golEnc m => exact if_pos (golEnc_wellFormed_iff.1 h)
  | lzwEnc W => exact if_pos (lzwEnc_wellFormed_iff.1 h)
  | nop | bsClear | bsWrite | bsRead | bsFinish | bsLoad => cases hi

/-- The four ends of an encode: only the fault is no next state, and the IN_LEN error comes before any byte
is read. -/
theorem encodeWith_readsInput (w : Word) (payload : List Byte → Except ErrorKind (List Byte)) (s : State) :
    ReadsInput s s.encodeExtent (encodeWith w payload s) := by
  unfold State.encodeExtent
  rcases encodeWith_cases w payload s with
    ⟨hover, hc⟩ | ⟨hcap, a, hread, hc⟩ | ⟨hcap, x, e, hread, _, hc⟩ | ⟨hcap, x, P, hread, _, hc⟩
  · rw [if_neg (Nat.not_le.2 hover), hc]
    exact readsInput_zero s _
  · rw [if_pos hcap]
    exact .inl ⟨a, hread, hc⟩
  · rw [if_pos hcap]
    exact .inr ⟨x, _, hread, hc⟩
  · rw [if_pos hcap]
    exact .inr ⟨x, _, hread, hc⟩

theorem exec_encode_readsInput {i : Instr} (hi : isEncode i = true) (hwf : i.wellFormed) (s : State) :
    ReadsInput s (s.readExtent i) (exec i s) := by
  obtain ⟨payload, hexec, -⟩ := exec_encode hi
  rw [hexec, checked_of_wellFormed hwf, readExtent_of_encode hi hwf]
  exact encodeWith_readsInput _ _ s

/-- BS.LOAD reads its bytes only past its three checks. -/
theorem exec_bsLoad_readsInput (s : State) : ReadsInput s (s.readExtent .bsLoad) (exec .bsLoad s) := by
  rw [State.readExtent]
  rcases Nat.lt_or_ge s.params.inCap s.inLen.toNat with h | hin
  · rw [if_neg (by omega), exec_bsLoad_of_oversize h]
    exact readsInput_zero s _
  rcases Nat.lt_or_ge (8 * s.inLen.toNat) s.arg0.toNat with h | hbits
  · rw [if_neg (by omega), exec_bsLoad_of_short hin h]
    exact readsInput_zero s _
  rcases Nat.lt_or_ge (8 * s.params.bsCap) s.arg0.toNat with h | hcap
  · rw [if_neg (by omega), exec_bsLoad_of_exceeds hin hbits h]
    exact readsInput_zero s _
  rw [if_pos ⟨hin, hbits, hcap⟩, ← ceil8]
  cases hread : s.input.readBytes 0 (ceil8 s.arg0.toNat) with
  | error a => exact .inl ⟨a, hread, exec_bsLoad_of_unwritten hin hbits hcap hread⟩
  | ok bytes => exact .inr ⟨bytes, _, hread, exec_bsLoad_of_bytes hin hbits hcap hread⟩

/-- Everything a command can do with IN: it reads its extent. -/
theorem exec_readsInput (i : Instr) (s : State) : ReadsInput s (s.readExtent i) (exec i s) := by
  by_cases hwf : i.wellFormed
  · cases i with
    | nop | bsClear | bsFinish => exact readsInput_zero s _
    | bsWrite n =>
      rcases exec_bsWrite_cases n s with hc | hc | ⟨_, hc⟩ <;> rw [hc] <;> exact readsInput_zero s _
    | bsRead n =>
      rcases exec_bsRead_cases n s with hc | hc | ⟨_, hc⟩ <;> rw [hc] <;> exact readsInput_zero s _
    | bsLoad => exact exec_bsLoad_readsInput s
    | rleEnc | hufEnc | golEnc | lzwEnc => exact exec_encode_readsInput rfl hwf s
  · rw [exec_of_not_wellFormed hwf, readExtent_of_not_wellFormed hwf]
    exact readsInput_zero s _

/-- Settles O28: the command has a next state exactly when MemRead of its extent answers. -/
theorem commandsCompleteIffTheirInputIsWritten : Obligations.CommandsCompleteIffTheirInputIsWritten :=
  fun i s => ⟨(exec_readsInput i s).inputWritten_iff, (exec_readsInput i s).not_refused⟩

/-- Settles O29: MemRead of the command's extent fails at its first UNWRITTEN byte. -/
theorem readingUnwrittenInputFaults : Obligations.ReadingUnwrittenInputFaults :=
  fun i s _ ha hnone hbefore => (exec_readsInput i s).fault_of_first_unwritten ha hnone hbefore

end Sys2Proof.Machine
end

section
/-! IN_LEN over IN_CAP: the first check of a legal encode (60_exceptions R414, R416, R421). -/

namespace Sys2Proof.Machine

theorem raiseEncode_configuration_eq (w : Word) (s : State) :
    s.raiseEncode .configuration w = { s with
      engine := .idle, status := 0x00000104, errinfo := w, outLen := 0x00000000, output := [] } := rfl

theorem encodeWith_of_oversize {s : State} (h : s.params.inCap < s.inLen.toNat) (w : Word)
    (payload : List Byte → Except ErrorKind (List Byte)) :
    encodeWith w payload s = .next (s.raiseEncode .configuration w) := if_pos h

theorem exec_encode_of_oversize {i : Instr} (hi : isEncode i = true) (hwf : i.wellFormed) {s : State}
    (h : s.params.inCap < s.inLen.toNat) :
    exec i s = .next (s.raiseEncode .configuration (encode i)) := by
  obtain ⟨payload, hexec, -⟩ := exec_encode hi
  rw [hexec, checked_of_wellFormed hwf, encodeWith_of_oversize h]

/-- Settles O42: each listed pair is a legal encode with its own word, and fails its first check. -/
theorem encodeWithOversizeInLenFails : Obligations.EncodeWithOversizeInLenFails := by
  intro s i w h hlisted
  rw [← raiseEncode_configuration_eq]
  rcases hlisted with hpair | hpair | ⟨m, hm, hpair⟩ | ⟨W, hlo, hhi, hpair⟩ <;> cases hpair
  · exact exec_encode_of_oversize (i := .rleEnc) rfl rfl h
  · exact exec_encode_of_oversize (i := .hufEnc) rfl rfl h
  · have hword : encode (.golEnc m) = BitVec.ofNat 32 (0x12 + 256 * m.toNat) := encode_eq_ofNat _
    rw [← hword]
    exact exec_encode_of_oversize rfl (golEnc_wellFormed_iff.2 hm) h
  · have hword : encode (.lzwEnc W) = BitVec.ofNat 32 (0x13 + 256 * W.toNat) := encode_eq_ofNat _
    rw [← hword]
    exact exec_encode_of_oversize rfl (lzwEnc_wellFormed_iff.2 ⟨hlo, hhi⟩) h

end Sys2Proof.Machine
end

section
/-! Writes that are ignored, and the reset pulse (70_reset R450 to R454). -/

namespace Sys2Proof.Machine

/-! ## Ignored writes -/

/-- The registers of 10_state R51 that only the block writes. -/
def readOnlyRegs : List Reg := [.status, .errinfo, .result, .outLen, .bsWpos, .bsRpos]

theorem writeReg_of_readOnly {r : Reg} (h : r ∈ readOnlyRegs) (s : State) (v : Word) :
    s.writeReg v r = s := by
  cases r with
  | cmd | arg0 | inLen => exact absurd h (by decide)
  | status | errinfo | result | outLen | bsWpos | bsRpos => rfl

/-- A busy engine ignores a host write of any width to any address, in the block or outside it. -/
theorem perform_write_of_busy {s : State} {w : Word} (he : s.engine = .busy w) (width addr : Nat)
    (v : Word) : s.perform (.write width addr v) = s := by
  cases h : Params.blockAddress s.params addr with
  | none => simp [State.perform, h]
  | some a => simp [State.perform, h, busWrite_of_busy he]

theorem atHostTurn_of_busy {s : State} {w : Word} {k : Nat} (he : s.engine = .busy w)
    (hw : s.wait = k + 1) : s.atHostTurn = some { s with wait := k } := by
  simp [State.atHostTurn, he, hw]

/-- Settles O9: the write is dropped while BUSY whatever it addresses, and at any time when the register
it addresses is a read-only one. -/
theorem writesWhileBusyAreIgnored : Obligations.WritesWhileBusyAreIgnored := by
  refine ⟨fun s w k width addr v rest he hw hp => ?_, fun s u off v rest hu hmem hp => ?_⟩
  · rw [step_of_event (atHostTurn_of_busy he hw) hp, perform_write_of_busy (w := w) (by exact he)]
  · obtain ⟨r, hr, rfl⟩ : ∃ r ∈ readOnlyRegs, r.offset = off := List.mem_map.1 hmem
    rw [step_of_register_write hu hp, writeReg_of_readOnly hr]

/-! ## The reset pulse -/

/-- The block takes the values of 10_state R50; the parameters and the model's draws, events and replies
stand outside it and are kept (log 15). -/
theorem resetPulse_eq (s : State) : s.resetPulse =
    { engine := .idle, status := 0x00000000, errinfo := 0x00000000, arg0 := 0x00000000,
      result := 0x00000000, inLen := 0x00000000, outLen := 0x00000000,
      bs := { bits := [], rpos := 0 }, input := [], output := [], params := s.params, wait := 0,
      fresh := s.fresh, pending := s.pending, replies := s.replies } := rfl

/-- Settles O11: the pulse does not look at the engine, so a command in flight leaves nothing behind. -/
theorem resetPulseGivesResetState : Obligations.ResetPulseGivesResetState := by
  intro s u rest hu hp
  rw [step_of_event hu hp, State.perform, resetPulse_eq]

end Sys2Proof.Machine
end
